-- ==== Sys2Proof/Word.lean ====
section
/-! DEFINITION. The widths of the block's values (00_scope.md R11, R12): bytes, port numbers, transaction words,
callback identifiers. -/

namespace Sys2Proof

/-- One byte: what every port transaction moves (R75). -/
abbrev Byte := BitVec 8

/-- An I/O port number (R70: 16-bit port numbers, one byte per port). -/
abbrev Port := BitVec 16

/-- A transaction word (R110: every transaction has a 32-bit spelling). -/
abbrev Word := BitVec 32

/-- A callback identifier (R264: 20 bits). -/
abbrev CallbackId := BitVec 20

end Sys2Proof
end

