-- ==== Sys2Proof/Config.lean ====
section
/-! DEFINITION. What is fixed for one machine and not written by any transaction: the port addresses (R71), the named
parameters the spec leaves OPEN (R10), and the free values: what the spec calls a draw or leaves open at each use
(R221, R222, R158). A parameter is plain data and the state carries it (State.par), so a statement about every state is a
statement about every value of every parameter. A free value is an opaque constant of the draw's number: no proof can
see what it is. -/

namespace Sys2Proof

namespace Config

/-! The port map (20_memory.md R71, R194). -/

/-- U1 master, even port. -/
abbrev portMasterEven : Port := 0x20#16
/-- U1 master, odd port. -/
abbrev portMasterOdd : Port := 0x21#16
/-- U1 slave, even port. -/
abbrev portSlaveEven : Port := 0xA0#16
/-- U1 slave, odd port. -/
abbrev portSlaveOdd : Port := 0xA1#16
/-- U2, timer channel 0 data. -/
abbrev portPitData : Port := 0x40#16
/-- Timer channel 1: outside the block's timer, refused (R194). -/
abbrev portPitCh1 : Port := 0x41#16
/-- Timer channel 2: outside the block's timer, refused (R194). -/
abbrev portPitCh2 : Port := 0x42#16
/-- U2, timer command register. -/
abbrev portPitCtrl : Port := 0x43#16
/-- The external 8042's data register. -/
abbrev portKbcData : Port := 0x60#16
/-- The external 8042's command and status register. -/
abbrev portKbcStatus : Port := 0x64#16
/-- The delay port (R119). -/
abbrev portIoWait : Port := 0x80#16

/-- The ports of R71: the block's own and the 8042's. A 16-bit or 32-bit access to one of them is refused for its width
(R75). -/
def portMap : List Port :=
  [portMasterEven, portMasterOdd, portSlaveEven, portSlaveOdd, portPitData, portPitCtrl, portKbcData, portKbcStatus,
   portIoWait]

/-- Every port some row of the opcode table names: R71's ports and the two other timer channels of R194. A transaction
on any other port is refused (R118). -/
def namedPorts : List Port :=
  [portMasterEven, portMasterOdd, portSlaveEven, portSlaveOdd, portPitData, portPitCh1, portPitCh2, portPitCtrl,
   portKbcData, portKbcStatus, portIoWait]

/-- The byte the `n`-th draw gives: the 8042 status bits the spec leaves open (R221, I1) and a data read of an empty
queue (R222, I2). No body: nothing constrains it. Log entry 2. -/
opaque freeByte : Nat → Byte

/-- Which of its two answers the `n`-th spurious acknowledge gives, where R158 allows both: true is the slave's. No body:
nothing constrains it. Log entry 2. -/
opaque freeSpuriousFromSlave : Nat → Bool

end Config

/-- The named parameters (00_scope.md R10), each of a type that admits exactly the values R10's type admits. -/
structure Params where
  /-- `P_AUX_MASK` is the byte with bit `auxBit + 1` set and no other: exactly one bit, not bit 0. -/
  auxBit : Fin 7
  /-- `P_TPS` is `tpsLess1 + 1`: a natural, at least 1. -/
  tpsLess1 : Nat
  /-- `P_IMR_M0`. -/
  imrM0 : Byte
  /-- `P_IMR_S0`. -/
  imrS0 : Byte
  /-- `P_BASE_M0` is these five bits over three zero bits. -/
  baseM0High : BitVec 5
  /-- `P_BASE_S0` is these five bits over three zero bits. -/
  baseS0High : BitVec 5
  /-- `P_SPURIOUS`. -/
  spurious : Bool
  /-- `P_PIT_MODE0`. -/
  pitMode0 : BitVec 3
  /-- `P_PIT_RELOAD0`. -/
  pitReload0 : BitVec 16
  /-- `P_PIT_ARMED0`. -/
  pitArmed0 : Bool
  /-- `P_PIT_BASE_HZ`: informative only; no rule depends on it (R197). -/
  pitBaseHz : Nat
  deriving DecidableEq, Repr

namespace Params

/-- `P_AUX_MASK` (R10, R221). -/
def auxMask (p : Params) : Byte := 1#8 <<< (p.auxBit.val + 1)

/-- `P_TPS`, clock ticks per second (R10, R200). -/
def tps (p : Params) : Nat := p.tpsLess1 + 1

/-- `P_BASE_M0` (R10, R36). -/
def baseM0 (p : Params) : Byte := p.baseM0High ++ 0#3

/-- `P_BASE_S0` (R10, R36). -/
def baseS0 (p : Params) : Byte := p.baseS0High ++ 0#3

/-- The parameters the one reset state of the model is built with: R10's conventional values where R10, R36, R41 and R42
give them, and the illustrative values of 95_test_vectors.md for the rest. DESIGN CHOICE, PRESUMED: log entry 1. -/
def illustrative : Params where
  auxBit := 4
  tpsLess1 := 99
  imrM0 := 0xF8#8
  imrS0 := 0xEF#8
  baseM0High := 0b00001#5
  baseS0High := 0b01110#5
  spurious := false
  pitMode0 := 3#3
  pitReload0 := 0#16
  pitArmed0 := true
  pitBaseHz := 1193182

end Params

end Sys2Proof
end

