-- ==== Sys2Proof/Syntax.lean ====
section
/-! DEFINITION. The transactions as syntax: one constructor of Instr per row of spec/opcode_table.json, with the row's
operands (30_encoding.md R110, R111). -/

namespace Sys2Proof

/-- What a controller's odd port expects next (10_state.md R37). It is also what a transaction word's reading depends on
(R122). -/
inductive Init where
  | ready | icw2 | icw3 | icw4
  deriving DecidableEq, Repr

/-- The two controllers of U1 (R16). -/
inductive Ctl where
  | master | slave
  deriving DecidableEq, Repr

/-- The three buttons of U4 (R9). -/
inductive Button where
  | left | right | middle
  deriving DecidableEq, Repr

/-- The three event kinds of U4 (R9). -/
inductive Kind where
  | click | doubleClick | release
  deriving DecidableEq, Repr

/-- Which device a byte in the 8042 comes from (R49): the keyboard or the mouse. -/
inductive Src where
  | kbd | aux
  deriving DecidableEq, Repr

/-- The transactions, one constructor per row of the opcode table. -/
inductive Instr where
  -- U1 writes (40_pic.md R141 to R147)
  | outPicMIcw1
  | outPicSIcw1
  | outPicMIcw2 (v : Byte)
  | outPicSIcw2 (v : Byte)
  | outPicMIcw3 (v : Byte)
  | outPicSIcw3 (v : Byte)
  | outPicMIcw4 (v : Byte)
  | outPicSIcw4 (v : Byte)
  | outPicMOcw1 (mask : Byte)
  | outPicSOcw1 (mask : Byte)
  | outPicMEoi
  | outPicSEoi
  | outPicMEvenOther (data : Byte)
  | outPicSEvenOther (data : Byte)
  -- U1 reads (R148, R149)
  | inPicMIrr
  | inPicSIrr
  | inPicMImr
  | inPicSImr
  -- U2 (41_pit_clock.md R191 to R194)
  | outPitCtrl
  | outPitCtrlOther (data : Byte)
  | outPitData (byte : Byte)
  | inPitData
  | inPitCtrl
  | outPitCh1 (data : Byte)
  | outPitCh2 (data : Byte)
  | inPitCh1
  | inPitCh2
  -- the 8042's ports (42_ps2_assembler.md R221, R222, R230)
  | inKbcStatus
  | inKbcData
  | outKbcData (data : Byte)
  | outKbcCmd (data : Byte)
  -- the delay port and every other port (R118, R119)
  | outIoWait (data : Byte)
  | inIoWait
  | outUnmapped (port : Port) (data : Byte)
  | inUnmapped (port : Port)
  -- the agents outside the host (R150 to R152, R223)
  | irq2
  | irq (line : BitVec 4)
  | inta
  | kbcPush (src : Src) (byte : Byte)
  -- the macro operations (R153, R154, R195, R228)
  | remap (masterOffset slaveOffset : Byte)
  | ack (vector : Byte)
  | program (divisor : BitVec 16)
  | drain
  -- U3, U4 and U5 (R200, R224, R226, R260, R264)
  | accept (status data : Byte)
  | clockAdvance
  | onEvent (button kind : BitVec 2) (callback : CallbackId)
  | packetComplete
  | buttonUpdate (button : Button) (raw : Bool)
  deriving DecidableEq, Repr

end Sys2Proof
end

