-- ==== Sys2Proof/WellFormed.lean ====
section
/-! DEFINITION. Which terms of Instr a transaction word can spell. A row of the opcode table whose format says that the
rows above match first leaves out the operands those rows take. -/

namespace Sys2Proof

/-- A port no row of the opcode table names (R118). -/
def unnamedPort (p : Port) : Bool := !(Config.namedPorts.contains p)

/-- A term is well formed when its operands are none that an earlier row of the opcode table takes. -/
def Instr.wf : Instr → Bool
  -- 0x11 is ICW1's row and 0x20 the end-of-interrupt's (R101, R106, R147)
  | .outPicMEvenOther data => data != 0x11#8 && data != 0x20#8
  | .outPicSEvenOther data => data != 0x11#8 && data != 0x20#8
  -- 0x34 is the control word's row (R107, R192)
  | .outPitCtrlOther data => data != 0x34#8
  -- the named ports have rows of their own (R71, R118)
  | .outUnmapped port _ => unnamedPort port
  | .inUnmapped port => unnamedPort port
  -- the cascade line has a row of its own (R151)
  | .irq line => line != 2#4
  | .outPicMIcw1 | .outPicSIcw1 | .outPicMIcw2 _ | .outPicSIcw2 _ | .outPicMIcw3 _ | .outPicSIcw3 _
  | .outPicMIcw4 _ | .outPicSIcw4 _ | .outPicMOcw1 _ | .outPicSOcw1 _ | .outPicMEoi | .outPicSEoi
  | .inPicMIrr | .inPicSIrr | .inPicMImr | .inPicSImr | .outPitCtrl | .outPitData _ | .inPitData | .inPitCtrl
  | .outPitCh1 _ | .outPitCh2 _ | .inPitCh1 | .inPitCh2 | .inKbcStatus | .inKbcData | .outKbcData _ | .outKbcCmd _
  | .outIoWait _ | .inIoWait | .irq2 | .inta | .kbcPush _ _ | .remap _ _ | .ack _ | .program _ | .drain
  | .accept _ _ | .clockAdvance | .onEvent _ _ _ | .packetComplete | .buttonUpdate _ _ => true

end Sys2Proof
end

