-- ==== Sys2Proof/Decode.lean ====
section
/-! DEFINITION. The transaction word (30_encoding.md R110, R111, R117, R122): the decoder, total on every word and
rejecting by name, and after it the encoder, written from the same layout. -/

namespace Sys2Proof

/-- Why a word spells no transaction (R117). -/
inductive Reject where
  /-- bits [31:24] are no kind of R111 -/
  | unlistedKind
  /-- an operand bit R111 does not assign is set -/
  | reservedBit
  /-- a button_update word with button field 3: R260's operand is one of three buttons (log entry 8) -/
  | noSuchButton
  deriving DecidableEq, Repr

/-- What the decoder answers: a transaction, or `invalid` (R117) with the reason. -/
inductive Decoded where
  | instr (i : Instr)
  | invalid (why : Reject)
  deriving DecidableEq, Repr

/-! The fields of a word (R110, R111). -/

/-- Bits [31:24]. -/
def kindOf (w : Word) : Byte := w.extractLsb' 24 8
/-- Bits [23:8]: the port of `out` and `in`; reserved in the words of one byte operand. -/
def portOf (w : Word) : Port := w.extractLsb' 8 16
/-- Bits [23:16]: reserved in the words of two byte operands. -/
def highByteOf (w : Word) : Byte := w.extractLsb' 16 8
/-- Bits [15:8]. -/
def midByteOf (w : Word) : Byte := w.extractLsb' 8 8
/-- Bits [7:0]. -/
def lowByteOf (w : Word) : Byte := w.extractLsb' 0 8
/-- Bits [23:0]: all operand bits. -/
def operandsOf (w : Word) : BitVec 24 := w.extractLsb' 0 24

/-- An even-port write to the master: ICW1, the end-of-interrupt, or any other data (R122, R147). -/
def decodeOutMasterEven (v : Byte) : Instr :=
  if v = 0x11#8 then .outPicMIcw1 else if v = 0x20#8 then .outPicMEoi else .outPicMEvenOther v

/-- An even-port write to the slave (R122, R147). -/
def decodeOutSlaveEven (v : Byte) : Instr :=
  if v = 0x11#8 then .outPicSIcw1 else if v = 0x20#8 then .outPicSEoi else .outPicSEvenOther v

/-- An odd-port write to the master means the word its `init` expects (R122). -/
def decodeOutMasterOdd (init : Init) (v : Byte) : Instr :=
  match init with
  | .icw2 => .outPicMIcw2 v
  | .icw3 => .outPicMIcw3 v
  | .icw4 => .outPicMIcw4 v
  | .ready => .outPicMOcw1 v

/-- An odd-port write to the slave means the word its `init` expects (R122). -/
def decodeOutSlaveOdd (init : Init) (v : Byte) : Instr :=
  match init with
  | .icw2 => .outPicSIcw2 v
  | .icw3 => .outPicSIcw3 v
  | .icw4 => .outPicSIcw4 v
  | .ready => .outPicSOcw1 v

/-- Kind 0x01, `out p, v`, by port (R71, R111). -/
def decodeOut (mi si : Init) (p : Port) (v : Byte) : Instr :=
  if p = Config.portMasterEven then decodeOutMasterEven v
  else if p = Config.portMasterOdd then decodeOutMasterOdd mi v
  else if p = Config.portSlaveEven then decodeOutSlaveEven v
  else if p = Config.portSlaveOdd then decodeOutSlaveOdd si v
  else if p = Config.portPitData then .outPitData v
  else if p = Config.portPitCh1 then .outPitCh1 v
  else if p = Config.portPitCh2 then .outPitCh2 v
  else if p = Config.portPitCtrl then (if v = 0x34#8 then .outPitCtrl else .outPitCtrlOther v)
  else if p = Config.portKbcData then .outKbcData v
  else if p = Config.portKbcStatus then .outKbcCmd v
  else if p = Config.portIoWait then .outIoWait v
  else .outUnmapped p v

/-- Kind 0x02, `in p`, by port (R71, R111). -/
def decodeIn (p : Port) : Instr :=
  if p = Config.portMasterEven then .inPicMIrr
  else if p = Config.portMasterOdd then .inPicMImr
  else if p = Config.portSlaveEven then .inPicSIrr
  else if p = Config.portSlaveOdd then .inPicSImr
  else if p = Config.portPitData then .inPitData
  else if p = Config.portPitCh1 then .inPitCh1
  else if p = Config.portPitCh2 then .inPitCh2
  else if p = Config.portPitCtrl then .inPitCtrl
  else if p = Config.portKbcData then .inKbcData
  else if p = Config.portKbcStatus then .inKbcStatus
  else if p = Config.portIoWait then .inIoWait
  else .inUnmapped p

/-- Kind 0x03, `irq n`; the cascade line has a row of its own (R150, R151). -/
def decodeIrq (line : BitVec 4) : Instr := if line = 2#4 then .irq2 else .irq line

/-- Kind 0x21, `button_update`: [1:0] the button, [2] the raw bit (R111, R260). -/
def decodeButtonUpdate (button : BitVec 2) (raw : Bool) : Decoded :=
  if button = 0#2 then .instr (.buttonUpdate .left raw)
  else if button = 1#2 then .instr (.buttonUpdate .right raw)
  else if button = 2#2 then .instr (.buttonUpdate .middle raw)
  else .invalid .noSuchButton

/-- Answers `i` if every reserved bit is 0 (R110), and rejects the word otherwise. -/
def reservedZero {n : Nat} (reserved : BitVec n) (d : Decoded) : Decoded :=
  if reserved = 0#n then d else .invalid .reservedBit

/-- The decoder. Its reading depends on the two controllers' `init` for a write to an odd controller port and on the word
alone otherwise (R122). -/
def decode (mi si : Init) (w : Word) : Decoded :=
  if kindOf w = 0x01#8 then .instr (decodeOut mi si (portOf w) (lowByteOf w))
  else if kindOf w = 0x02#8 then reservedZero (lowByteOf w) (.instr (decodeIn (portOf w)))
  else if kindOf w = 0x03#8 then reservedZero (w.extractLsb' 4 20) (.instr (decodeIrq (w.extractLsb' 0 4)))
  else if kindOf w = 0x04#8 then reservedZero (operandsOf w) (.instr .inta)
  else if kindOf w = 0x05#8 then
    reservedZero (w.extractLsb' 9 15) (.instr (.kbcPush (if w.getLsbD 8 then .aux else .kbd) (lowByteOf w)))
  else if kindOf w = 0x10#8 then reservedZero (highByteOf w) (.instr (.remap (midByteOf w) (lowByteOf w)))
  else if kindOf w = 0x11#8 then reservedZero (portOf w) (.instr (.ack (lowByteOf w)))
  else if kindOf w = 0x12#8 then reservedZero (highByteOf w) (.instr (.program (w.extractLsb' 0 16)))
  else if kindOf w = 0x13#8 then reservedZero (operandsOf w) (.instr .drain)
  else if kindOf w = 0x14#8 then reservedZero (highByteOf w) (.instr (.accept (midByteOf w) (lowByteOf w)))
  else if kindOf w = 0x15#8 then reservedZero (operandsOf w) (.instr .clockAdvance)
  else if kindOf w = 0x16#8 then
    .instr (.onEvent (w.extractLsb' 22 2) (w.extractLsb' 20 2) (w.extractLsb' 0 20))
  else if kindOf w = 0x20#8 then reservedZero (operandsOf w) (.instr .packetComplete)
  else if kindOf w = 0x21#8 then
    reservedZero (w.extractLsb' 3 21) (decodeButtonUpdate (w.extractLsb' 0 2) (w.getLsbD 2))
  else .invalid .unlistedKind

/-! The encoder. -/

/-- A word from its kind and its 24 operand bits (R110). -/
def mkWord (kind : Byte) (operands : BitVec 24) : Word := kind ++ operands

/-- `out p, v` (R111). -/
def outWord (p : Port) (v : Byte) : Word := mkWord 0x01#8 (p ++ v)

/-- `in p` (R111). -/
def inWord (p : Port) : Word := mkWord 0x02#8 (p ++ 0#8)

/-- The button field's value (R111: 0 Left, 1 Right, 2 Middle). -/
def Button.code : Button → BitVec 2
  | .left => 0#2
  | .right => 1#2
  | .middle => 2#2

/-- The kind field's value (R111: 0 Click, 1 DoubleClick, 2 Release). -/
def Kind.code : Kind → BitVec 2
  | .click => 0#2
  | .doubleClick => 1#2
  | .release => 2#2

/-- The source bit's value (R111: 0 KBD, 1 AUX). -/
def Src.code : Src → BitVec 1
  | .kbd => 0#1
  | .aux => 1#1

/-- The word that spells a transaction (R111). -/
def encode : Instr → Word
  | .outPicMIcw1 => outWord Config.portMasterEven 0x11#8
  | .outPicSIcw1 => outWord Config.portSlaveEven 0x11#8
  | .outPicMIcw2 v | .outPicMIcw3 v | .outPicMIcw4 v | .outPicMOcw1 v => outWord Config.portMasterOdd v
  | .outPicSIcw2 v | .outPicSIcw3 v | .outPicSIcw4 v | .outPicSOcw1 v => outWord Config.portSlaveOdd v
  | .outPicMEoi => outWord Config.portMasterEven 0x20#8
  | .outPicSEoi => outWord Config.portSlaveEven 0x20#8
  | .outPicMEvenOther data => outWord Config.portMasterEven data
  | .outPicSEvenOther data => outWord Config.portSlaveEven data
  | .inPicMIrr => inWord Config.portMasterEven
  | .inPicSIrr => inWord Config.portSlaveEven
  | .inPicMImr => inWord Config.portMasterOdd
  | .inPicSImr => inWord Config.portSlaveOdd
  | .outPitCtrl => outWord Config.portPitCtrl 0x34#8
  | .outPitCtrlOther data => outWord Config.portPitCtrl data
  | .outPitData byte => outWord Config.portPitData byte
  | .inPitData => inWord Config.portPitData
  | .inPitCtrl => inWord Config.portPitCtrl
  | .outPitCh1 data => outWord Config.portPitCh1 data
  | .outPitCh2 data => outWord Config.portPitCh2 data
  | .inPitCh1 => inWord Config.portPitCh1
  | .inPitCh2 => inWord Config.portPitCh2
  | .inKbcStatus => inWord Config.portKbcStatus
  | .inKbcData => inWord Config.portKbcData
  | .outKbcData data => outWord Config.portKbcData data
  | .outKbcCmd data => outWord Config.portKbcStatus data
  | .outIoWait data => outWord Config.portIoWait data
  | .inIoWait => inWord Config.portIoWait
  | .outUnmapped port data => outWord port data
  | .inUnmapped port => inWord port
  | .irq2 => mkWord 0x03#8 (0#20 ++ 2#4)
  | .irq line => mkWord 0x03#8 (0#20 ++ line)
  | .inta => mkWord 0x04#8 0#24
  | .kbcPush src byte => mkWord 0x05#8 (0#15 ++ src.code ++ byte)
  | .remap masterOffset slaveOffset => mkWord 0x10#8 (0#8 ++ masterOffset ++ slaveOffset)
  | .ack vector => mkWord 0x11#8 (0#16 ++ vector)
  | .program divisor => mkWord 0x12#8 (0#8 ++ divisor)
  | .drain => mkWord 0x13#8 0#24
  | .accept status data => mkWord 0x14#8 (0#8 ++ status ++ data)
  | .clockAdvance => mkWord 0x15#8 0#24
  | .onEvent button kind callback => mkWord 0x16#8 (button ++ kind ++ callback)
  | .packetComplete => mkWord 0x20#8 0#24
  | .buttonUpdate button raw => mkWord 0x21#8 (0#21 ++ BitVec.ofBool raw ++ button.code)

/-- The `init` states under which a word is read as this transaction: an odd-port write is tied to its controller's
`init`, every other transaction to none (R122; the opcode table's "when M.init=…"). -/
def Instr.readUnder (mi si : Init) : Instr → Bool
  | .outPicMIcw2 _ => mi == .icw2
  | .outPicMIcw3 _ => mi == .icw3
  | .outPicMIcw4 _ => mi == .icw4
  | .outPicMOcw1 _ => mi == .ready
  | .outPicSIcw2 _ => si == .icw2
  | .outPicSIcw3 _ => si == .icw3
  | .outPicSIcw4 _ => si == .icw4
  | .outPicSOcw1 _ => si == .ready
  | .outPicMIcw1 | .outPicSIcw1 | .outPicMEoi | .outPicSEoi | .outPicMEvenOther _ | .outPicSEvenOther _
  | .inPicMIrr | .inPicSIrr | .inPicMImr | .inPicSImr | .outPitCtrl | .outPitCtrlOther _ | .outPitData _
  | .inPitData | .inPitCtrl | .outPitCh1 _ | .outPitCh2 _ | .inPitCh1 | .inPitCh2 | .inKbcStatus | .inKbcData
  | .outKbcData _ | .outKbcCmd _ | .outIoWait _ | .inIoWait | .outUnmapped _ _ | .inUnmapped _ | .irq2 | .irq _
  | .inta | .kbcPush _ _ | .remap _ _ | .ack _ | .program _ | .drain | .accept _ _ | .clockAdvance
  | .onEvent _ _ _ | .packetComplete | .buttonUpdate _ _ => true

/-- The instruction the decoder reads from a table word with both controllers READY, as they are at reset (R37). An
odd-port write is therefore read as OCW1: the rows for ICW2, ICW3 and ICW4 spell the same words and are read as such only
while the controller's `init` expects them (R122). Log entry 6. -/
def decodeTableWord (nbits w : Nat) : Option Instr :=
  if nbits ≤ 32 && w < 2 ^ 32 then
    match decode .ready .ready (BitVec.ofNat 32 w) with
    | .instr i => some i
    | .invalid _ => none
  else none

end Sys2Proof
end

