-- ==== Sys2Proof/Machine/State.lean ====
section
/-! DEFINITION. The state of the block (10_state.md) as plain data, and the state after block reset (R340). The last five
fields are the model's own: what the agents are about to do, and what they were answered. -/

namespace Sys2Proof.Machine

/-! U1 (R34 to R37). -/

/-- One interrupt controller. -/
structure Pic where
  /-- latched and not yet acknowledged requests (R34) -/
  irr : Byte
  /-- lines in service (R34) -/
  isr : Byte
  /-- masked lines (R35) -/
  imr : Byte
  /-- the vector base, bits [2:0] zero (R36) -/
  base : Byte
  /-- the initialisation word expected next (R37) -/
  init : Init
  deriving DecidableEq, Repr

/-! U2 (R40 to R42). -/

/-- The timer's access mode: no control word since reset, or low byte then high byte (R40). -/
inductive AccessMode where
  | unset | lohi
  deriving DecidableEq, Repr

/-- The timer's byte flip-flop: which byte the next data write supplies (R40). -/
inductive Flip where
  | low | high
  deriving DecidableEq, Repr

/-- Timer channel 0. -/
structure Pit where
  mode : BitVec 3
  rw : AccessMode
  flip : Flip
  lo : Byte
  reload : BitVec 16
  armed : Bool
  deriving DecidableEq, Repr

/-! U5 (R43) and the timestamps (R14). -/

/-- A timestamp, also the clock's own value: 64-bit seconds and a tick below `P_TPS`. -/
structure Timestamp where
  sec : BitVec 64
  tick : Nat
  deriving DecidableEq, Repr

/-- `epoch` is `(0, 0)` (R14). -/
def Timestamp.epoch : Timestamp := ⟨0#64, 0⟩

/-! U3 (R44, R45). -/

/-- The packet cycle buffer and its position. -/
structure Asm where
  buf0 : Byte
  buf1 : Byte
  buf2 : Byte
  pos : BitVec 2
  deriving DecidableEq, Repr

/-! U4 (R46 to R48). -/

/-- A button's state (R46): written by every packet, read by no rule. -/
inductive BtnState where
  | clicked | released
  deriving DecidableEq, Repr

/-- A button record (R46). -/
structure Btn where
  state : BtnState
  lastUpdate : Timestamp
  lastFresh : Timestamp
  deriving DecidableEq, Repr

/-- One value for each button. -/
structure PerButton (α : Type) where
  left : α
  right : α
  middle : α
  deriving DecidableEq, Repr

/-- The value of button `b`. -/
def PerButton.get {α : Type} (p : PerButton α) : Button → α
  | .left => p.left
  | .right => p.right
  | .middle => p.middle

/-- The same values with button `b`'s replaced. -/
def PerButton.set {α : Type} (p : PerButton α) (b : Button) (x : α) : PerButton α :=
  match b with
  | .left => { p with left := x }
  | .right => { p with right := x }
  | .middle => { p with middle := x }

/-- One value for each event kind. -/
structure PerKind (α : Type) where
  click : α
  doubleClick : α
  release : α
  deriving DecidableEq, Repr

/-- The value of event kind `k`. -/
def PerKind.get {α : Type} (p : PerKind α) : Kind → α
  | .click => p.click
  | .doubleClick => p.doubleClick
  | .release => p.release

/-- The same values with event kind `k`'s replaced. -/
def PerKind.set {α : Type} (p : PerKind α) (k : Kind) (x : α) : PerKind α :=
  match k with
  | .click => { p with click := x }
  | .doubleClick => { p with doubleClick := x }
  | .release => { p with release := x }

/-! The outputs (R60 to R62, R66). -/

/-- A packet (R60). -/
structure Packet where
  dx : Int
  dy : Int
  left : Bool
  right : Bool
  middle : Bool
  t : Timestamp
  deriving DecidableEq, Repr

/-- The packet's raw bit for a button. -/
def Packet.raw (p : Packet) : Button → Bool
  | .left => p.left
  | .right => p.right
  | .middle => p.middle

/-- An entry of the event output (R61). -/
structure Event where
  button : Button
  kind : Kind
  t : Timestamp
  cbs : List CallbackId
  deriving DecidableEq, Repr

/-- An entry of the diagnostic output (R62, R300). -/
inductive Diag where
  | packetOverflowDropped (b0 b1 b2 : Byte)
  | badCyclePosition (pos : BitVec 2) (d : Byte)
  deriving DecidableEq, Repr

/-- The reasons a transaction is refused for: the closed list of R301. A refused transaction is no stop of the machine: it
sets the refused mark and the run goes on (R13, R63). -/
inductive Reason where
  | unadmittedICW1 | unadmittedICW3 | unadmittedICW4 | eoiDuringInit | unadmittedEvenPortWrite | cascadeLineRaise
  | badRemapOffsets | unadmittedControlWord | dataBeforeControlWord | timerReadOrOtherChannel | divisorOutOfRange
  | unmappedPort | wideAccess | badOnField
  deriving DecidableEq, Repr

/-! What the agents do, and what they are answered. -/

/-- One entry of the total order of transactions (R82) still to come. -/
inductive Input where
  /-- a transaction, by its word (R110) -/
  | word (w : Word)
  /-- a 16-bit or 32-bit access to a port, which no word spells (R75) -/
  | wide (p : Port)
  /-- the CPU returns from a handler that did not write its end-of-interrupt (R157, R353): the CPU's step, which no word
  spells (log entry 4) -/
  | handlerReturn
  deriving DecidableEq, Repr

/-- A step of DEV, PIT-OUT or KBC: the only steps that may fall between a macro operation's port transactions (R8, R81). -/
inductive DevStep where
  /-- an edge on an IRQ line (R150) -/
  | raise (line : BitVec 4)
  /-- a byte arrives at the 8042 (R223) -/
  | push (src : Src) (byte : Byte)
  deriving DecidableEq, Repr

/-- A handler the CPU is running (R8, R309). Its `ack` is its last transaction, and `ack` is exactly its port writes (R121):
so the handler runs until it has written every end-of-interrupt its vector asks for (log entry 4). -/
structure Handler where
  /-- the vector the acknowledge cycle returned (R152) -/
  vector : Byte
  /-- the end-of-interrupt to the slave is still to be written: only for a vector of the slave (R154) -/
  owesSlave : Bool
  /-- the end-of-interrupt to the master is still to be written (R154) -/
  owesMaster : Bool
  deriving DecidableEq, Repr

/-- An entry of the trace: a transaction the block performed or refused, with what it answered (R116's `->`). -/
inductive Entry where
  /-- `out p, v` -/
  | out (p : Port) (v : Byte)
  /-- `in p -> v` -/
  | inp (p : Port) (v : Byte)
  /-- `irq n` -/
  | irq (line : BitVec 4)
  /-- `kbc.push src, b` -/
  | push (src : Src) (byte : Byte)
  /-- `inta -> v` -/
  | inta (vector : Byte)
  /-- the handler of this vector ends (R309) -/
  | handlerEnd (vector : Byte)
  /-- a refused transaction, with its reason (R301) -/
  | refused (r : Reason)
  /-- a word that spells no transaction (R117, I21) -/
  | invalid (w : Word)
  deriving DecidableEq, Repr

/-- The whole state. -/
structure State where
  /-- the named parameters (R10); written by no transaction -/
  par : Params
  /-- U1, controller M (R34 to R37) -/
  master : Pic
  /-- U1, controller S (R34 to R37) -/
  slave : Pic
  /-- U2 (R40 to R42) -/
  pit : Pit
  /-- U5 (R43) -/
  clk : Timestamp
  /-- U3 (R44, R45) -/
  asm : Asm
  /-- U4, the button records (R46, R47) -/
  btn : PerButton Btn
  /-- U4, the callback registry (R48) -/
  cb : PerButton (PerKind (List CallbackId))
  /-- the packet output (R66) -/
  pktlog : List Packet
  /-- the event output (R61) -/
  evlog : List Event
  /-- the diagnostic output (R62) -/
  diag : List Diag
  /-- the refused mark (R63) -/
  refused : Bool
  /-- the external 8042's queue, head first (R49) -/
  kbcQ : List (Byte × Src)
  /-- the external CPU: the handler it is running, if any, during which it takes no acknowledge cycle (R8, R152, R308) -/
  handler : Option Handler
  /-- model's own: the transactions still to come, in the total order of R82 -/
  input : List Input
  /-- model's own: the k-th entry is what the devices do before the k-th port transaction that a macro operation makes
  from now on (R81) -/
  inside : List (List DevStep)
  /-- model's own: what the devices do before every such transaction after the list `inside`, for ever. A byte pushed here
  is what R229's fairness assumption rules out (log entry 12) -/
  insideEver : List DevStep
  /-- model's own: how many free values have been drawn (log entry 2) -/
  draws : Nat
  /-- model's own: what was performed and answered, oldest first (R82, R116) -/
  trace : List Entry
  deriving DecidableEq, Repr

/-- A fault stops the machine. The block has none: it "raises no synchronous exception and never stops" (R300). -/
inductive Fault where
  deriving DecidableEq, Repr

/-- A refusal stops the model. No meaning gives one: what the spec calls refused is a mark in the state (R13, R63). -/
inductive Refusal where
  /-- raised by an arm of exec whose instruction has no meaning yet; safe. No arm raises it now. -/
  | notModelled (mnemonic : String)
  deriving DecidableEq, Repr

/-- What the spec leaves unspecified or to the outside at block reset: the timer's flip-flop and low byte (R41), the cycle
buffer (R44) and the 8042's queue (R341, R342). -/
structure Launch where
  pitFlip : Flip
  pitLo : Byte
  buf0 : Byte
  buf1 : Byte
  buf2 : Byte
  kbcQ : List (Byte × Src)
  deriving DecidableEq, Repr

/-- The launch of the model's one reset state: zeros, and R342's premise 1, an empty queue. DESIGN CHOICE: log entry 3. -/
def Launch.zero : Launch := ⟨.low, 0#8, 0#8, 0#8, 0#8, []⟩

/-- A controller at block reset (R34 to R37): nothing latched, nothing in service, READY; mask and base are parameters. -/
def Pic.atReset (imr base : Byte) : Pic := ⟨0#8, 0#8, imr, base, .ready⟩

/-- A button record at block reset (R47). -/
def Btn.atReset : Btn := ⟨.released, .epoch, .epoch⟩

/-- The callback lists of one button at block reset (R48). -/
def noCallbacks : PerKind (List CallbackId) := ⟨[], [], []⟩

/-- The state after block reset (R31, R340), for any parameters and any launch. -/
def State.resetWith (p : Params) (l : Launch) : State where
  par := p
  master := .atReset p.imrM0 p.baseM0
  slave := .atReset p.imrS0 p.baseS0
  pit := ⟨p.pitMode0, .unset, l.pitFlip, l.pitLo, p.pitReload0, p.pitArmed0⟩
  clk := .epoch
  asm := ⟨l.buf0, l.buf1, l.buf2, 0#2⟩
  btn := ⟨.atReset, .atReset, .atReset⟩
  cb := ⟨noCallbacks, noCallbacks, noCallbacks⟩
  pktlog := []
  evlog := []
  diag := []
  refused := false
  kbcQ := l.kbcQ
  handler := none
  input := []
  inside := []
  insideEver := []
  draws := 0
  trace := []

/-- The machine right after reset: R340's values, with the parameters of log entry 1 and the launch of log entry 3. -/
def State.reset : State := .resetWith .illustrative .zero

/-- What a step or a meaning answers. -/
abbrev Result := Host.Outcome State Fault Refusal

/-- Controller `c`. -/
def State.pic (s : State) : Ctl → Pic
  | .master => s.master
  | .slave => s.slave

/-- The state with controller `c` replaced. -/
def State.setPic (s : State) (c : Ctl) (p : Pic) : State :=
  match c with
  | .master => { s with master := p }
  | .slave => { s with slave := p }

end Sys2Proof.Machine
end

