-- ==== Sys2Proof/Machine/Operands.lean ====
section
/-! DEFINITION. The operand forms (30_encoding.md): controllers and their ports, IRQ lines, button and kind fields, the
admitted remap offsets, the assembly of vectors, divisors and deltas. -/

namespace Sys2Proof.Machine

/-- A controller's even port (R71). -/
def evenPort : Ctl → Port
  | .master => Config.portMasterEven
  | .slave => Config.portSlaveEven

/-- A controller's odd port (R71). -/
def oddPort : Ctl → Port
  | .master => Config.portMasterOdd
  | .slave => Config.portSlaveOdd

/-- The byte with bit `i` set and no other. -/
def bit (i : Nat) : Byte := 1#8 <<< i

/-- `v[i] <- 1` (R13). -/
def setBit (v : Byte) (i : Nat) : Byte := v ||| bit i

/-- `v[i] <- 0` (R13). -/
def clearBit (v : Byte) (i : Nat) : Byte := v &&& ~~~bit i

/-- `lowest(v)`: the index of the least significant set bit (R13). Every use first checks that `v ≠ 0`; the 7 that the
last branch gives for 0 is never used. -/
def lowest (v : Byte) : Nat :=
  if v.getLsbD 0 then 0
  else if v.getLsbD 1 then 1
  else if v.getLsbD 2 then 2
  else if v.getLsbD 3 then 3
  else if v.getLsbD 4 then 4
  else if v.getLsbD 5 then 5
  else if v.getLsbD 6 then 6
  else 7

/-- The controller IRQ `n` belongs to: master for n < 8, slave for n ≥ 8 (R9, R34). -/
def lineCtl (n : BitVec 4) : Ctl := if n.toNat < 8 then .master else .slave

/-- The line of its controller that IRQ `n` is (R34). -/
def lineIdx (n : BitVec 4) : Nat := n.toNat % 8

/-- Base assembly: ICW2 keeps bits [7:3] (R115). -/
def baseOf (v : Byte) : Byte := v &&& 0xF8#8

/-- Vector assembly: `c.base | i` (R112). -/
def vectorOf (base : Byte) (i : Nat) : Byte := base ||| BitVec.ofNat 8 i

/-- `remap` admits offsets that are multiples of 8, at least 32 and different (R153). -/
def offsetsAdmitted (mo so : Byte) : Bool :=
  mo.toNat % 8 == 0 && so.toNat % 8 == 0 && 32 ≤ mo.toNat && 32 ≤ so.toNat && mo != so

/-- `V` is one of the eight vectors from `base` on (R154). -/
def inRange (base v : Byte) : Bool := base.toNat ≤ v.toNat && v.toNat < base.toNat + 8

/-- A divisor's low byte, written first (R73, R113). -/
def divisorLow (d : BitVec 16) : Byte := d.extractLsb' 0 8

/-- A divisor's high byte, written second (R73, R113). -/
def divisorHigh (d : BitVec 16) : Byte := d.extractLsb' 8 8

/-- `reload = {hi, lo}` (R113, R193). -/
def reloadOf (hi lo : Byte) : BitVec 16 := hi ++ lo

/-- `int8(b)`: the integer a byte denotes as two's complement (R12). -/
def int8 (b : Byte) : Int := b.toInt

/-- `on`'s button field: 0 Left, 1 Right, 2 Middle; 3 is no button (R111, R118). -/
def buttonOfField (f : BitVec 2) : Option Button :=
  if f = 0#2 then some .left else if f = 1#2 then some .right else if f = 2#2 then some .middle else none

/-- `on`'s kind field: 0 Click, 1 DoubleClick, 2 Release; 3 is no kind (R111, R118). -/
def kindOfField (f : BitVec 2) : Option Kind :=
  if f = 0#2 then some .click else if f = 1#2 then some .doubleClick else if f = 2#2 then some .release else none

/-- Packet byte 0's button masks: 0x01 left, `RIGHT_MASK` 0x02, `MIDDLE_MASK` 0x04 (R109, R227). -/
def buttonMask : Button → Byte
  | .left => 0x01#8
  | .right => 0x02#8
  | .middle => 0x04#8

/-- The 18 port writes of `remap` after it has read the masks `m1` and `m2`, in order (R121). -/
def remapWrites (mo so m1 m2 : Byte) : List (Port × Byte) :=
  [(Config.portMasterEven, 0x11#8), (Config.portIoWait, 0x00#8),
   (Config.portSlaveEven, 0x11#8), (Config.portIoWait, 0x00#8),
   (Config.portMasterOdd, mo), (Config.portIoWait, 0x00#8),
   (Config.portSlaveOdd, so), (Config.portIoWait, 0x00#8),
   (Config.portMasterOdd, 0x04#8), (Config.portIoWait, 0x00#8),
   (Config.portSlaveOdd, 0x02#8), (Config.portIoWait, 0x00#8),
   (Config.portMasterOdd, 0x01#8), (Config.portIoWait, 0x00#8),
   (Config.portSlaveOdd, 0x01#8), (Config.portIoWait, 0x00#8),
   (Config.portMasterOdd, m1), (Config.portSlaveOdd, m2)]

/-- The port writes of `ack`, for the bases `mb` and `sb`: the master's end-of-interrupt for one of its vectors, the
slave's and then the master's for one of the slave's, none otherwise (R121, R154). -/
def ackWrites (mb sb v : Byte) : List (Port × Byte) :=
  if inRange mb v then [(Config.portMasterEven, 0x20#8)]
  else if inRange sb v then [(Config.portSlaveEven, 0x20#8), (Config.portMasterEven, 0x20#8)]
  else []

/-- The three port writes of `program` (R121, R195). -/
def programWrites (d : BitVec 16) : List (Port × Byte) :=
  [(Config.portPitCtrl, 0x34#8), (Config.portPitData, divisorLow d), (Config.portPitData, divisorHigh d)]

end Sys2Proof.Machine
end

