-- ==== Sys2Proof/Machine/Flags.lean ====
section
/-! DEFINITION. The block has no status flags or condition codes (R33). This file holds what other machines' flag files
hold: the conditions computed from the state. They are the request and output functions of the controller pair (R140), the
8042's status byte (R221), the overflow test (R226), the double-click window (R14, R260). -/

namespace Sys2Proof.Machine

/-! U1 (R140). -/

/-- `lowmask(k)`: bits 0..k set (R140). -/
def lowmask (k : Nat) : Byte := bit (k + 1) - 1#8

/-- An in-service line of equal or higher priority than `k` (R140). -/
def blocked (isr : Byte) (k : Nat) : Bool := isr &&& lowmask k != 0#8

/-- `req_S` (R140). -/
def reqS (s : State) : Byte := s.slave.irr &&& ~~~s.slave.imr

/-- `slave_int`: the slave's output, which is the master's line 2 (R39, R140). -/
def slaveInt (s : State) : Bool :=
  s.slave.init == .ready && reqS s != 0#8 && !blocked s.slave.isr (lowest (reqS s))

/-- `req_M`: the master's unmasked latched requests other than line 2, and the slave's output on line 2 (R140). -/
def reqM (s : State) : Byte :=
  (s.master.irr &&& ~~~s.master.imr &&& ~~~0x04#8)
    ||| (if slaveInt s && !s.master.imr.getLsbD 2 then 0x04#8 else 0x00#8)

/-- `int_out`: the block's interrupt output to the CPU (R140). -/
def intOut (s : State) : Bool :=
  s.master.init == .ready && reqM s != 0#8 && !blocked s.master.isr (lowest (reqM s))

/-- What an even-port read of a controller returns: IRR, with the slave's output as the master's bit 2 (R148). -/
def irrView (s : State) : Ctl → Byte
  | .master => (s.master.irr &&& ~~~0x04#8) ||| (if slaveInt s then 0x04#8 else 0x00#8)
  | .slave => s.slave.irr

/-! The 8042's status byte (R108, R221). -/

/-- `v` with the bits of `m` set or cleared. -/
def putMask (v m : Byte) (b : Bool) : Byte := if b then v ||| m else v &&& ~~~m

/-- The status byte, from the queue and a free byte `d` for the bits the spec leaves open (R221). -/
def kbcStatus (auxMask : Byte) (q : List (Byte × Src)) (d : Byte) : Byte :=
  match q with
  | [] => putMask d 0x01#8 false
  | (_, src) :: _ => putMask (putMask d 0x01#8 true) auxMask (src == .aux)

/-- The aux bit of a status byte: the available byte comes from the mouse (R108, R224). -/
def auxOf (auxMask st : Byte) : Bool := st &&& auxMask != 0#8

/-! U3 and U4. -/

/-- Either of the two high overflow bits of packet byte 0 (R109, R226). -/
def overflowed (b0 : Byte) : Bool := b0 &&& 0xC0#8 != 0#8

/-- `(buf[0] & mask) != 0` for a button's mask (R227). -/
def buttonBit (b0 : Byte) (b : Button) : Bool := b0 &&& buttonMask b != 0#8

/-- `ticks(t)` (R14). -/
def ticks (tps : Nat) (t : Timestamp) : Nat := t.sec.toNat * tps + t.tick

/-- `t - f ≤ 0.5 s`, exactly, in unbounded integers: `2 × (ticks(t) − ticks(f)) ≤ P_TPS` (R14, R260). -/
def withinWindow (tps : Nat) (t f : Timestamp) : Bool :=
  decide (2 * ((ticks tps t : Int) - (ticks tps f : Int)) ≤ (tps : Int))

end Sys2Proof.Machine
end

