-- ==== Sys2Proof/Machine/Ops.lean ====
section
/-! DEFINITION. The named operations over the state. Every meaning is one of these, and none of them stops: a refused
transaction sets a mark (R13, R63) and a diagnostic condition appends an entry (R62). Delivering an interrupt (R152) and
the end-of-interrupt, the block's return from it (R146, R314), are one shared operation each. -/

namespace Sys2Proof.Machine

/-! The outputs and the marks (R13). -/

/-- Appends to the trace. -/
def record (e : Entry) (s : State) : State := { s with trace := s.trace ++ [e] }

/-- `refuse <Reason>`: sets the refused mark and changes nothing else of the block (R13, R63, R301). -/
def refuse (r : Reason) (s : State) : State := record (.refused r) { s with refused := true }

/-- `raise <Condition>(info)`: appends a diagnostic entry (R13, R62, R300). -/
def raiseDiag (d : Diag) (s : State) : State := { s with diag := s.diag ++ [d] }

/-- `emit Event(b, k, t, cb[b][k])`: one event with the callback list as it stands (R13, R61, R261). -/
def emit (b : Button) (k : Kind) (t : Timestamp) (s : State) : State :=
  { s with evlog := s.evlog ++ [⟨b, k, t, (s.cb.get b).get k⟩] }

/-- The next free byte (log entry 2). -/
def drawn (s : State) : Byte := Config.freeByte s.draws

/-- Counts a draw, so that the next one is another free value (log entry 2). -/
def countDraw (s : State) : State := { s with draws := s.draws + 1 }

/-- A word that spells no transaction: marked refused, nothing else (R117, I21; log entry 7). -/
def invalidWord (w : Word) (s : State) : State := record (.invalid w) { s with refused := true }

/-! The handler the CPU is running (R8, R309; log entry 4). -/

/-- The acknowledge cycle's vector `v` starts its handler, which owes an end-of-interrupt to the master and, for a vector of
the slave, one to the slave (R154, R309). -/
def startHandler (v : Byte) (ofSlave : Bool) (s : State) : State :=
  record (.inta v) { s with handler := some ⟨v, ofSlave, true⟩ }

/-- The handler ends and the CPU returns: from now on it may take the next acknowledge cycle (R309). -/
def endHandler (s : State) : State :=
  match s.handler with
  | some h => record (.handlerEnd h.vector) { s with handler := none }
  | none => s

/-- Controller `c`'s end-of-interrupt was written: the running handler ends if it owes no other (R121, R154, R309). -/
def serviced (c : Ctl) (s : State) : State :=
  match s.handler, c with
  | some ⟨v, true, _⟩, .master => { s with handler := some ⟨v, true, false⟩ }
  | some ⟨v, _, true⟩, .slave => { s with handler := some ⟨v, false, true⟩ }
  | _, _ => endHandler s

/-! U1, port writes (40_pic.md section 2). -/

/-- ICW1 (R141). -/
def icw1 (c : Ctl) (v : Byte) (s : State) : State :=
  if v ≠ 0x11#8 then refuse .unadmittedICW1 s
  else record (.out (evenPort c) v) (s.setPic c { s.pic c with imr := 0x00#8, init := .icw2 })

/-- ICW2 (R142). -/
def icw2 (c : Ctl) (v : Byte) (s : State) : State :=
  record (.out (oddPort c) v) (s.setPic c { s.pic c with base := baseOf v, init := .icw3 })

/-- The only ICW3 each controller admits (R103). -/
def icw3Admitted : Ctl → Byte
  | .master => 0x04#8
  | .slave => 0x02#8

/-- ICW3 (R143). -/
def icw3 (c : Ctl) (v : Byte) (s : State) : State :=
  if v ≠ icw3Admitted c then refuse .unadmittedICW3 s
  else record (.out (oddPort c) v) (s.setPic c { s.pic c with init := .icw4 })

/-- ICW4 (R144). -/
def icw4 (c : Ctl) (v : Byte) (s : State) : State :=
  if v ≠ 0x01#8 then refuse .unadmittedICW4 s
  else record (.out (oddPort c) v) (s.setPic c { s.pic c with init := .ready })

/-- OCW1: write the mask register (R145). -/
def ocw1 (c : Ctl) (v : Byte) (s : State) : State :=
  record (.out (oddPort c) v) (s.setPic c { s.pic c with imr := v })

/-- What the non-specific end-of-interrupt leaves in service: all but the highest-priority line (R146). -/
def isrAfterEoi (isr : Byte) : Byte := if isr ≠ 0x00#8 then clearBit isr (lowest isr) else isr

/-- OCW2, the non-specific end-of-interrupt (R146): the block's return from an interrupt (R314). -/
def eoi (c : Ctl) (s : State) : State :=
  if (s.pic c).init ≠ .ready then refuse .eoiDuringInit s
  else
    serviced c (record (.out (evenPort c) 0x20#8) (s.setPic c { s.pic c with isr := isrAfterEoi (s.pic c).isr }))

/-- Any other even-port write is refused: an ICW1 variant by R141's reason, another OCW2 and every OCW3 by R147's
(R147, R301). -/
def evenOther (v : Byte) (s : State) : State :=
  if v.getLsbD 4 then refuse .unadmittedICW1 s else refuse .unadmittedEvenPortWrite s

/-- An even-port write (R122). -/
def evenWrite (c : Ctl) (v : Byte) (s : State) : State :=
  if v = 0x11#8 then icw1 c v s else if v = 0x20#8 then eoi c s else evenOther v s

/-- An odd-port write, by what the controller's `init` expects (R122). -/
def oddWrite (c : Ctl) (v : Byte) (s : State) : State :=
  match (s.pic c).init with
  | .icw2 => icw2 c v s
  | .icw3 => icw3 c v s
  | .icw4 => icw4 c v s
  | .ready => ocw1 c v s

/-! U1, port reads (R148, R149). -/

/-- Reads the request register (R148). -/
def readIrr (c : Ctl) (s : State) : State := record (.inp (evenPort c) (irrView s c)) s

/-- Reads the mask register (R149). -/
def readImr (c : Ctl) (s : State) : State := record (.inp (oddPort c) (s.pic c).imr) s

/-! U1, line input and acknowledge cycle (R150 to R152, R158). -/

/-- RAISE: latches an edge on IRQ line `n`; line 2 is refused (R150, R151). -/
def raiseLine (n : BitVec 4) (s : State) : State :=
  if n = 2#4 then refuse .cascadeLineRaise s
  else
    record (.irq n)
      (s.setPic (lineCtl n) { s.pic (lineCtl n) with irr := setBit (s.pic (lineCtl n)).irr (lineIdx n) })

/-- The delivery of the slave's highest-priority request through master line 2 (R152). -/
def deliverSlave (s : State) : State :=
  let j := lowest (reqS s)
  startHandler (vectorOf s.slave.base j) true
    { s with
      master := { s.master with isr := setBit s.master.isr 2 }
      slave := { s.slave with isr := setBit s.slave.isr j, irr := clearBit s.slave.irr j } }

/-- The delivery of master line `n`, not the cascade (R152). -/
def deliverMaster (n : Nat) (s : State) : State :=
  startHandler (vectorOf s.master.base n) false
    { s with master := { s.master with isr := setBit s.master.isr n, irr := clearBit s.master.irr n } }

/-- Delivering an interrupt: the highest-priority request moves from IRR to ISR, and its vector is returned (R152). -/
def deliver (s : State) : State :=
  if lowest (reqM s) = 2 then deliverSlave s else deliverMaster (lowest (reqM s)) s

/-- A spurious acknowledge (R158): the master's line-7 vector with no change, or, where R158 allows it too, the slave's
with master line 2 in service. Which of the two is free (log entry 2). -/
def spurious (s : State) : State :=
  if Config.freeSpuriousFromSlave s.draws && s.master.init == .ready && !s.master.imr.getLsbD 2 then
    startHandler (s.slave.base ||| 7#8) true
      (countDraw { s with master := { s.master with isr := setBit s.master.isr 2 } })
  else startHandler (s.master.base ||| 7#8) false (countDraw s)

/-- INTA (R152, R158). While a handler runs (R8), and while `int_out` is false and `P_SPURIOUS` is false, the CPU has no step
to take, and nothing happens (I24; log entry 9). -/
def acknowledge (s : State) : State :=
  if s.handler.isSome then s
  else if intOut s then deliver s
  else if s.par.spurious then spurious s
  else s

/-! U2 (41_pit_clock.md section 1). -/

/-- A write of the control word port (R191, R192). -/
def pitCtrl (v : Byte) (s : State) : State :=
  if v ≠ 0x34#8 then refuse .unadmittedControlWord s
  else
    record (.out Config.portPitCtrl v)
      { s with pit := { s.pit with mode := 2#3, rw := .lohi, flip := .low, armed := false } }

/-- A count byte under low-byte-then-high-byte access (R193). -/
def pitCount (v : Byte) (p : Pit) : Pit :=
  match p.flip with
  | .low => { p with lo := v, flip := .high }
  | .high => { p with reload := reloadOf v p.lo, flip := .low, armed := true }

/-- A write of the count byte port (R193). -/
def pitData (v : Byte) (s : State) : State :=
  match s.pit.rw with
  | .unset => refuse .dataBeforeControlWord s
  | .lohi => record (.out Config.portPitData v) { s with pit := pitCount v s.pit }

/-- A timer read, or any access to channels 1 and 2 (R194). -/
def pitRefused (s : State) : State := refuse .timerReadOrOtherChannel s

/-! U5 (R199, R200). -/

/-- One clock tick with carry (R200). -/
def nextTick (tps : Nat) (c : Timestamp) : Timestamp :=
  if c.tick + 1 = tps then ⟨c.sec + 1#64, 0⟩ else ⟨c.sec, c.tick + 1⟩

/-- CLOCK_ADVANCE (R200). -/
def advanceClock (s : State) : State := { s with clk := nextTick s.par.tps s.clk }

/-! The 8042 (42_ps2_assembler.md section 1). -/

/-- KBC_STATUS: reads port 0x64 (R221). -/
def readKbcStatus (s : State) : State :=
  record (.inp Config.portKbcStatus (kbcStatus s.par.auxMask s.kbcQ (drawn s))) (countDraw s)

/-- KBC_DATA: reads port 0x60, removing the head byte; an empty queue gives a free byte (R222). -/
def readKbcData (s : State) : State :=
  match s.kbcQ with
  | (b, _) :: q => record (.inp Config.portKbcData b) { s with kbcQ := q }
  | [] => record (.inp Config.portKbcData (drawn s)) (countDraw s)

/-- The IRQ line of a byte's source: 12 for the mouse, 1 for the keyboard (R223). -/
def srcLine : Src → BitVec 4
  | .aux => 12#4
  | .kbd => 1#4

/-- KBC_PUSH: a byte arrives and its source's line is raised, in one step (R223). -/
def kbcPush (src : Src) (b : Byte) (s : State) : State :=
  raiseLine (srcLine src) (record (.push src b) { s with kbcQ := s.kbcQ ++ [(b, src)] })

/-- A write passed to the external 8042: no block state and no queue entry changes (R230). -/
def kbcWrite (p : Port) (v : Byte) (s : State) : State := record (.out p v) s

/-- A write of the delay port: no block state changes (R119). -/
def ioWait (v : Byte) (s : State) : State := record (.out Config.portIoWait v) s

/-- A transaction on a port outside R71, or a read of the delay port (R118, R301). -/
def unmapped (s : State) : State := refuse .unmappedPort s

/-- A 16-bit or 32-bit access: refused for its width on a port of R71 (R75), as any access is on the timer's channels 1 and 2
(R194) and on every other port (R118). -/
def wideAccess (p : Port) (s : State) : State :=
  if p ∈ Config.portMap then refuse .wideAccess s
  else if p = Config.portPitCh1 ∨ p = Config.portPitCh2 then pitRefused s
  else unmapped s

/-! U4 (43_gesture_fsm.md). -/

/-- A button record with what every packet writes: the level sampled, and the packet's time (R260). -/
def sampled (x : Bool) (t : Timestamp) (r : Btn) : Btn :=
  { r with state := if x then .clicked else .released, lastUpdate := t }

/-- BUTTON_UPDATE (R260). -/
def updateButton (b : Button) (x : Bool) (t : Timestamp) (s : State) : State :=
  let r := s.btn.get b
  if x && withinWindow s.par.tps t r.lastFresh then
    emit b .doubleClick t { s with btn := s.btn.set b { sampled x t r with lastFresh := .epoch } }
  else if x then
    emit b .click t { s with btn := s.btn.set b { sampled x t r with lastFresh := t } }
  else
    emit b .release t { s with btn := s.btn.set b (sampled x t r) }

/-- DISPATCH: the three buttons in the order Left, Right, Middle (R262). -/
def dispatch (p : Packet) (s : State) : State :=
  updateButton .middle p.middle p.t (updateButton .right p.right p.t (updateButton .left p.left p.t s))

/-- ON: appends a callback; a field of 3 is refused (R264, R118). -/
def registerCallback (button kind : BitVec 2) (c : CallbackId) (s : State) : State :=
  match buttonOfField button, kindOfField kind with
  | some b, some k => { s with cb := s.cb.set b ((s.cb.get b).set k (((s.cb.get b).get k) ++ [c])) }
  | _, _ => refuse .badOnField s

/-! U3 (42_ps2_assembler.md section 2). -/

/-- DECODE: the packet of three bytes at time `t` (R227). -/
def decodePacket (b0 b1 b2 : Byte) (t : Timestamp) : Packet where
  dx := int8 b1
  dy := int8 b2
  left := buttonBit b0 .left
  right := buttonBit b0 .right
  middle := buttonBit b0 .middle
  t := t

/-- A packet that passed the overflow check: to the packet output, then to U4 (R226, R238). -/
def handOver (p : Packet) (s : State) : State := dispatch p { s with pktlog := s.pktlog ++ [p] }

/-- PACKET_COMPLETE (R226). -/
def completePacket (s : State) : State :=
  if overflowed s.asm.buf0 then raiseDiag (.packetOverflowDropped s.asm.buf0 s.asm.buf1 s.asm.buf2) s
  else handOver (decodePacket s.asm.buf0 s.asm.buf1 s.asm.buf2 s.clk) s

/-- A mouse byte at the current position (R224, and R225 for position 3). -/
def acceptAux (d : Byte) (s : State) : State :=
  if s.asm.pos = 0#2 then { s with asm := { s.asm with buf0 := d, pos := 1#2 } }
  else if s.asm.pos = 1#2 then { s with asm := { s.asm with buf1 := d, pos := 2#2 } }
  else if s.asm.pos = 2#2 then completePacket { s with asm := { s.asm with buf2 := d, pos := 0#2 } }
  else raiseDiag (.badCyclePosition s.asm.pos d) s

/-- ACCEPT, with the aux bit of the status byte already read off: a keyboard byte is skipped and lost (R224). -/
def acceptByte (aux : Bool) (d : Byte) (s : State) : State := if aux then acceptAux d s else s

/-! The port map, and the macro operations as sequences of port transactions (R121). -/

/-- `out p, v` (R71). -/
def outPort (p : Port) (v : Byte) (s : State) : State :=
  if p = Config.portMasterEven then evenWrite .master v s
  else if p = Config.portMasterOdd then oddWrite .master v s
  else if p = Config.portSlaveEven then evenWrite .slave v s
  else if p = Config.portSlaveOdd then oddWrite .slave v s
  else if p = Config.portPitData then pitData v s
  else if p = Config.portPitCh1 then pitRefused s
  else if p = Config.portPitCh2 then pitRefused s
  else if p = Config.portPitCtrl then pitCtrl v s
  else if p = Config.portKbcData then kbcWrite p v s
  else if p = Config.portKbcStatus then kbcWrite p v s
  else if p = Config.portIoWait then ioWait v s
  else unmapped s

/-- A device's step (R150, R223). -/
def devStep (s : State) : DevStep → State
  | .raise n => raiseLine n s
  | .push src b => kbcPush src b s

/-- What the devices do before the next port transaction of a macro operation (R81). -/
def landDevices (s : State) : State :=
  (s.inside.headD s.insideEver).foldl devStep { s with inside := s.inside.tail }

/-- A macro's next port write, after what the devices do before it. -/
def macroOut (s : State) (pv : Port × Byte) : State := outPort pv.1 pv.2 (landDevices s)

/-- A macro's port writes, in order (R121). -/
def macroOuts (l : List (Port × Byte)) (s : State) : State := l.foldl macroOut s

/-- REMAP (R153): reads both masks, then makes the 18 port writes of R121. -/
def remapPair (mo so : Byte) (s : State) : State :=
  if offsetsAdmitted mo so then
    let s1 := landDevices s
    let s2 := landDevices (readImr .master s1)
    macroOuts (remapWrites mo so s1.master.imr s2.slave.imr) (readImr .slave s2)
  else refuse .badRemapOffsets s

/-- ACK (R154). -/
def ackVector (v : Byte) (s : State) : State := macroOuts (ackWrites s.master.base s.slave.base v) s

/-- PROGRAM (R195). -/
def programDivisor (d : BitVec 16) (s : State) : State :=
  if d = 0#16 then refuse .divisorOutOfRange s else macroOuts (programWrites d) s

/-- A device step that brings a byte. -/
def isPush : DevStep → Bool
  | .push _ _ => true
  | .raise _ => false

/-- The bytes the devices are still to push in the turns that `inside` lists. -/
def pushesToCome (s : State) : Nat := (s.inside.map fun batch => batch.countP isPush).sum

/-- One pass of the drain loop, and whether the loop goes on (R228). The aux bit of the status byte that showed a byte
available is whether the head of the queue comes from the mouse (R221), whatever the free bits of that byte. -/
def drainPass (s : State) : State × Bool :=
  let s1 := landDevices s
  match s1.kbcQ with
  | [] => (readKbcStatus s1, false)
  | (_, src) :: _ =>
    let s2 := landDevices (readKbcStatus s1)
    match s2.kbcQ with
    | [] => (s2, false)
    | (d, _) :: _ => (acceptByte (src == .aux) d (readKbcData s2), true)

/-- The drain loop (R228), if it ends within `fuel` passes. -/
def drainLoop : Nat → State → Option State
  | 0, _ => none
  | fuel + 1, s =>
    match drainPass s with
    | (t, true) => drainLoop fuel t
    | (t, false) => some t

/-- The loop goes on: the drain is still the next transaction to come. -/
def drainAgain (s : State) : State := { s with input := .word (encode .drain) :: s.input }

/-- DRAIN (R228): the loop to its end, a status read that finds the queue empty (R229). The fuel is one more than the bytes
there are or are listed to come, so the loop outlasts it only where the devices push for ever: the drain is then an
infinite execution, the hang that R229 admits, of which this is one pass (log entry 12). -/
def drainQueue (s : State) : State :=
  (drainLoop (s.kbcQ.length + pushesToCome s + 1) s).getD (drainAgain (drainPass s).1)

end Sys2Proof.Machine
end

