-- ==== Sys2Proof/Machine/Agents.lean ====
section
/-! DEFINITION. The steps of the agents outside the host: IRQ edges, the acknowledge cycle, a byte arriving at the 8042 (R150 to R152, R158, R223). -/

namespace Sys2Proof.Machine

/-- IRQ2: an edge on the cascade line is refused (R151). -/
def execIrq2 (s : State) : Result := .next (raiseLine 2#4 s)

/-- IRQ: a device edge on an IRQ line (R150). -/
def execIrq (line : BitVec 4) (s : State) : Result := .next (raiseLine line s)

/-- INTA: the interrupt-acknowledge cycle (R152, R158). -/
def execInta (s : State) : Result := .next (acknowledge s)

/-- KBC_PUSH: a byte arrives at the 8042 (R223). -/
def execKbcPush (src : Src) (byte : Byte) (s : State) : Result := .next (kbcPush src byte s)

end Sys2Proof.Machine
end

