-- ==== Sys2Proof/Machine/Clock.lean ====
section
/-! DEFINITION. The clock accumulator (U5): 41_pit_clock.md R200. -/

namespace Sys2Proof.Machine

/-- CLOCK_ADVANCE: one clock tick (R200). -/
def execClockAdvance (s : State) : Result := .next (advanceClock s)

end Sys2Proof.Machine
end

