-- ==== Sys2Proof/Machine/Gesture.lean ====
section
/-! DEFINITION. The gesture state machine (U4) and the callback registry: 43_gesture_fsm.md R260, R264. -/

namespace Sys2Proof.Machine

/-- ON: register a callback (R264). -/
def execOnEvent (button : BitVec 2) (kind : BitVec 2) (callback : CallbackId) (s : State) : Result := .next (registerCallback button kind callback s)

/-- BUTTON_UPDATE: one button's step. The word has no timestamp: it is the packet's, which is the clock's value (R227, R260; log entry 10). -/
def execButtonUpdate (button : Button) (raw : Bool) (s : State) : Result := .next (updateButton button raw s.clk s)

end Sys2Proof.Machine
end

