-- ==== Sys2Proof/Machine/Kbc.lean ====
section
/-! DEFINITION. The external 8042 as the block sees it: its two ports and the arrival of a byte (42_ps2_assembler.md R221 to R223, R230). -/

namespace Sys2Proof.Machine

/-- IN_KBC_STATUS: the status byte (R221). -/
def execInKbcStatus (s : State) : Result := .next (readKbcStatus s)

/-- IN_KBC_DATA: the data byte, which the read consumes (R222). -/
def execInKbcData (s : State) : Result := .next (readKbcData s)

/-- OUT_KBC_DATA: passed to the 8042, no block effect (R230). -/
def execOutKbcData (data : Byte) (s : State) : Result := .next (kbcWrite Config.portKbcData data s)

/-- OUT_KBC_CMD: passed to the 8042, no block effect (R230). -/
def execOutKbcCmd (data : Byte) (s : State) : Result := .next (kbcWrite Config.portKbcStatus data s)

end Sys2Proof.Machine
end

