-- ==== Sys2Proof/Machine/Macros.lean ====
section
/-! DEFINITION. The macro operations, the source's contract as sequences of port transactions (30_encoding.md R121, R153, R154, R195, R228). -/

namespace Sys2Proof.Machine

/-- REMAP: remap both controllers (R153). -/
def execRemap (masterOffset : Byte) (slaveOffset : Byte) (s : State) : Result := .next (remapPair masterOffset slaveOffset s)

/-- ACK: end-of-interrupt by vector (R154). -/
def execAck (vector : Byte) (s : State) : Result := .next (ackVector vector s)

/-- PROGRAM: program the timer divisor (R195). -/
def execProgram (divisor : BitVec 16) (s : State) : Result := .next (programDivisor divisor s)

/-- DRAIN: the mouse handler's drain loop (R228). -/
def execDrain (s : State) : Result := .next (drainQueue s)

end Sys2Proof.Machine
end

