-- ==== Sys2Proof/Machine/Mouse.lean ====
section
/-! DEFINITION. The packet shift buffer (U3): 42_ps2_assembler.md R224 to R227, R238. -/

namespace Sys2Proof.Machine

/-- ACCEPT: one drained byte, classified by its status byte (R224, R225). -/
def execAccept (status : Byte) (data : Byte) (s : State) : Result := .next (acceptByte (auxOf s.par.auxMask status) data s)

/-- PACKET_COMPLETE: check the assembled packet and pass it on (R226). -/
def execPacketComplete (s : State) : Result := .next (completePacket s)

end Sys2Proof.Machine
end

