-- ==== Sys2Proof/Machine/Pic.lean ====
section
/-! DEFINITION. The controller pair (U1): port writes and reads (40_pic.md R141 to R149). -/

namespace Sys2Proof.Machine

/-- OUT_PIC_M_ICW1: the initialisation word ICW1 to the master (R141). -/
def execOutPicMIcw1 (s : State) : Result := .next (icw1 .master 0x11#8 s)

/-- OUT_PIC_S_ICW1: the initialisation word ICW1 to the slave (R141). -/
def execOutPicSIcw1 (s : State) : Result := .next (icw1 .slave 0x11#8 s)

/-- OUT_PIC_M_ICW2: the master's vector base (R142). -/
def execOutPicMIcw2 (v : Byte) (s : State) : Result := .next (icw2 .master v s)

/-- OUT_PIC_S_ICW2: the slave's vector base (R142). -/
def execOutPicSIcw2 (v : Byte) (s : State) : Result := .next (icw2 .slave v s)

/-- OUT_PIC_M_ICW3: the master's cascade wiring (R143). -/
def execOutPicMIcw3 (v : Byte) (s : State) : Result := .next (icw3 .master v s)

/-- OUT_PIC_S_ICW3: the slave's cascade wiring (R143). -/
def execOutPicSIcw3 (v : Byte) (s : State) : Result := .next (icw3 .slave v s)

/-- OUT_PIC_M_ICW4: the master's mode (R144). -/
def execOutPicMIcw4 (v : Byte) (s : State) : Result := .next (icw4 .master v s)

/-- OUT_PIC_S_ICW4: the slave's mode (R144). -/
def execOutPicSIcw4 (v : Byte) (s : State) : Result := .next (icw4 .slave v s)

/-- OUT_PIC_M_OCW1: the master's mask register (R145). -/
def execOutPicMOcw1 (mask : Byte) (s : State) : Result := .next (ocw1 .master mask s)

/-- OUT_PIC_S_OCW1: the slave's mask register (R145). -/
def execOutPicSOcw1 (mask : Byte) (s : State) : Result := .next (ocw1 .slave mask s)

/-- OUT_PIC_M_EOI: the non-specific end-of-interrupt to the master (R146). -/
def execOutPicMEoi (s : State) : Result := .next (eoi .master s)

/-- OUT_PIC_S_EOI: the non-specific end-of-interrupt to the slave (R146). -/
def execOutPicSEoi (s : State) : Result := .next (eoi .slave s)

/-- OUT_PIC_M_EVEN_OTHER: any other even-port write to the master is refused (R147). -/
def execOutPicMEvenOther (data : Byte) (s : State) : Result := .next (evenOther data s)

/-- OUT_PIC_S_EVEN_OTHER: any other even-port write to the slave is refused (R147). -/
def execOutPicSEvenOther (data : Byte) (s : State) : Result := .next (evenOther data s)

/-- IN_PIC_M_IRR: the master's request register (R148). -/
def execInPicMIrr (s : State) : Result := .next (readIrr .master s)

/-- IN_PIC_S_IRR: the slave's request register (R148). -/
def execInPicSIrr (s : State) : Result := .next (readIrr .slave s)

/-- IN_PIC_M_IMR: the master's mask register (R149). -/
def execInPicMImr (s : State) : Result := .next (readImr .master s)

/-- IN_PIC_S_IMR: the slave's mask register (R149). -/
def execInPicSImr (s : State) : Result := .next (readImr .slave s)

end Sys2Proof.Machine
end

