-- ==== Sys2Proof/Machine/Pit.lean ====
section
/-! DEFINITION. The interval timer programmer (U2): 41_pit_clock.md R191 to R194. -/

namespace Sys2Proof.Machine

/-- OUT_PIT_CTRL: the channel 0 control word 0x34 (R191). -/
def execOutPitCtrl (s : State) : Result := .next (pitCtrl 0x34#8 s)

/-- OUT_PIT_CTRL_OTHER: any other control word is refused (R192). -/
def execOutPitCtrlOther (data : Byte) (s : State) : Result := .next (pitCtrl data s)

/-- OUT_PIT_DATA: a count byte (R193). -/
def execOutPitData (byte : Byte) (s : State) : Result := .next (pitData byte s)

/-- IN_PIT_DATA: a read of the count is refused (R194). -/
def execInPitData (s : State) : Result := .next (pitRefused s)

/-- IN_PIT_CTRL: a read of the command register is refused (R194). -/
def execInPitCtrl (s : State) : Result := .next (pitRefused s)

/-- OUT_PIT_CH1: channel 1 is refused, whatever the data (R194). -/
def execOutPitCh1 (_data : Byte) (s : State) : Result := .next (pitRefused s)

/-- OUT_PIT_CH2: channel 2 is refused, whatever the data (R194). -/
def execOutPitCh2 (_data : Byte) (s : State) : Result := .next (pitRefused s)

/-- IN_PIT_CH1: a read of channel 1 is refused (R194). -/
def execInPitCh1 (s : State) : Result := .next (pitRefused s)

/-- IN_PIT_CH2: a read of channel 2 is refused (R194). -/
def execInPitCh2 (s : State) : Result := .next (pitRefused s)

end Sys2Proof.Machine
end

