-- ==== Sys2Proof/Machine/Ports.lean ====
section
/-! DEFINITION. The delay port and every port outside the block (30_encoding.md R118, R119). -/

namespace Sys2Proof.Machine

/-- OUT_IO_WAIT: the I/O delay changes nothing in the block (R119). -/
def execOutIoWait (data : Byte) (s : State) : Result := .next (ioWait data s)

/-- IN_IO_WAIT: a read of the delay port is refused (R118). -/
def execInIoWait (s : State) : Result := .next (unmapped s)

/-- OUT_UNMAPPED: a write of any other port is refused, whatever the data (R118). -/
def execOutUnmapped (_port : Port) (_data : Byte) (s : State) : Result := .next (unmapped s)

/-- IN_UNMAPPED: a read of any other port is refused (R118). -/
def execInUnmapped (_port : Port) (s : State) : Result := .next (unmapped s)

end Sys2Proof.Machine
end

