-- ==== Sys2Proof/Machine/Dispatch.lean ====
section
/-! DEFINITION. The dispatch: one arm per constructor of Instr, in the order of spec/opcode_table.json. -/

namespace Sys2Proof.Machine

def exec (i : Instr) (s : State) : Host.Outcome State Fault Refusal :=
  match i with
  | .outPicMIcw1 => Sys2Proof.Machine.execOutPicMIcw1 s
  | .outPicSIcw1 => Sys2Proof.Machine.execOutPicSIcw1 s
  | .outPicMIcw2 v => Sys2Proof.Machine.execOutPicMIcw2 v s
  | .outPicSIcw2 v => Sys2Proof.Machine.execOutPicSIcw2 v s
  | .outPicMIcw3 v => Sys2Proof.Machine.execOutPicMIcw3 v s
  | .outPicSIcw3 v => Sys2Proof.Machine.execOutPicSIcw3 v s
  | .outPicMIcw4 v => Sys2Proof.Machine.execOutPicMIcw4 v s
  | .outPicSIcw4 v => Sys2Proof.Machine.execOutPicSIcw4 v s
  | .outPicMOcw1 mask => Sys2Proof.Machine.execOutPicMOcw1 mask s
  | .outPicSOcw1 mask => Sys2Proof.Machine.execOutPicSOcw1 mask s
  | .outPicMEoi => Sys2Proof.Machine.execOutPicMEoi s
  | .outPicSEoi => Sys2Proof.Machine.execOutPicSEoi s
  | .outPicMEvenOther data => Sys2Proof.Machine.execOutPicMEvenOther data s
  | .outPicSEvenOther data => Sys2Proof.Machine.execOutPicSEvenOther data s
  | .inPicMIrr => Sys2Proof.Machine.execInPicMIrr s
  | .inPicSIrr => Sys2Proof.Machine.execInPicSIrr s
  | .inPicMImr => Sys2Proof.Machine.execInPicMImr s
  | .inPicSImr => Sys2Proof.Machine.execInPicSImr s
  | .outPitCtrl => Sys2Proof.Machine.execOutPitCtrl s
  | .outPitCtrlOther data => Sys2Proof.Machine.execOutPitCtrlOther data s
  | .outPitData byte => Sys2Proof.Machine.execOutPitData byte s
  | .inPitData => Sys2Proof.Machine.execInPitData s
  | .inPitCtrl => Sys2Proof.Machine.execInPitCtrl s
  | .outPitCh1 data => Sys2Proof.Machine.execOutPitCh1 data s
  | .outPitCh2 data => Sys2Proof.Machine.execOutPitCh2 data s
  | .inPitCh1 => Sys2Proof.Machine.execInPitCh1 s
  | .inPitCh2 => Sys2Proof.Machine.execInPitCh2 s
  | .inKbcStatus => Sys2Proof.Machine.execInKbcStatus s
  | .inKbcData => Sys2Proof.Machine.execInKbcData s
  | .outKbcData data => Sys2Proof.Machine.execOutKbcData data s
  | .outKbcCmd data => Sys2Proof.Machine.execOutKbcCmd data s
  | .outIoWait data => Sys2Proof.Machine.execOutIoWait data s
  | .inIoWait => Sys2Proof.Machine.execInIoWait s
  | .outUnmapped port data => Sys2Proof.Machine.execOutUnmapped port data s
  | .inUnmapped port => Sys2Proof.Machine.execInUnmapped port s
  | .irq2 => Sys2Proof.Machine.execIrq2 s
  | .irq line => Sys2Proof.Machine.execIrq line s
  | .inta => Sys2Proof.Machine.execInta s
  | .kbcPush src byte => Sys2Proof.Machine.execKbcPush src byte s
  | .remap masterOffset slaveOffset => Sys2Proof.Machine.execRemap masterOffset slaveOffset s
  | .ack vector => Sys2Proof.Machine.execAck vector s
  | .program divisor => Sys2Proof.Machine.execProgram divisor s
  | .drain => Sys2Proof.Machine.execDrain s
  | .accept status data => Sys2Proof.Machine.execAccept status data s
  | .clockAdvance => Sys2Proof.Machine.execClockAdvance s
  | .onEvent button kind callback => Sys2Proof.Machine.execOnEvent button kind callback s
  | .packetComplete => Sys2Proof.Machine.execPacketComplete s
  | .buttonUpdate button raw => Sys2Proof.Machine.execButtonUpdate button raw s

end Sys2Proof.Machine
end

