-- ==== Sys2Proof/Machine/Step.lean ====
section
/-! DEFINITION. One step: the next entry of the total order of transactions (R82) is performed whole (R6). The block has no
program counter and fetches nothing (R32, R85): the agents bring their transactions, and State.input is the order in which
they do. -/

namespace Sys2Proof.Machine

/-- Reads a word under the state's two `init` values (R122) and runs it; a word that spells no transaction is marked (R117,
I21; log entry 7). -/
def runWord (w : Word) (s : State) : Result :=
  match decode s.master.init s.slave.init w with
  | .instr i => exec i s
  | .invalid _ => .next (invalidWord w s)

/-- One step. With no transaction to come, no agent moves and the state stays (log entry 5). -/
def step (s : State) : Host.Outcome State Fault Refusal :=
  match s.input with
  | [] => .next s
  | .word w :: rest => runWord w { s with input := rest }
  | .wide p :: rest => .next (wideAccess p { s with input := rest })
  | .handlerReturn :: rest => .next (endHandler { s with input := rest })

/-- The state with the word `w` as its next transaction, before those already to come. No other field changes, so the word
is read under the state's own `init` values (R122): in a state whose controllers are READY, as after reset, that is
decodeTableWord's reading (log entry 6). -/
def State.withFetchWord (s : State) (_nbits w : Nat) : State :=
  { s with input := .word (BitVec.ofNat 32 w) :: s.input }

end Sys2Proof.Machine
end

