-- ==== Sys2Proof/Safety.lean ====
section
/-! DEFINITION. What claims are stated in: the invariant of the block, a good state (R63), runs of steps and of transactions,
the handlers and the boot sequence the source describes (R311 to R313, R344), and the launch premises (R342). None of it
restricts what step does. -/

namespace Sys2Proof.Machine

/-- The vector of the running handler after one more entry of the trace, from what it was before; none where the entry
starts a handler while one runs, or ends one that does not run. -/
def handlerStep : Option (Option Byte) → Entry → Option (Option Byte)
  | some none, .inta v => some (some v)
  | some (some v), .handlerEnd w => if v = w then some none else none
  | _, .inta _ => none
  | _, .handlerEnd _ => none
  | h, _ => h

/-- The vector of the handler that runs after a trace that starts with none running, if handlers do not nest in it: no
acknowledge cycle between another and the end of its handler (R8, R84, R314). -/
def handlerAfter (trace : List Entry) : Option (Option Byte) := trace.foldl handlerStep (some none)

/-- What holds at block reset and after every step. -/
structure Inv (s : State) : Prop where
  /-- bits [2:0] of the master's base are 0 (R36) -/
  masterBase : s.master.base &&& 0x07#8 = 0#8
  /-- bits [2:0] of the slave's base are 0 (R36) -/
  slaveBase : s.slave.base &&& 0x07#8 = 0#8
  /-- master line 2 is never latched (R39) -/
  cascadeNotLatched : s.master.irr.getLsbD 2 = false
  /-- the clock's tick is below `P_TPS` (R43) -/
  clockTick : s.clk.tick < s.par.tps
  /-- cycle position 3 is unreachable (R45) -/
  cyclePosition : s.asm.pos ≠ 3#2
  /-- before any control word the timer holds its reset parameters (R41) -/
  timerUnset : s.pit.rw = .unset →
    s.pit.mode = s.par.pitMode0 ∧ s.pit.reload = s.par.pitReload0 ∧ s.pit.armed = s.par.pitArmed0
  /-- after a control word the mode is 2, the only one admitted (R40, R190) -/
  timerMode : s.pit.rw = .lohi → s.pit.mode = 2#3
  /-- a button's timestamps are timestamps: their tick is below `P_TPS` (R14, R46) -/
  buttonTicks : ∀ b : Button, (s.btn.get b).lastUpdate.tick < s.par.tps ∧ (s.btn.get b).lastFresh.tick < s.par.tps
  /-- a packet's deltas are signed bytes and its timestamp is one (R60) -/
  packets : ∀ p ∈ s.pktlog, -128 ≤ p.dx ∧ p.dx ≤ 127 ∧ -128 ≤ p.dy ∧ p.dy ≤ 127 ∧ p.t.tick < s.par.tps
  /-- handlers have not nested, and the running one is the last that started (R8, R84, R308) -/
  handlersDoNotNest : handlerAfter s.trace = some (s.handler.map (·.vector))
  /-- a running handler owes an end-of-interrupt (R309) -/
  handlerOwes : ∀ h, s.handler = some h → h.owesSlave = true ∨ h.owesMaster = true

/-- A state that can be a good final state: nothing was refused (R63). -/
def Good (s : State) : Prop := s.refused = false

/-- Launch premises 1 and 3 for the lines the source's handlers serve: the 8042's queue is empty, and the timer, the
keyboard, the cascade and the mouse are unmasked in the reset masks (R342). Premise 2, a run that boots before any
acknowledge cycle, is `boots`. -/
structure LaunchPremises (p : Params) (l : Launch) : Prop where
  queueEmpty : l.kbcQ = []
  timerUnmasked : p.imrM0.getLsbD 0 = false
  keyboardUnmasked : p.imrM0.getLsbD 1 = false
  cascadeUnmasked : p.imrM0.getLsbD 2 = false
  mouseUnmasked : p.imrS0.getLsbD 4 = false

/-- Runs transactions one after another (R82), stopping at the first stop. -/
def runInstrs : List Instr → State → Result
  | [], s => .next s
  | i :: is, s =>
    match exec i s with
    | .next t => runInstrs is t
    | .fault f => .fault f
    | .refused r => .refused r

/-- The state after `n` steps. -/
def runSteps : Nat → State → Result
  | 0, s => .next s
  | n + 1, s =>
    match step s with
    | .next t => runSteps n t
    | .fault f => .fault f
    | .refused r => .refused r

/-- The devices take no step inside a macro operation from now on (R81). -/
structure Idle (s : State) : Prop where
  listed : s.inside = []
  ever : s.insideEver = []

/-- A device's step, as the transaction it is (R150, R223). -/
def DevStep.instr : DevStep → Instr
  | .raise n => .irq n
  | .push src b => .kbcPush src b

/-- The transactions `is` of a macro operation, each after what the devices do before it in `s` (R81). -/
def interleaved (s : State) (is : List Instr) : List Instr :=
  is.zipIdx.flatMap fun e => (s.inside.getD e.2 s.insideEver).map DevStep.instr ++ [e.1]

/-- `s` with the first `n` of the devices' turns inside macro operations taken out. -/
def withoutTurns (s : State) (n : Nat) : State := { s with inside := s.inside.drop n }

/-- The port writes recorded in the trace, oldest first. -/
def portWrites (s : State) : List (Port × Byte) :=
  s.trace.filterMap fun | .out p v => some (p, v) | _ => none

/-- The timer handler (R311). -/
def timerHandler : List Instr := [.inta, .clockAdvance, .ack 32#8]

/-- The mouse handler (R312). -/
def mouseHandler : List Instr := [.inta, .drain, .ack 44#8]

/-- The keyboard handler (R313). -/
def keyboardHandler : List Instr := [.inta, .inKbcData, .ack 33#8]

/-- A transaction of the mouse handshake: a read or a write of port 0x60 or 0x64 (R230, R344). -/
def handshakeStep : Instr → Bool
  | .inKbcStatus | .inKbcData | .outKbcData _ | .outKbcCmd _ => true
  | _ => false

/-- The block's part of the boot sequence up to the CPU's "enable interrupts": remap, the timer programmer, and the
handshake's transactions, which are handshake steps (R344). -/
def bootSequence (d : BitVec 16) (handshake : List Instr) : List Instr := [.remap 32#8 40#8, .program d] ++ handshake

/-- What may fall between the boot sequence's transactions: the devices' steps, and registrations at any time (R7, R344). -/
def besideBoot : Instr → Bool
  | .irq _ | .irq2 | .kbcPush _ _ | .onEvent _ _ _ => true
  | _ => false

/-- `boots boot is`: the run `is` makes the transactions of `boot`, in that order, and beside them only what may fall between
them; so no acknowledge cycle is among them. A run that starts with such an `is` keeps launch premise 2 (R342): the CPU
takes no acknowledge cycle before the boot sequence's last step. -/
def boots : List Instr → List Instr → Bool
  | [], is => is.all besideBoot
  | _ :: _, [] => false
  | b :: bs, i :: is => if i = b then boots bs is else besideBoot i && boots (b :: bs) is

end Sys2Proof.Machine
end

