-- ==== Sys2Proof/Certificates/Slice0/Obligations.lean ====
section
/-! DEFINITION. The statements for the provers. A statement of an instruction's result is written as an equation of exec's
answer, so it is also the instruction's frame (every field it does not name is unchanged) and says where it completes. The
block has no memory (R70), so no statement has a clause about bytes of memory. -/

open Sys2Proof Sys2Proof.Machine

/-! Encoding. -/

/-- R111: the word of every well-formed transaction is read back as that transaction, under every pair of `init` values
that its row allows (R122). -/
def Obligations.DecodeOfEncodeIsTheInstruction : Prop :=
  ∀ (i : Instr) (mi si : Init), i.wf = true → i.readUnder mi si = true → decode mi si (encode i) = .instr i

/-- R110, R120: a word has one meaning under each pair of `init` values: what is decoded from it is well formed, read under
those values, and spelled by that very word. -/
def Obligations.EncodeOfDecodeIsTheWord : Prop :=
  ∀ (mi si : Init) (w : Word) (i : Instr), decode mi si w = .instr i →
    encode i = w ∧ i.wf = true ∧ i.readUnder mi si = true

/-- R117: a word with an unlisted kind, or with a reserved operand bit set, is decoded to `invalid`. The list gives each
kind of R111 with the operand bits R111 leaves unassigned. -/
def Obligations.ReservedWordsAreInvalid : Prop :=
  ∀ (mi si : Init) (w : Word),
    (∀ e ∈ ([(0x01#8, 0x00000000#32), (0x02#8, 0x000000FF#32), (0x03#8, 0x00FFFFF0#32), (0x04#8, 0x00FFFFFF#32),
        (0x05#8, 0x00FFFE00#32), (0x10#8, 0x00FF0000#32), (0x11#8, 0x00FFFF00#32), (0x12#8, 0x00FF0000#32),
        (0x13#8, 0x00FFFFFF#32), (0x14#8, 0x00FF0000#32), (0x15#8, 0x00FFFFFF#32), (0x16#8, 0x00000000#32),
        (0x20#8, 0x00FFFFFF#32), (0x21#8, 0x00FFFFF8#32)] : List (Byte × Word)),
      w.extractLsb' 24 8 = e.1 → w &&& e.2 ≠ 0#32) →
    ∃ why, decode mi si w = .invalid why

/-- R110, R111: a word of a listed kind with every reserved bit 0 spells a transaction, whatever the `init` values; the one
exception, a button_update word with button field 3, is the model's choice (log entry 8). -/
def Obligations.ListedWordsAreTransactions : Prop :=
  ∀ (mi si : Init) (w : Word),
    (∃ e ∈ ([(0x01#8, 0x00000000#32), (0x02#8, 0x000000FF#32), (0x03#8, 0x00FFFFF0#32), (0x04#8, 0x00FFFFFF#32),
        (0x05#8, 0x00FFFE00#32), (0x10#8, 0x00FF0000#32), (0x11#8, 0x00FFFF00#32), (0x12#8, 0x00FF0000#32),
        (0x13#8, 0x00FFFFFF#32), (0x14#8, 0x00FF0000#32), (0x15#8, 0x00FFFFFF#32), (0x16#8, 0x00000000#32),
        (0x20#8, 0x00FFFFFF#32), (0x21#8, 0x00FFFFF8#32)] : List (Byte × Word)),
      w.extractLsb' 24 8 = e.1 ∧ w &&& e.2 = 0#32) →
    ((∃ i, decode mi si w = .instr i) ↔ w ≠ 0x21000003#32 ∧ w ≠ 0x21000007#32)

/-- R122: the reading of a word depends on the state only for an `out` to an odd controller port, where it is the word that
controller's `init` expects; an `out` to an even port is ICW1's row for 0x11, the end-of-interrupt's for 0x20, and the
refused rest's otherwise, by the data alone. -/
def Obligations.ReadingDependsOnInitOnlyAtOddPorts : Prop :=
  (∀ (mi si mi' si' : Init) (w : Word),
    ¬(w.extractLsb' 24 8 = 0x01#8 ∧ (w.extractLsb' 8 16 = 0x21#16 ∨ w.extractLsb' 8 16 = 0xA1#16)) →
    decode mi si w = decode mi' si' w) ∧
  (∀ (mi si : Init) (v : Byte),
    decode mi si (outWord 0x21#16 v) = .instr (match mi with
      | .icw2 => .outPicMIcw2 v | .icw3 => .outPicMIcw3 v | .icw4 => .outPicMIcw4 v | .ready => .outPicMOcw1 v) ∧
    decode mi si (outWord 0xA1#16 v) = .instr (match si with
      | .icw2 => .outPicSIcw2 v | .icw3 => .outPicSIcw3 v | .icw4 => .outPicSIcw4 v | .ready => .outPicSOcw1 v) ∧
    decode mi si (outWord 0x20#16 v) = .instr
      (if v = 0x11#8 then .outPicMIcw1 else if v = 0x20#8 then .outPicMEoi else .outPicMEvenOther v) ∧
    decode mi si (outWord 0xA0#16 v) = .instr
      (if v = 0x11#8 then .outPicSIcw1 else if v = 0x20#8 then .outPicSEoi else .outPicSEvenOther v))

/-- 95_test_vectors.md V-E1 to V-E18: words written out in the spec decode to the transactions it gives them. -/
def Obligations.SpecWordsDecode : Prop :=
  ∀ e ∈ ([(0x01002011#32, .outPicMIcw1), (0x0100A1EF#32, .outPicSOcw1 0xEF#8), (0x02006400#32, .inKbcStatus),
      (0x0300000C#32, .irq 12#4), (0x04000000#32, .inta), (0x05000109#32, .kbcPush .aux 0x09#8),
      (0x0500001E#32, .kbcPush .kbd 0x1E#8), (0x10002028#32, .remap 32#8 40#8), (0x1100002C#32, .ack 44#8),
      (0x12002E9C#32, .program 11932#16), (0x13000000#32, .drain), (0x14002105#32, .accept 0x21#8 0x05#8),
      (0x15000000#32, .clockAdvance), (0x16000007#32, .onEvent 0#2 0#2 7#20), (0x16600003#32, .onEvent 1#2 2#2 3#20),
      (0x16900002#32, .onEvent 2#2 1#2 2#20), (0x20000000#32, .packetComplete),
      (0x21000006#32, .buttonUpdate .middle true), (0x03000002#32, .irq2), (0x01004334#32, .outPitCtrl),
      (0x01008000#32, .outIoWait 0#8), (0x02002000#32, .inPicMIrr)] : List (Word × Instr)),
    decode .ready .ready e.1 = .instr e.2

/-! The step. -/

/-- R6, R82, R122: when the next transaction's word is read, under the state's `init` values, as `i`, the step is exec of
`i` on the state without that entry. -/
def Obligations.StepRunsTheDecodedTransaction : Prop :=
  ∀ (s : State) (w : Word) (rest : List Input) (i : Instr), s.input = .word w :: rest →
    decode s.master.init s.slave.init w = .instr i → step s = exec i { s with input := rest }

/-- What a step does when no transaction's word is read: with nothing to come the state stays (log entry 5); a word that
spells no transaction sets the refused mark (R117, I21; log entry 7); a 16-bit or 32-bit access, which stands in the order of
transactions without a word (log entry 15), is refused: for its width on a port of R71 (R75), as the timer's on its channels
1 and 2 (R194), and as unmapped on every other port (R118); and the CPU's return from a handler that wrote no
end-of-interrupt, which stands there without a word too, ends that handler (R353; log entry 4). -/
def Obligations.StepWithoutATransaction : Prop :=
  ∀ s : State,
    (s.input = [] → step s = .next s) ∧
    (∀ (w : Word) (rest : List Input) (why : Reject), s.input = .word w :: rest →
      decode s.master.init s.slave.init w = .invalid why →
      step s = .next { s with input := rest, refused := true, trace := s.trace ++ [.invalid w] }) ∧
    (∀ (p : Port) (rest : List Input), s.input = .wide p :: rest →
      step s = .next { s with input := rest, refused := true, trace := s.trace ++ [.refused
        (if p ∈ [0x20#16, 0x21#16, 0xA0#16, 0xA1#16, 0x40#16, 0x43#16, 0x60#16, 0x64#16, 0x80#16] then .wideAccess
         else if p = 0x41#16 ∨ p = 0x42#16 then .timerReadOrOtherChannel else .unmappedPort)] }) ∧
    (∀ rest : List Input, s.input = .handlerReturn :: rest →
      (s.handler = none → step s = .next { s with input := rest }) ∧
      ∀ h, s.handler = some h →
        step s = .next { s with input := rest, handler := none, trace := s.trace ++ [.handlerEnd h.vector] })

/-- R300: the block raises no synchronous exception and never stops: every state has a next state. -/
def Obligations.EveryStepHasANextState : Prop := ∀ s : State, ∃ t, step s = .next t

/-! Reset and the invariant. -/

/-- R31, R340: the values after block reset, for every value of the named parameters (R10) and of what the spec leaves
unspecified or to the outside there (the timer's flip-flop and low byte, the cycle buffer, the 8042's queue). -/
def Obligations.ResetGivesTheSpecifiedValues : Prop :=
  ∀ (p : Params) (l : Launch),
    let s := State.resetWith p l
    s.par = p ∧
    s.master = ⟨0#8, 0#8, p.imrM0, p.baseM0, .ready⟩ ∧ s.slave = ⟨0#8, 0#8, p.imrS0, p.baseS0, .ready⟩ ∧
    s.pit = ⟨p.pitMode0, .unset, l.pitFlip, l.pitLo, p.pitReload0, p.pitArmed0⟩ ∧
    s.clk = ⟨0#64, 0⟩ ∧ s.asm = ⟨l.buf0, l.buf1, l.buf2, 0#2⟩ ∧
    (∀ b, s.btn.get b = ⟨.released, ⟨0#64, 0⟩, ⟨0#64, 0⟩⟩) ∧ (∀ b k, (s.cb.get b).get k = []) ∧
    s.pktlog = [] ∧ s.evlog = [] ∧ s.diag = [] ∧ s.refused = false ∧ s.kbcQ = l.kbcQ

/-- The invariant (R8, R36, R39, R41, R43, R45, R60) holds at block reset, for every value of the parameters and of what is
unspecified, and so in the model's one reset state, whose parameters and launch are log entries 1 and 3's. -/
def Obligations.ResetSatisfiesTheInvariant : Prop :=
  (∀ (p : Params) (l : Launch), Inv (State.resetWith p l)) ∧ State.reset = State.resetWith .illustrative .zero

/-- The invariant is kept by every step from every state that has it: the bases stay multiples of 8 (R36), master line 2 is
never latched (R39), the timer's access mode and mode agree (R41, R190), the clock's tick stays below `P_TPS` (R43), cycle
position 3 stays unreached (R45), packets stay packets (R60), and handlers do not nest: between an acknowledge cycle and
the end of the handler it started there is no other (R8, R84, R89, R308, R314; where a handler ends is log entry 4). -/
def Obligations.EveryStepKeepsTheInvariant : Prop := ∀ s t : State, Inv s → step s = .next t → Inv t

/-! U1: writes and reads. -/

/-- R141: ICW1 clears the controller's mask and starts its initialisation; IRR, ISR and base stay. Any other data with bit
4 set is refused. -/
def Obligations.InitialisationWordOne : Prop :=
  ∀ (s : State) (v : Byte),
    exec .outPicMIcw1 s = .next { s with
      master := ⟨s.master.irr, s.master.isr, 0x00#8, s.master.base, .icw2⟩, trace := s.trace ++ [.out 0x20#16 0x11#8] } ∧
    exec .outPicSIcw1 s = .next { s with
      slave := ⟨s.slave.irr, s.slave.isr, 0x00#8, s.slave.base, .icw2⟩, trace := s.trace ++ [.out 0xA0#16 0x11#8] } ∧
    (v.getLsbD 4 = true → v ≠ 0x11#8 →
      exec (.outPicMEvenOther v) s =
        .next { s with refused := true, trace := s.trace ++ [.refused .unadmittedICW1] } ∧
      exec (.outPicSEvenOther v) s =
        .next { s with refused := true, trace := s.trace ++ [.refused .unadmittedICW1] })

/-- R142: ICW2 stores bits [7:3] of the data as the base, drops bits [2:0], and expects ICW3 next. That exec does so in any
`init` state, where R142 has ICW2, is the model's choice (log entry 11): the decoder reads ICW2 only there. -/
def Obligations.InitialisationWordTwo : Prop :=
  ∀ (s : State) (high : BitVec 5) (low : BitVec 3),
    exec (.outPicMIcw2 (high ++ low)) s = .next { s with
      master := ⟨s.master.irr, s.master.isr, s.master.imr, high ++ 0#3, .icw3⟩,
      trace := s.trace ++ [.out 0x21#16 (high ++ low)] } ∧
    exec (.outPicSIcw2 (high ++ low)) s = .next { s with
      slave := ⟨s.slave.irr, s.slave.isr, s.slave.imr, high ++ 0#3, .icw3⟩,
      trace := s.trace ++ [.out 0xA1#16 (high ++ low)] }

/-- R143 and R144: ICW3 admits 0x04 for the master and 0x02 for the slave and expects ICW4 next; ICW4 admits 0x01 and makes
the controller READY; any other data is refused. That exec does so in any `init` state, where the rules have ICW3 and ICW4,
is the model's choice (log entry 11): the decoder reads them only there. -/
def Obligations.InitialisationWordsThreeAndFour : Prop :=
  ∀ (s : State) (v : Byte),
    exec (.outPicMIcw3 v) s = (if v = 0x04#8
      then .next { s with master := { s.master with init := .icw4 }, trace := s.trace ++ [.out 0x21#16 0x04#8] }
      else .next { s with refused := true, trace := s.trace ++ [.refused .unadmittedICW3] }) ∧
    exec (.outPicSIcw3 v) s = (if v = 0x02#8
      then .next { s with slave := { s.slave with init := .icw4 }, trace := s.trace ++ [.out 0xA1#16 0x02#8] }
      else .next { s with refused := true, trace := s.trace ++ [.refused .unadmittedICW3] }) ∧
    exec (.outPicMIcw4 v) s = (if v = 0x01#8
      then .next { s with master := { s.master with init := .ready }, trace := s.trace ++ [.out 0x21#16 0x01#8] }
      else .next { s with refused := true, trace := s.trace ++ [.refused .unadmittedICW4] }) ∧
    exec (.outPicSIcw4 v) s = (if v = 0x01#8
      then .next { s with slave := { s.slave with init := .ready }, trace := s.trace ++ [.out 0xA1#16 0x01#8] }
      else .next { s with refused := true, trace := s.trace ++ [.refused .unadmittedICW4] })

/-- R145 and R149: OCW1 writes the mask register, and the odd-port read returns it in any `init` state, with no other change:
in particular a latched request under a newly masked line stays latched. That exec of OCW1 does the same in any `init`
state, where R145 has READY, is the model's choice (log entry 11): the decoder reads OCW1 only in READY. -/
def Obligations.MaskRegisterWriteAndRead : Prop :=
  ∀ (s : State) (v : Byte),
    exec (.outPicMOcw1 v) s =
      .next { s with master := { s.master with imr := v }, trace := s.trace ++ [.out 0x21#16 v] } ∧
    exec (.outPicSOcw1 v) s =
      .next { s with slave := { s.slave with imr := v }, trace := s.trace ++ [.out 0xA1#16 v] } ∧
    exec .inPicMImr s = .next { s with trace := s.trace ++ [.inp 0x21#16 s.master.imr] } ∧
    exec .inPicSImr s = .next { s with trace := s.trace ++ [.inp 0xA1#16 s.slave.imr] }

/-- R146: the end-of-interrupt to a READY controller clears its highest-priority in-service line (the lowest set bit; none
if nothing is in service) and changes nothing else of the block; mid-initialisation it is refused. The running handler, if
any, ends with the last end-of-interrupt that its vector asks for (R121, R154, R309; log entry 4). -/
def Obligations.EndOfInterruptClearsTheHighestLine : Prop :=
  ∀ s : State,
    (s.master.init = .ready → ∃ isr : Byte,
      let t : State := { s with master := { s.master with isr := isr }, trace := s.trace ++ [.out 0x20#16 0x20#8] }
      (s.handler = none → exec .outPicMEoi s = .next t) ∧
      (∀ v m, s.handler = some ⟨v, true, m⟩ → exec .outPicMEoi s = .next { t with handler := some ⟨v, true, false⟩ }) ∧
      (∀ v m, s.handler = some ⟨v, false, m⟩ →
        exec .outPicMEoi s = .next { t with handler := none, trace := t.trace ++ [.handlerEnd v] }) ∧
      ∀ k < 8, (isr.getLsbD k = true ↔ s.master.isr.getLsbD k = true ∧ ∃ j < k, s.master.isr.getLsbD j = true)) ∧
    (s.slave.init = .ready → ∃ isr : Byte,
      let t : State := { s with slave := { s.slave with isr := isr }, trace := s.trace ++ [.out 0xA0#16 0x20#8] }
      (s.handler = none → exec .outPicSEoi s = .next t) ∧
      (∀ v b, s.handler = some ⟨v, b, true⟩ → exec .outPicSEoi s = .next { t with handler := some ⟨v, false, true⟩ }) ∧
      (∀ v b, s.handler = some ⟨v, b, false⟩ →
        exec .outPicSEoi s = .next { t with handler := none, trace := t.trace ++ [.handlerEnd v] }) ∧
      ∀ k < 8, (isr.getLsbD k = true ↔ s.slave.isr.getLsbD k = true ∧ ∃ j < k, s.slave.isr.getLsbD j = true)) ∧
    (s.master.init ≠ .ready → exec .outPicMEoi s =
      .next { s with refused := true, trace := s.trace ++ [.refused .eoiDuringInit] }) ∧
    (s.slave.init ≠ .ready → exec .outPicSEoi s =
      .next { s with refused := true, trace := s.trace ++ [.refused .eoiDuringInit] })

/-- R147 (and R301 for the reason): an even-port write that is neither ICW1 = 0x11 nor the end-of-interrupt 0x20 leaves
every field of the controller unchanged and sets the refused mark; the reason is R141's for an ICW1 variant and R147's for
every other OCW2 and every OCW3. -/
def Obligations.OtherEvenPortWritesAreRefused : Prop :=
  ∀ (s : State) (v : Byte), v ≠ 0x11#8 → v ≠ 0x20#8 →
    let r := if v.getLsbD 4 = true then Reason.unadmittedICW1 else Reason.unadmittedEvenPortWrite
    exec (.outPicMEvenOther v) s = .next { s with refused := true, trace := s.trace ++ [.refused r] } ∧
    exec (.outPicSEvenOther v) s = .next { s with refused := true, trace := s.trace ++ [.refused r] }

/-- R148: an even-port read returns IRR, with bit 2 of the master's showing the slave's output, and changes nothing. -/
def Obligations.RequestRegisterRead : Prop :=
  ∀ s : State,
    exec .inPicSIrr s = .next { s with trace := s.trace ++ [.inp 0xA0#16 s.slave.irr] } ∧
    ∃ b : Byte, exec .inPicMIrr s = .next { s with trace := s.trace ++ [.inp 0x20#16 b] } ∧
      ∀ k < 8, b.getLsbD k = if k = 2 then slaveInt s else s.master.irr.getLsbD k

/-! U1: requests, delivery, priority. -/

/-- R140: a controller's output is a request of some unmasked line with no line of equal or higher priority in service.
The slave's is from its own latched lines, the master's from its own latched lines other than 2 and from the slave's output
on line 2; a controller that is not READY has none. -/
def Obligations.OutputIsAnUnblockedRequest : Prop :=
  ∀ s : State,
    (slaveInt s = true ↔ s.slave.init = .ready ∧ ∃ j < 8,
      s.slave.irr.getLsbD j = true ∧ s.slave.imr.getLsbD j = false ∧ ∀ i ≤ j, s.slave.isr.getLsbD i = false) ∧
    (intOut s = true ↔ s.master.init = .ready ∧ ∃ n < 8,
      (if n = 2 then slaveInt s = true else s.master.irr.getLsbD n = true) ∧ s.master.imr.getLsbD n = false ∧
      ∀ i ≤ n, s.master.isr.getLsbD i = false)

/-- R150 and R151: an edge on line n other than 2 latches its request bit, whatever the mask, the `init` state and what is
in service; an edge on line 2 is refused. -/
def Obligations.DeviceEdgeLatchesTheRequest : Prop :=
  ∀ (s : State) (n : BitVec 4),
    (n ≠ 2#4 → n.toNat < 8 → exec (.irq n) s = .next { s with
      master := { s.master with irr := s.master.irr ||| (1#8 <<< n.toNat) }, trace := s.trace ++ [.irq n] }) ∧
    (8 ≤ n.toNat → exec (.irq n) s = .next { s with
      slave := { s.slave with irr := s.slave.irr ||| (1#8 <<< (n.toNat - 8)) }, trace := s.trace ++ [.irq n] }) ∧
    exec .irq2 s = .next { s with refused := true, trace := s.trace ++ [.refused .cascadeLineRaise] }

/-- R152: while the output is asserted and no handler runs, an acknowledge cycle delivers the master's highest-priority
request n: its in-service bit is set; for n other than 2 its request bit is cleared and the vector is the master's base with
n; for n = 2 the slave's highest-priority request j moves from IRR to ISR and the vector is the slave's base with j. The
vector's handler starts (R309; log entry 4); nothing else changes. While a handler runs no acknowledge cycle is taken (R8, R308): the
entry is dropped (log entry 9). -/
def Obligations.AcknowledgeDeliversTheHighestRequest : Prop :=
  (∀ s : State, s.handler ≠ none → exec .inta s = .next s) ∧
  ∀ s : State, s.handler = none → intOut s = true →
    ∃ n < 8, (if n = 2 then slaveInt s = true else s.master.irr.getLsbD n = true) ∧ s.master.imr.getLsbD n = false ∧
      (∀ k < n, (if k = 2 then slaveInt s = true else s.master.irr.getLsbD k = true) → s.master.imr.getLsbD k = true) ∧
      (n ≠ 2 → exec .inta s = .next { s with
        master := { s.master with isr := s.master.isr ||| (1#8 <<< n), irr := s.master.irr &&& ~~~(1#8 <<< n) },
        handler := some ⟨s.master.base ||| BitVec.ofNat 8 n, false, true⟩,
        trace := s.trace ++ [.inta (s.master.base ||| BitVec.ofNat 8 n)] }) ∧
      (n = 2 → ∃ j < 8, s.slave.irr.getLsbD j = true ∧ s.slave.imr.getLsbD j = false ∧
        (∀ k < j, s.slave.irr.getLsbD k = true → s.slave.imr.getLsbD k = true) ∧
        exec .inta s = .next { s with
          master := { s.master with isr := s.master.isr ||| 0x04#8 },
          slave := { s.slave with isr := s.slave.isr ||| (1#8 <<< j), irr := s.slave.irr &&& ~~~(1#8 <<< j) },
          handler := some ⟨s.slave.base ||| BitVec.ofNat 8 j, true, true⟩,
          trace := s.trace ++ [.inta (s.slave.base ||| BitVec.ofNat 8 j)] })

/-- R158: while the output is not asserted and no handler runs, an acknowledge cycle does nothing if `P_SPURIOUS` is false (that the entry is
dropped is the model's choice, log entry 9); if it is true it returns the master's vector 7 with no change, or, only if the
master is READY with line 2 unmasked, the slave's vector 7 with master line 2 in service. The vector's handler starts (log
entry 4). -/
def Obligations.SpuriousAcknowledge : Prop :=
  ∀ s : State, s.handler = none → intOut s = false →
    (s.par.spurious = false → exec .inta s = .next s) ∧
    (s.par.spurious = true →
      exec .inta s = .next { s with
        handler := some ⟨s.master.base ||| 7#8, false, true⟩, draws := s.draws + 1,
        trace := s.trace ++ [.inta (s.master.base ||| 7#8)] } ∨
      (s.master.init = .ready ∧ s.master.imr.getLsbD 2 = false ∧
        exec .inta s = .next { s with
          master := { s.master with isr := s.master.isr ||| 0x04#8 },
          handler := some ⟨s.slave.base ||| 7#8, true, true⟩, draws := s.draws + 1,
          trace := s.trace ++ [.inta (s.slave.base ||| 7#8)] }))

/-- R155: after a remap, whatever the devices did during it and whatever transactions follow, but for another remap or ICW2,
every acknowledge cycle of a deliverable request, taken with no handler running, returns MO + n for a line n < 8 and
SO + (n − 8) for a line n ≥ 8; after `remap(32, 40)` every such vector lies in 32–47. So, of a run from block reset that
boots before any acknowledge cycle (R342's premise 2, R344, R350), every vector lies in 32–47, a spurious one too. -/
def Obligations.VectorsAfterRemap : Prop :=
  (∀ (p : Params) (l : Launch) (turns : List (List DevStep)) (ever : List DevStep) (d : BitVec 16)
    (handshake booting is : List Instr) (t : State),
    (∀ i ∈ handshake, handshakeStep i = true) → boots (bootSequence d handshake) booting = true →
    (∀ i ∈ is, (∀ v, i ≠ .outPicMIcw2 v ∧ i ≠ .outPicSIcw2 v) ∧ ∀ a b, i ≠ .remap a b) →
    runInstrs (booting ++ is) { State.resetWith p l with inside := turns, insideEver := ever } = .next t →
    ∀ v, Entry.inta v ∈ t.trace → 32 ≤ v.toNat ∧ v.toNat ≤ 47) ∧
  ∀ (s r t u : State) (mo so : Byte) (is : List Instr),
    mo.toNat % 8 = 0 → so.toNat % 8 = 0 → 32 ≤ mo.toNat → 32 ≤ so.toNat → mo ≠ so →
    exec (.remap mo so) s = .next r →
    (∀ i ∈ is, (∀ v, i ≠ .outPicMIcw2 v ∧ i ≠ .outPicSIcw2 v) ∧ ∀ a b, i ≠ .remap a b) → runInstrs is r = .next t →
    t.handler = none → intOut t = true → exec .inta t = .next u →
    ∃ v : Byte, u.trace = t.trace ++ [.inta v] ∧
      ((∃ n < 8, n ≠ 2 ∧ t.master.irr.getLsbD n = true ∧ u.master.isr.getLsbD n = true ∧ v.toNat = mo.toNat + n) ∨
        (∃ j < 8, t.slave.irr.getLsbD j = true ∧ u.slave.isr.getLsbD j = true ∧ u.master.isr.getLsbD 2 = true ∧
          v.toNat = so.toNat + j)) ∧
      (mo = 32#8 → so = 40#8 → 32 ≤ v.toNat ∧ v.toNat ≤ 47)

/-- R157: with no end-of-interrupt in a run (no EOI word and no `ack`), an in-service bit stays set for the whole run, and
no request of that line or of a line of lower priority on the same controller is delivered: it stays latched. For the
master lines 0 to 2 this reaches every line of the slave. -/
def Obligations.MissedEndOfInterruptBlocksForEver : Prop :=
  ∀ (is : List Instr) (s t : State),
    (∀ i ∈ is, i ≠ .outPicMEoi ∧ i ≠ .outPicSEoi ∧ ∀ v, i ≠ .ack v) → runInstrs is s = .next t →
    (∀ k < 8, s.master.isr.getLsbD k = true → t.master.isr.getLsbD k = true ∧
      (∀ n, k ≤ n → s.master.irr.getLsbD n = true → t.master.irr.getLsbD n = true) ∧
      (k ≤ 2 → ∀ n, s.slave.irr.getLsbD n = true → t.slave.irr.getLsbD n = true)) ∧
    (∀ k < 8, s.slave.isr.getLsbD k = true → t.slave.isr.getLsbD k = true ∧
      ∀ n, k ≤ n → s.slave.irr.getLsbD n = true → t.slave.irr.getLsbD n = true)

/-- R306: nothing clears a latched request bit except its delivery, which sets the line's in-service bit. -/
def Obligations.OnlyDeliveryClearsARequest : Prop :=
  ∀ (i : Instr) (s t : State) (k : Nat), exec i s = .next t →
    (s.master.irr.getLsbD k = true →
      t.master.irr.getLsbD k = true ∨ (i = .inta ∧ t.master.isr.getLsbD k = true)) ∧
    (s.slave.irr.getLsbD k = true →
      t.slave.irr.getLsbD k = true ∨ (i = .inta ∧ t.slave.isr.getLsbD k = true))

/-- R35 and R345: only ICW1 and OCW1 change a mask register; in particular a remap leaves both masks as they were. So the
boot sequence (R344), run from block reset with nothing beside it but device steps and registrations, leaves the reset masks;
and it leaves the bases 32 and 40, both controllers READY with nothing in service, the timer in mode 2 with the divisor,
the clock at the epoch, no packet, no event and no handler running. -/
def Obligations.MasksChangeOnlyByTheirWords : Prop :=
  (∀ (p : Params) (l : Launch) (turns : List (List DevStep)) (ever : List DevStep) (d : BitVec 16)
    (handshake booting : List Instr), d ≠ 0#16 → (∀ i ∈ handshake, handshakeStep i = true) →
    boots (bootSequence d handshake) booting = true →
    ∃ t, runInstrs booting { State.resetWith p l with inside := turns, insideEver := ever } = .next t ∧
      t.master.imr = p.imrM0 ∧ t.slave.imr = p.imrS0 ∧ t.master.base = 32#8 ∧ t.slave.base = 40#8 ∧
      t.master.init = .ready ∧ t.slave.init = .ready ∧ t.master.isr = 0#8 ∧ t.slave.isr = 0#8 ∧
      t.pit = ⟨2#3, .lohi, .low, d.extractLsb' 0 8, d, true⟩ ∧ t.clk = ⟨0#64, 0⟩ ∧ t.asm.pos = 0#2 ∧
      t.pktlog = [] ∧ t.evlog = [] ∧ t.diag = [] ∧ t.handler = none) ∧
  ∀ (i : Instr) (s t : State), exec i s = .next t →
    (t.master.imr = s.master.imr ∨ i = .outPicMIcw1 ∨ ∃ v, i = .outPicMOcw1 v) ∧
    (t.slave.imr = s.slave.imr ∨ i = .outPicSIcw1 ∨ ∃ v, i = .outPicSOcw1 v)

/-! The macro operations. -/

/-- R153 and R121: a remap with admitted offsets is its 20 port transactions, with the devices' steps between them; it
leaves the offsets as bases, both controllers READY, both masks and both ISRs as before, every latched request latched, and
every other unit unchanged (the 8042's queue may have grown). Other offsets are refused with no port transaction. -/
def Obligations.RemapNetEffect : Prop :=
  ∀ (s : State) (mo so : Byte),
    ((mo.toNat % 8 = 0 ∧ so.toNat % 8 = 0 ∧ 32 ≤ mo.toNat ∧ 32 ≤ so.toNat ∧ mo ≠ so) →
      exec (.remap mo so) s = runInstrs (interleaved s
        [.inPicMImr, .inPicSImr, .outPicMIcw1, .outIoWait 0#8, .outPicSIcw1, .outIoWait 0#8, .outPicMIcw2 mo,
         .outIoWait 0#8, .outPicSIcw2 so, .outIoWait 0#8, .outPicMIcw3 0x04#8, .outIoWait 0#8, .outPicSIcw3 0x02#8,
         .outIoWait 0#8, .outPicMIcw4 0x01#8, .outIoWait 0#8, .outPicSIcw4 0x01#8, .outIoWait 0#8,
         .outPicMOcw1 s.master.imr, .outPicSOcw1 s.slave.imr]) (withoutTurns s 20) ∧
      ∃ t : State, exec (.remap mo so) s = .next t ∧
        t.master.base = mo ∧ t.slave.base = so ∧ t.master.init = .ready ∧ t.slave.init = .ready ∧
        t.master.imr = s.master.imr ∧ t.slave.imr = s.slave.imr ∧
        t.master.isr = s.master.isr ∧ t.slave.isr = s.slave.isr ∧
        (∀ k, s.master.irr.getLsbD k = true → t.master.irr.getLsbD k = true) ∧
        (∀ k, s.slave.irr.getLsbD k = true → t.slave.irr.getLsbD k = true) ∧
        (Idle s → t.master.irr = s.master.irr ∧ t.slave.irr = s.slave.irr ∧ t.kbcQ = s.kbcQ ∧
          t.refused = s.refused) ∧
        t.par = s.par ∧ t.pit = s.pit ∧ t.clk = s.clk ∧ t.asm = s.asm ∧ t.btn = s.btn ∧ t.cb = s.cb ∧
        t.pktlog = s.pktlog ∧ t.evlog = s.evlog ∧ t.diag = s.diag ∧ t.input = s.input ∧ t.draws = s.draws ∧
        t.handler = s.handler ∧ ∃ more, t.kbcQ = s.kbcQ ++ more) ∧
    (¬(mo.toNat % 8 = 0 ∧ so.toNat % 8 = 0 ∧ 32 ≤ mo.toNat ∧ 32 ≤ so.toNat ∧ mo ≠ so) →
      exec (.remap mo so) s = .next { s with refused := true, trace := s.trace ++ [.refused .badRemapOffsets] })

/-- R154 and R156: `ack` of one of the master's eight vectors is exactly the end-of-interrupt to the master; of one of the
slave's, exactly the slave's and then the master's, with the devices' steps between them; any other vector makes no
transaction and changes nothing. With both controllers READY those are one port write and two. -/
def Obligations.AcknowledgeByVector : Prop :=
  ∀ (s : State) (v : Byte),
    (s.master.base.toNat ≤ v.toNat → v.toNat < s.master.base.toNat + 8 →
      exec (.ack v) s = runInstrs (interleaved s [.outPicMEoi]) (withoutTurns s 1) ∧
      (s.master.init = .ready → ∃ t, exec (.ack v) s = .next t ∧ portWrites t = portWrites s ++ [(0x20#16, 0x20#8)])) ∧
    (¬(s.master.base.toNat ≤ v.toNat ∧ v.toNat < s.master.base.toNat + 8) →
      s.slave.base.toNat ≤ v.toNat → v.toNat < s.slave.base.toNat + 8 →
      exec (.ack v) s = runInstrs (interleaved s [.outPicSEoi, .outPicMEoi]) (withoutTurns s 2) ∧
      (s.master.init = .ready → s.slave.init = .ready → ∃ t, exec (.ack v) s = .next t ∧
        portWrites t = portWrites s ++ [(0xA0#16, 0x20#8), (0x20#16, 0x20#8)])) ∧
    (¬(s.master.base.toNat ≤ v.toNat ∧ v.toNat < s.master.base.toNat + 8) →
      ¬(s.slave.base.toNat ≤ v.toNat ∧ v.toNat < s.slave.base.toNat + 8) → exec (.ack v) s = .next s)

/-- R314, R353: an `ack` that a mouse delivery asks for re-opens both controllers. With both READY, devices idle and only
the slave line j and master line 2 in service, `ack` of the slave's vector j leaves nothing in service, by exactly two
port writes, slave first; issued by that vector's handler it ends it (R309; log entry 4), and with no handler running it ends none. -/
def Obligations.AcknowledgeReopensBothControllers : Prop :=
  ∀ (s : State) (j : Nat), j < 8 → Idle s → s.master.init = .ready → s.slave.init = .ready →
    s.slave.base.toNat % 8 = 0 →
    ¬(s.master.base.toNat ≤ s.slave.base.toNat + j ∧ s.slave.base.toNat + j < s.master.base.toNat + 8) →
    s.master.isr = 0x04#8 → s.slave.isr = 1#8 <<< j →
    let v := s.slave.base + BitVec.ofNat 8 j
    let t : State := { s with
      master := { s.master with isr := 0#8 }, slave := { s.slave with isr := 0#8 },
      trace := s.trace ++ [.out 0xA0#16 0x20#8, .out 0x20#16 0x20#8] }
    (s.handler = none → exec (.ack v) s = .next t) ∧
    (s.handler = some ⟨v, true, true⟩ →
      exec (.ack v) s = .next { t with handler := none, trace := t.trace ++ [.handlerEnd v] })

/-- R354: the two end-of-interrupts leave the same state in either order, but for the order of the two writes themselves; and
in a slave vector's handler no acknowledge cycle can fall between them, for either controller's first leaves it running. -/
def Obligations.OrderOfTheTwoEndOfInterrupts : Prop :=
  (∀ (s t : State) (v : Byte), s.handler = some ⟨v, true, true⟩ →
    (exec .outPicSEoi s = .next t ∨ exec .outPicMEoi s = .next t) → exec .inta t = .next t) ∧
  ∀ s : State, ∃ t u, runInstrs [.outPicSEoi, .outPicMEoi] s = .next t ∧ runInstrs [.outPicMEoi, .outPicSEoi] s = .next u ∧
    { t with trace := [] } = { u with trace := [] }

/-! U2. -/

/-- R191 and R192: the control word 0x34 selects mode 2 and low-then-high access, resets the flip-flop and disarms the
channel, leaving its low byte and reload; any other control word is refused and leaves U2 unchanged. -/
def Obligations.TimerControlWord : Prop :=
  ∀ (s : State) (v : Byte),
    exec .outPitCtrl s = .next { s with
      pit := ⟨2#3, .lohi, .low, s.pit.lo, s.pit.reload, false⟩, trace := s.trace ++ [.out 0x43#16 0x34#8] } ∧
    (v ≠ 0x34#8 → exec (.outPitCtrlOther v) s =
      .next { s with refused := true, trace := s.trace ++ [.refused .unadmittedControlWord] })

/-- R193: a count byte is refused before any control word; after one, bytes alternate low and high, and the high byte
completes the count: reload is high × 256 + low and the channel is armed. -/
def Obligations.TimerCountByte : Prop :=
  ∀ (s : State) (v : Byte),
    (s.pit.rw = .unset → exec (.outPitData v) s =
      .next { s with refused := true, trace := s.trace ++ [.refused .dataBeforeControlWord] }) ∧
    (s.pit.rw = .lohi → s.pit.flip = .low → exec (.outPitData v) s = .next { s with
      pit := { s.pit with lo := v, flip := .high }, trace := s.trace ++ [.out 0x40#16 v] }) ∧
    (s.pit.rw = .lohi → s.pit.flip = .high → ∃ r : BitVec 16, r.toNat = v.toNat * 256 + s.pit.lo.toNat ∧
      exec (.outPitData v) s = .next { s with
        pit := { s.pit with reload := r, flip := .low, armed := true }, trace := s.trace ++ [.out 0x40#16 v] })

/-- R195 and R121: `program(d)` for d ≠ 0 is the control word, the low byte and the high byte, with the devices' steps between
them, and leaves mode 2, low-then-high access, reload d, armed; d = 0 is refused with no port write. -/
def Obligations.ProgramLoadsTheDivisor : Prop :=
  ∀ (s : State) (d : BitVec 16),
    (d ≠ 0#16 →
      exec (.program d) s = runInstrs (interleaved s
        [.outPitCtrl, .outPitData (d.extractLsb' 0 8), .outPitData (d.extractLsb' 8 8)]) (withoutTurns s 3) ∧
      ∃ t, exec (.program d) s = .next t ∧ t.pit = ⟨2#3, .lohi, .low, d.extractLsb' 0 8, d, true⟩ ∧
        portWrites t = portWrites s ++
          [(0x43#16, 0x34#8), (0x40#16, d.extractLsb' 0 8), (0x40#16, d.extractLsb' 8 8)]) ∧
    (d = 0#16 → exec (.program d) s =
      .next { s with refused := true, trace := s.trace ++ [.refused .divisorOutOfRange] })

/-- R355: a second control word between the two count bytes abandons the first; the channel keeps its old reload and
stays disarmed until the high byte arrives, and a third byte starts a new count with the reload still the old one. -/
def Obligations.ControlWordRestartsTheCount : Prop :=
  ∀ (s : State) (a lo hi next : Byte),
    ∃ t u r, runInstrs [.outPitCtrl, .outPitData a, .outPitCtrl, .outPitData lo] s = .next t ∧
      t.pit = ⟨2#3, .lohi, .high, lo, s.pit.reload, false⟩ ∧
      runInstrs [.outPitData hi, .outPitData next] t = .next u ∧ u.pit = ⟨2#3, .lohi, .high, next, r, true⟩ ∧
      r.toNat = hi.toNat * 256 + lo.toNat

/-! U5. -/

/-- R200: one tick with a carry into the seconds at `P_TPS` ticks, modulo 2^64; nothing else changes. -/
def Obligations.ClockAdvancesOneTick : Prop :=
  ∀ s : State,
    (s.clk.tick + 1 = s.par.tps → ∃ sec : BitVec 64, sec.toNat = (s.clk.sec.toNat + 1) % 2 ^ 64 ∧
      exec .clockAdvance s = .next { s with clk := ⟨sec, 0⟩ }) ∧
    (s.clk.tick + 1 ≠ s.par.tps → exec .clockAdvance s = .next { s with clk := ⟨s.clk.sec, s.clk.tick + 1⟩ })

/-- R201: from every state whose tick is below `P_TPS`, a `clock_advance` short of the wrap of the seconds raises `ticks(now)`
by exactly 1, and every other transaction keeps it. So over any run from block reset too short to wrap the seconds,
`ticks(now)` is the number of `clock_advance` transactions in it. -/
def Obligations.ClockCountsItsAdvances : Prop :=
  (∀ (i : Instr) (s t : State), s.clk.tick < s.par.tps → exec i s = .next t →
    s.clk.sec.toNat * s.par.tps + s.clk.tick + 1 < 2 ^ 64 * s.par.tps →
    t.clk.tick < t.par.tps ∧ t.par = s.par ∧
    t.clk.sec.toNat * t.par.tps + t.clk.tick =
      s.clk.sec.toNat * s.par.tps + s.clk.tick + if i = .clockAdvance then 1 else 0) ∧
  ∀ (is : List Instr) (p : Params) (l : Launch) (t : State), runInstrs is (State.resetWith p l) = .next t →
    is.count .clockAdvance < 2 ^ 64 * p.tps →
    t.clk.sec.toNat * p.tps + t.clk.tick = is.count .clockAdvance ∧ t.clk.tick < p.tps

/-- R65, R201: no other transaction changes the clock. -/
def Obligations.OnlyClockAdvanceWritesTheClock : Prop :=
  ∀ (i : Instr) (s t : State), exec i s = .next t → i ≠ .clockAdvance → t.clk = s.clk

/-! The 8042 and the ports. -/

/-- R221: the status byte's bit 0 shows whether a byte is available, and then its aux bit whether that byte comes from the
mouse; nothing else is fixed, and no state changes but the draw's number. -/
def Obligations.KeyboardControllerStatus : Prop :=
  ∀ s : State, ∃ st : Byte,
    exec .inKbcStatus s = .next { s with draws := s.draws + 1, trace := s.trace ++ [.inp 0x64#16 st] } ∧
    (st.getLsbD 0 = true ↔ s.kbcQ ≠ []) ∧
    ∀ b src q, s.kbcQ = (b, src) :: q → (st &&& s.par.auxMask ≠ 0#8 ↔ src = .aux)

/-- R222: a data read returns and removes the head byte, whichever device sent it; on an empty queue it returns some byte
and the queue stays empty. -/
def Obligations.KeyboardControllerData : Prop :=
  ∀ s : State,
    (∀ b src q, s.kbcQ = (b, src) :: q →
      exec .inKbcData s = .next { s with kbcQ := q, trace := s.trace ++ [.inp 0x60#16 b] }) ∧
    (s.kbcQ = [] → ∃ b : Byte,
      exec .inKbcData s = .next { s with draws := s.draws + 1, trace := s.trace ++ [.inp 0x60#16 b] })

/-- R223: a byte's arrival appends it to the queue and latches IRQ 12 for the mouse or IRQ 1 for the keyboard, in one
step. -/
def Obligations.ByteArrivalRaisesItsLine : Prop :=
  ∀ (s : State) (b : Byte),
    exec (.kbcPush .aux b) s = .next { s with
      kbcQ := s.kbcQ ++ [(b, .aux)], slave := { s.slave with irr := s.slave.irr ||| 0x10#8 },
      trace := s.trace ++ [.push .aux b, .irq 12#4] } ∧
    exec (.kbcPush .kbd b) s = .next { s with
      kbcQ := s.kbcQ ++ [(b, .kbd)], master := { s.master with irr := s.master.irr ||| 0x02#8 },
      trace := s.trace ++ [.push .kbd b, .irq 1#4] }

/-- R119 and R230: writes of the delay port and of the 8042's ports change no block state and no queue entry. -/
def Obligations.WritesWithoutBlockEffect : Prop :=
  ∀ (s : State) (v : Byte),
    exec (.outIoWait v) s = .next { s with trace := s.trace ++ [.out 0x80#16 v] } ∧
    exec (.outKbcData v) s = .next { s with trace := s.trace ++ [.out 0x60#16 v] } ∧
    exec (.outKbcCmd v) s = .next { s with trace := s.trace ++ [.out 0x64#16 v] }

/-- R118 and R194: a read of the timer's ports and any access to its channels 1 and 2 are refused as the timer's; a read of
the delay port and any access to a port outside the port map are refused as unmapped. -/
def Obligations.OtherPortAccessesAreRefused : Prop :=
  ∀ (s : State) (p : Port) (v : Byte) (i : Instr),
    (i = .inPitData ∨ i = .inPitCtrl ∨ i = .outPitCh1 v ∨ i = .outPitCh2 v ∨ i = .inPitCh1 ∨ i = .inPitCh2 →
      exec i s = .next { s with refused := true, trace := s.trace ++ [.refused .timerReadOrOtherChannel] }) ∧
    (i = .inIoWait ∨ i = .outUnmapped p v ∨ i = .inUnmapped p →
      exec i s = .next { s with refused := true, trace := s.trace ++ [.refused .unmappedPort] })

/-! U3. -/

/-- R224 and R225: a byte whose status shows the keyboard is skipped, even at position 3; a mouse byte fills the buffer at
the position and advances it, the third wrapping to 0 and completing the packet; at position 3 it is logged and dropped. -/
def Obligations.AcceptFillsTheCycleBuffer : Prop :=
  ∀ (s : State) (st d : Byte),
    (st &&& s.par.auxMask = 0#8 → exec (.accept st d) s = .next s) ∧
    (st &&& s.par.auxMask ≠ 0#8 →
      (s.asm.pos = 0#2 → exec (.accept st d) s = .next { s with asm := ⟨d, s.asm.buf1, s.asm.buf2, 1#2⟩ }) ∧
      (s.asm.pos = 1#2 → exec (.accept st d) s = .next { s with asm := ⟨s.asm.buf0, d, s.asm.buf2, 2#2⟩ }) ∧
      (s.asm.pos = 2#2 → exec (.accept st d) s =
        exec .packetComplete { s with asm := ⟨s.asm.buf0, s.asm.buf1, d, 0#2⟩ }) ∧
      (s.asm.pos = 3#2 → exec (.accept st d) s = .next { s with diag := s.diag ++ [.badCyclePosition 3#2 d] }))

/-- R226, R227, R233, R238 and R262: a packet with an overflow bit is logged and changes nothing else; any other is
appended to the packet output, with its deltas as signed bytes, its buttons as bits 0 to 2 of byte 0 and the clock's value,
and is then handed to the left, the right and the middle button, in that order. -/
def Obligations.PacketCompletion : Prop :=
  ∀ s : State,
    ((s.asm.buf0.getLsbD 6 = true ∨ s.asm.buf0.getLsbD 7 = true) → exec .packetComplete s =
      .next { s with diag := s.diag ++ [.packetOverflowDropped s.asm.buf0 s.asm.buf1 s.asm.buf2] }) ∧
    (s.asm.buf0.getLsbD 6 = false → s.asm.buf0.getLsbD 7 = false →
      ∃ dx dy : Int,
        dx = (if s.asm.buf1.toNat < 128 then (s.asm.buf1.toNat : Int) else s.asm.buf1.toNat - 256) ∧
        dy = (if s.asm.buf2.toNat < 128 then (s.asm.buf2.toNat : Int) else s.asm.buf2.toNat - 256) ∧
        exec .packetComplete s =
          runInstrs [.buttonUpdate .left (s.asm.buf0.getLsbD 0), .buttonUpdate .right (s.asm.buf0.getLsbD 1),
              .buttonUpdate .middle (s.asm.buf0.getLsbD 2)]
            { s with pktlog := s.pktlog ++
                [⟨dx, dy, s.asm.buf0.getLsbD 0, s.asm.buf0.getLsbD 1, s.asm.buf0.getLsbD 2, s.clk⟩] })

/-- R234: the third byte of a packet with an overflow bit changes no button record, emits no event, adds no packet, and
leaves the position 0. -/
def Obligations.OverflowedPacketIsDropped : Prop :=
  ∀ (s : State) (st d : Byte), st &&& s.par.auxMask ≠ 0#8 → s.asm.pos = 2#2 → s.asm.buf0 &&& 0xC0#8 ≠ 0#8 →
    exec (.accept st d) s = .next { s with
      asm := ⟨s.asm.buf0, s.asm.buf1, d, 0#2⟩,
      diag := s.diag ++ [.packetOverflowDropped s.asm.buf0 s.asm.buf1 d] }

/-- R227, R235: bits 3, 4 and 5 of packet byte 0 (the device's constant bit and the ninth sign bits) are ignored: two
states that differ only there complete to the same outputs and button records, when the packet is not dropped. -/
def Obligations.PacketIgnoresBitsThreeToFive : Prop :=
  ∀ (s t u : State) (b0 : Byte), s.asm.buf0 &&& 0xC7#8 = b0 &&& 0xC7#8 → b0 &&& 0xC0#8 = 0#8 →
    exec .packetComplete s = .next t →
    exec .packetComplete { s with asm := { s.asm with buf0 := b0 } } = .next u →
    t.pktlog = u.pktlog ∧ t.evlog = u.evlog ∧ t.btn = u.btn ∧ t.diag = u.diag

/-- R228 and R81: the drain is its loop. After what the devices do first, with nothing available it is the one status read;
otherwise it is a status read, what the devices do next, a data read, the acceptance of that byte under that very status
byte, and the drain again: performed at once, or, only where the devices push for ever, left as the next transaction to
come (log entry 12). -/
def Obligations.DrainIsItsLoop : Prop :=
  ∀ s s1 : State,
    runInstrs ((s.inside.headD s.insideEver).map DevStep.instr) (withoutTurns s 1) = .next s1 →
    (s1.kbcQ = [] → exec .drain s = exec .inKbcStatus s1) ∧
    (∀ d src q, s1.kbcQ = (d, src) :: q → ∃ (st : Byte) (s2 : State),
      exec .inKbcStatus s1 = .next { s1 with draws := s1.draws + 1, trace := s1.trace ++ [.inp 0x64#16 st] } ∧
      runInstrs ([.inKbcStatus] ++ (s1.inside.headD s1.insideEver).map DevStep.instr ++ [.inKbcData, .accept st d])
        (withoutTurns s1 1) = .next s2 ∧
      (exec .drain s = exec .drain s2 ∨ (s.insideEver.any isPush = true ∧
        exec .drain s = .next { s2 with input := .word 0x13000000#32 :: s2.input })))

/-- R229: a drain that ends does so at a status read that finds the queue empty and shows no byte available, and it ends
unless the devices push for ever: R229's fairness. Without that it is an infinite execution, the hang: where the devices
push before every transaction, the drain is still the next transaction to come after any number of steps, each of which
reads on. What the devices do for ever is State.insideEver (log entry 12). -/
def Obligations.DrainEndsWithTheQueueEmpty : Prop :=
  (∀ s : State, ∃ t : State, exec .drain s = .next t ∧
    ((t.input = s.input ∧ t.kbcQ = [] ∧ ∃ st : Byte, t.trace.getLast? = some (.inp 0x64#16 st) ∧ st.getLsbD 0 = false) ∨
      (s.insideEver.any isPush = true ∧ t.input = .word 0x13000000#32 :: s.input))) ∧
  ∀ (s : State) (rest : List Input) (n : Nat), s.inside = [] → s.insideEver.any isPush = true →
    s.input = .word 0x13000000#32 :: rest →
    ∃ t, runSteps n s = .next t ∧ t.input = s.input ∧ s.trace.length + n ≤ t.trace.length

/-- R232: a drain that accepts k mouse bytes moves the position to (position + k) mod 3 and completes (position + k) / 3
packets, handed over or dropped. Here k is the mouse bytes of the queue and those the devices pushed while it ran (R81,
R357), as the trace records them, less the mouse bytes still in the queue, of which a drain that has ended leaves none;
with the devices idle k is the mouse bytes of the queue. -/
def Obligations.PartialPacketsResume : Prop :=
  (∀ s t : State, s.asm.pos ≠ 3#2 → exec .drain s = .next t → ∃ (es : List Entry) (k : Nat),
    t.trace = s.trace ++ es ∧
    k + t.kbcQ.countP (·.2 == .aux) =
      s.kbcQ.countP (·.2 == .aux) + es.countP (fun e => match e with | .push .aux _ => true | _ => false) ∧
    t.asm.pos.toNat = (s.asm.pos.toNat + k) % 3 ∧
    t.pktlog.length + t.diag.length = s.pktlog.length + s.diag.length + (s.asm.pos.toNat + k) / 3) ∧
  ∀ s t : State, Idle s → s.asm.pos ≠ 3#2 → exec .drain s = .next t →
    t.asm.pos.toNat = (s.asm.pos.toNat + s.kbcQ.countP (·.2 == .aux)) % 3 ∧
    t.pktlog.length + t.diag.length =
      s.pktlog.length + s.diag.length + (s.asm.pos.toNat + s.kbcQ.countP (·.2 == .aux)) / 3

/-- R231: keyboard bytes in the queue are lost in a drain and have no other effect: with the devices idle the drain leaves
the assembler, the buttons and the outputs as a drain of the mouse bytes alone would, the queue empty, and every request,
the keyboard's among them, latched as it was. -/
def Obligations.KeyboardBytesAreLostInADrain : Prop :=
  ∀ s t u : State, Idle s → exec .drain s = .next t →
    exec .drain { s with kbcQ := s.kbcQ.filter (·.2 == .aux) } = .next u →
    t.kbcQ = [] ∧ t.master = s.master ∧ t.slave = s.slave ∧
    t.asm = u.asm ∧ t.btn = u.btn ∧ t.pktlog = u.pktlog ∧ t.evlog = u.evlog ∧ t.diag = u.diag

/-! U4. -/

/-- R260: one button's step. With the bit set and no more than half a second since the button's last fresh click, a
DoubleClick, and the fresh click is reset to the epoch; with the bit set otherwise, a fresh Click at this time; with the bit
clear, a Release. The event carries the callback list as it stands (R261). The time is the clock's (log entry 10). -/
def Obligations.ButtonStep : Prop :=
  ∀ (s : State) (b : Button) (x : Bool),
    let r := s.btn.get b
    let elapsed : Int := ((s.clk.sec.toNat * s.par.tps + s.clk.tick : Nat) : Int)
      - ((r.lastFresh.sec.toNat * s.par.tps + r.lastFresh.tick : Nat) : Int)
    (x = true → 2 * elapsed ≤ s.par.tps → exec (.buttonUpdate b x) s = .next { s with
      btn := s.btn.set b ⟨.clicked, s.clk, ⟨0#64, 0⟩⟩,
      evlog := s.evlog ++ [⟨b, .doubleClick, s.clk, (s.cb.get b).doubleClick⟩] }) ∧
    (x = true → ¬2 * elapsed ≤ s.par.tps → exec (.buttonUpdate b x) s = .next { s with
      btn := s.btn.set b ⟨.clicked, s.clk, s.clk⟩,
      evlog := s.evlog ++ [⟨b, .click, s.clk, (s.cb.get b).click⟩] }) ∧
    (x = false → exec (.buttonUpdate b x) s = .next { s with
      btn := s.btn.set b ⟨.released, s.clk, r.lastFresh⟩,
      evlog := s.evlog ++ [⟨b, .release, s.clk, (s.cb.get b).release⟩] })

/-- R262 and R269: every transaction but a bare button step adds exactly three events for each packet it adds, and a
completed packet's three are for Left, Right, Middle in that order, a Release where the bit is clear and a Click or
DoubleClick where it is set. -/
def Obligations.ThreeEventsPerPacket : Prop :=
  (∀ (i : Instr) (s t : State), exec i s = .next t → (∀ b x, i ≠ .buttonUpdate b x) →
    t.evlog.length + 3 * s.pktlog.length = s.evlog.length + 3 * t.pktlog.length) ∧
  (∀ s : State, s.asm.buf0 &&& 0xC0#8 = 0#8 → ∃ (t : State) (l r m : Event),
    exec .packetComplete s = .next t ∧ t.evlog = s.evlog ++ [l, r, m] ∧
    l.button = .left ∧ r.button = .right ∧ m.button = .middle ∧ l.t = s.clk ∧ r.t = s.clk ∧ m.t = s.clk ∧
    (l.kind = .release ↔ s.asm.buf0.getLsbD 0 = false) ∧ (r.kind = .release ↔ s.asm.buf0.getLsbD 1 = false) ∧
    (m.kind = .release ↔ s.asm.buf0.getLsbD 2 = false))

/-- R267, of one button's step, whose time is the clock's (the model's reading of the bare step, log entry 10): while the
clock is within half a second of the epoch, a set bit on a button whose last fresh click is the epoch is a DoubleClick, with
no Click before it. -/
def Obligations.BootWindowDoubleClick : Prop :=
  ∀ (s : State) (b : Button), 2 * (s.clk.sec.toNat * s.par.tps + s.clk.tick) ≤ s.par.tps →
    (s.btn.get b).lastFresh = ⟨0#64, 0⟩ →
    ∃ t, exec (.buttonUpdate b true) s = .next t ∧
      t.evlog = s.evlog ++ [⟨b, .doubleClick, s.clk, (s.cb.get b).doubleClick⟩]

/-- R268 (and R265, R266), of one button's steps, each at the clock's time (the model's reading of the bare step, log entry
10): a button held down over packets that come no more than half a second apart, the first of them
more than half a second after the button's last fresh click and all of them more than half a second after the epoch, emits
Click, DoubleClick, Click, DoubleClick, and so on: a second click in the window is a DoubleClick and no Click, and a third
is a fresh Click. -/
def Obligations.HeldButtonAlternates : Prop :=
  ∀ (b : Button) (times : List Timestamp) (s : State),
    let at_ : Timestamp → Int := fun t => ((t.sec.toNat * s.par.tps + t.tick : Nat) : Int)
    (∀ t ∈ times, (s.par.tps : Int) < 2 * at_ t) →
    (∀ t ∈ times.head?, (s.par.tps : Int) < 2 * (at_ t - at_ (s.btn.get b).lastFresh)) →
    times.IsChain (fun t u => 2 * (at_ u - at_ t) ≤ (s.par.tps : Int)) →
    ∃ t : State,
      times.foldl (fun r time => match r with
          | Host.Outcome.next u => exec (.buttonUpdate b true) { u with clk := time }
          | stop => stop) (.next s) = .next t ∧
      t.evlog = s.evlog ++ times.zipIdx.map fun e =>
        if e.2 % 2 = 0 then ⟨b, .click, e.1, (s.cb.get b).click⟩ else ⟨b, .doubleClick, e.1, (s.cb.get b).doubleClick⟩

/-- R270: a button's state and its last update never influence anything: two states that differ only in them give, after
any run, states that differ only in button records, and whose last fresh clicks agree. -/
def Obligations.ButtonHistoryHasNoInfluence : Prop :=
  ∀ (is : List Instr) (s u s' u' : State), { s with btn := u.btn } = u →
    (∀ b, (s.btn.get b).lastFresh = (u.btn.get b).lastFresh) →
    runInstrs is s = .next s' → runInstrs is u = .next u' →
    { s' with btn := u'.btn } = u' ∧ ∀ b, (s'.btn.get b).lastFresh = (u'.btn.get b).lastFresh

/-- R264 (with R118): a registration appends the callback to the list of its button and event kind and changes no other
list; a button or kind field of 3 is refused. -/
def Obligations.RegistrationAppends : Prop :=
  ∀ (s : State) (c : CallbackId),
    (∀ (b : Button) (k : Kind), ∃ t, exec (.onEvent b.code k.code c) s = .next t ∧
      ((t.cb.get b).get k) = ((s.cb.get b).get k) ++ [c] ∧
      (∀ b' k', (b', k') ≠ (b, k) → (t.cb.get b').get k' = (s.cb.get b').get k') ∧ { t with cb := s.cb } = s) ∧
    (∀ f g : BitVec 2, f = 3#2 ∨ g = 3#2 → exec (.onEvent f g c) s =
      .next { s with refused := true, trace := s.trace ++ [.refused .badOnField] })

/-! Whole-machine rules. -/

/-- R48, R61, R62, R63, R66: over any step the three output logs and every callback list only grow at their end, the refused
mark is never cleared, and the parameters stay. -/
def Obligations.OutputsOnlyGrow : Prop :=
  ∀ s t : State, step s = .next t →
    s.pktlog <+: t.pktlog ∧ s.evlog <+: t.evlog ∧ s.diag <+: t.diag ∧
    (∀ b k, (s.cb.get b).get k <+: (t.cb.get b).get k) ∧ (s.refused = true → t.refused = true) ∧ t.par = s.par

/-- R311 and R313: with the devices idle, both bases as after `remap(32, 40)`, the master READY and nothing in service on it,
the timer handler serves a pending timer line: vector 32, one clock tick, end-of-interrupt, nothing in service; and with no
timer request, the keyboard handler serves a pending keyboard line: vector 33, one byte read, end-of-interrupt. The byte is
the head of the queue, or, when a drain lost it (R231, R359), some byte of a read that leaves the empty queue empty (R222).
No handler runs before, and none after (R309; log entry 4). -/
def Obligations.TimerAndKeyboardHandlersServe : Prop :=
  ∀ s : State, Idle s → s.handler = none → s.master.init = .ready → s.master.base = 32#8 → s.slave.base = 40#8 → s.master.isr = 0#8 →
    ((s.master.irr.getLsbD 0 = true ∧ s.master.imr.getLsbD 0 = false) → runInstrs timerHandler s = .next { s with
      master := { s.master with irr := s.master.irr &&& 0xFE#8 },
      clk := if s.clk.tick + 1 = s.par.tps then ⟨s.clk.sec + 1#64, 0⟩ else ⟨s.clk.sec, s.clk.tick + 1⟩,
      trace := s.trace ++ [.inta 32#8, .out 0x20#16 0x20#8, .handlerEnd 32#8] }) ∧
    ((s.master.irr.getLsbD 0 = false ∨ s.master.imr.getLsbD 0 = true) → s.master.irr.getLsbD 1 = true →
      s.master.imr.getLsbD 1 = false →
      (∀ b src q, s.kbcQ = (b, src) :: q → runInstrs keyboardHandler s = .next { s with
        master := { s.master with irr := s.master.irr &&& 0xFD#8 }, kbcQ := q,
        trace := s.trace ++ [.inta 33#8, .inp 0x60#16 b, .out 0x20#16 0x20#8, .handlerEnd 33#8] }) ∧
      (s.kbcQ = [] → ∃ b : Byte, runInstrs keyboardHandler s = .next { s with
        master := { s.master with irr := s.master.irr &&& 0xFD#8 }, draws := s.draws + 1,
        trace := s.trace ++ [.inta 33#8, .inp 0x60#16 b, .out 0x20#16 0x20#8, .handlerEnd 33#8] }))

/-- R312: with the devices idle, no handler running, both controllers READY with the bases of `remap(32, 40)` and nothing in service, no
unmasked request above the mouse's, and the mouse's pending and unmasked on both, the mouse handler serves it: vector 44, a
drain that empties the queue, the end-of-interrupt to the slave and then to the master, and nothing left in service and no
handler running (log entry 4). -/
def Obligations.MouseHandlerServes : Prop :=
  ∀ s : State, Idle s → s.handler = none → s.master.init = .ready → s.slave.init = .ready → s.master.base = 32#8 →
    s.slave.base = 40#8 → s.master.isr = 0#8 → s.slave.isr = 0#8 → s.master.irr &&& ~~~s.master.imr &&& 0x03#8 = 0#8 →
    s.master.imr.getLsbD 2 = false → s.slave.irr &&& ~~~s.slave.imr &&& 0x1F#8 = 0x10#8 →
    ∃ s1 u, exec .inta s = .next s1 ∧ s1.trace = s.trace ++ [.inta 44#8] ∧ exec .drain s1 = .next u ∧ u.kbcQ = [] ∧
      runInstrs mouseHandler s = .next { u with
        master := { s.master with isr := 0#8 },
        slave := { s.slave with isr := 0#8, irr := s.slave.irr &&& 0xEF#8 },
        handler := none,
        trace := u.trace ++ [.out 0xA0#16 0x20#8, .out 0x20#16 0x20#8, .handlerEnd 44#8] }
end

