-- ==== Sys2Proof/Laws/Bits.lean ====
section
/-! SUPPORT. Bits of bytes: the small lemmas of the operand forms and of the request functions (R13, R140). -/

namespace Sys2Proof.Machine

/-- Two bytes with the same eight bits are equal. -/
theorem byte_ext {a b : Byte} (h : ∀ k < 8, a.getLsbD k = b.getLsbD k) : a = b := BitVec.eq_of_getLsbD_eq h

/-- A byte has no bits from 8 on. -/
theorem byte_getLsbD_ge (v : Byte) {k : Nat} (h : 8 ≤ k) : v.getLsbD k = false := BitVec.getLsbD_of_ge v k h

theorem bit_getLsbD : ∀ i < 8, ∀ k < 8, (bit i).getLsbD k = decide (k = i) := by decide

theorem setBit_getLsbD (v : Byte) {i k : Nat} (hi : i < 8) : (setBit v i).getLsbD k = (v.getLsbD k || decide (k = i)) := by
  by_cases hk : k < 8
  · simp [setBit, bit_getLsbD i hi k hk]
  · have : k ≠ i := by omega
    simp [byte_getLsbD_ge _ (Nat.le_of_not_lt hk), this]

theorem clearBit_getLsbD (v : Byte) {i k : Nat} (hi : i < 8) :
    (clearBit v i).getLsbD k = (v.getLsbD k && !decide (k = i)) := by
  by_cases hk : k < 8
  · simp only [clearBit, BitVec.getLsbD_and, BitVec.getLsbD_not, bit_getLsbD i hi k hk, hk, decide_true, Bool.true_and]
  · simp [byte_getLsbD_ge _ (Nat.le_of_not_lt hk)]

theorem lowest_lt (v : Byte) : lowest v < 8 := by
  unfold lowest; split_ifs <;> omega

/-- `lowest(v)` is a set bit of a nonzero byte (R13). -/
theorem lowest_set {v : Byte} (h : v ≠ 0#8) : v.getLsbD (lowest v) = true := by
  unfold lowest
  split_ifs with h0 h1 h2 h3 h4 h5 h6 <;> try assumption
  by_contra h7
  exact h (byte_ext fun k hk => by interval_cases k <;> simp_all)

/-- No bit below `lowest(v)` is set (R13). -/
theorem lowest_least (v : Byte) : ∀ i < lowest v, v.getLsbD i = false := by
  intro i hi
  unfold lowest at hi
  split_ifs at hi <;> interval_cases i <;> simp_all

/-- `lowest` is below every set bit. -/
theorem lowest_le {v : Byte} {i : Nat} (h : v.getLsbD i = true) : lowest v ≤ i := by
  by_contra hc
  simp [lowest_least v i (by omega)] at h

theorem byte_ne_zero_of_bit {v : Byte} {i : Nat} (h : v.getLsbD i = true) : v ≠ 0#8 := by
  rintro rfl; simp at h

theorem byte_ne_zero_iff (v : Byte) : v ≠ 0#8 ↔ ∃ i < 8, v.getLsbD i = true :=
  ⟨fun h => ⟨lowest v, lowest_lt v, lowest_set h⟩, fun ⟨_, _, h⟩ => byte_ne_zero_of_bit h⟩

/-- `lowest` is the one index that is set and has no set bit below. -/
theorem lowest_eq {v : Byte} {n : Nat} (h : v.getLsbD n = true) (hl : ∀ i < n, v.getLsbD i = false) : lowest v = n := by
  have h1 := lowest_le h
  by_contra hc
  have := lowest_set (byte_ne_zero_of_bit h)
  rw [hl _ (by omega)] at this
  simp at this

theorem lowmask_getLsbD : ∀ k < 8, ∀ i < 8, (lowmask k).getLsbD i = decide (i ≤ k) := by decide

/-- A line is not blocked when no line of equal or higher priority is in service (R140). -/
theorem blocked_eq_false {isr : Byte} {k : Nat} (hk : k < 8) :
    blocked isr k = false ↔ ∀ i ≤ k, isr.getLsbD i = false := by
  have h : blocked isr k = false ↔ isr &&& lowmask k = 0#8 := by simp [blocked]
  rw [h]
  constructor
  · intro e i hi
    have := congrArg (·.getLsbD i) e
    simpa [lowmask_getLsbD k hk i (by omega), hi] using this
  · intro e
    refine byte_ext fun i hi => ?_
    by_cases hik : i ≤ k
    · simp [e i hik]
    · simp [lowmask_getLsbD k hk i hi, hik]

theorem reqS_getLsbD (s : State) {k : Nat} (hk : k < 8) :
    (reqS s).getLsbD k = (s.slave.irr.getLsbD k && !s.slave.imr.getLsbD k) := by
  simp [reqS, hk]

theorem four_getLsbD : ∀ k < 8, (0x04#8).getLsbD k = decide (k = 2) := by decide

theorem reqM_getLsbD (s : State) {k : Nat} (hk : k < 8) :
    (reqM s).getLsbD k =
      ((if k = 2 then slaveInt s else s.master.irr.getLsbD k) && !s.master.imr.getLsbD k) := by
  unfold reqM
  simp only [BitVec.getLsbD_or, BitVec.getLsbD_and, BitVec.getLsbD_not, hk, decide_true, Bool.true_and,
    apply_ite (fun v : Byte => v.getLsbD k), four_getLsbD k hk, BitVec.getLsbD_zero]
  by_cases h2 : k = 2
  · subst h2
    cases slaveInt s <;> cases s.master.imr.getLsbD 2 <;> cases s.master.irr.getLsbD 2 <;> rfl
  · simp only [h2, decide_false, Bool.not_false, Bool.and_true, if_false, ite_self, Bool.or_false]

/-- A request has an unblocked line exactly when its lowest line is unblocked. -/
theorem unblocked_iff (req isr : Byte) :
    (req ≠ 0#8 ∧ blocked isr (lowest req) = false) ↔
      ∃ n < 8, req.getLsbD n = true ∧ ∀ i ≤ n, isr.getLsbD i = false := by
  constructor
  · rintro ⟨h, hb⟩
    exact ⟨lowest req, lowest_lt req, lowest_set h, (blocked_eq_false (lowest_lt req)).1 hb⟩
  · rintro ⟨n, _, hr, hi⟩
    refine ⟨byte_ne_zero_of_bit hr, (blocked_eq_false (lowest_lt req)).2 fun i hle => hi i ?_⟩
    exact le_trans hle (lowest_le hr)

theorem slaveInt_iff (s : State) :
    slaveInt s = true ↔ s.slave.init = .ready ∧ reqS s ≠ 0#8 ∧ blocked s.slave.isr (lowest (reqS s)) = false := by
  simp [slaveInt, and_assoc]

theorem intOut_iff (s : State) :
    intOut s = true ↔ s.master.init = .ready ∧ reqM s ≠ 0#8 ∧ blocked s.master.isr (lowest (reqM s)) = false := by
  simp [intOut, and_assoc]

/-- The end-of-interrupt keeps a line in service exactly when a higher-priority one was in service too (R146). -/
theorem isrAfterEoi_getLsbD (isr : Byte) (k : Nat) :
    (isrAfterEoi isr).getLsbD k = true ↔ isr.getLsbD k = true ∧ ∃ j < k, isr.getLsbD j = true := by
  unfold isrAfterEoi
  split
  · next h =>
    rw [clearBit_getLsbD _ (lowest_lt isr)]
    constructor
    · intro hk
      simp only [Bool.and_eq_true, Bool.not_eq_true', decide_eq_false_iff_not] at hk
      exact ⟨hk.1, lowest isr, lt_of_le_of_ne (lowest_le hk.1) (Ne.symm hk.2), lowest_set h⟩
    · rintro ⟨hk, j, hj, hjs⟩
      have := lowest_le hjs
      simp [hk, show k ≠ lowest isr by omega]
  · next h =>
    simp only [ne_eq, not_not] at h
    subst h; simp

/-- A base that is a multiple of 8 takes the line number in its low bits without carry (R112). -/
theorem vectorOf_toNat : ∀ base : Byte, base.toNat % 8 = 0 → ∀ i < 8, (vectorOf base i).toNat = base.toNat + i := by
  decide +kernel

theorem baseOf_multiple : ∀ v : Byte, v.toNat % 8 = 0 → baseOf v = v := by decide +kernel

theorem baseOf_low : ∀ v : Byte, baseOf v &&& 0x07#8 = 0#8 := by decide +kernel

end Sys2Proof.Machine
end

