-- ==== Sys2Proof/Laws/Decode.lean ====
section
/-! SUPPORT. The fields of an encoded word: what each extraction of the decoder reads from what the encoder wrote. -/

namespace Sys2Proof

/-- Every bit of a word: the operands below bit 24, the kind from there on (R110). -/
theorem getLsbD_mkWord (k : Byte) (o : BitVec 24) (i : Nat) :
    (mkWord k o).getLsbD i = if i < 24 then o.getLsbD i else k.getLsbD (i - 24) := BitVec.getLsbD_append

/-- Any field within the 24 operand bits is read from the operands alone. -/
theorem extract_mkWord (k : Byte) (o : BitVec 24) (lo n : Nat) (h : lo + n ≤ 24) :
    (mkWord k o).extractLsb' lo n = o.extractLsb' lo n := by
  apply BitVec.eq_of_getLsbD_eq
  intro i hi
  simp only [BitVec.getLsbD_extractLsb', getLsbD_mkWord, hi, decide_true, Bool.true_and]
  rw [if_pos (by omega)]

/-- The low part of a concatenation. -/
theorem extract_concat_low {m n : Nat} (x : BitVec m) (y : BitVec n) (lo k : Nat) (h : lo + k ≤ n) :
    (x ++ y).extractLsb' lo k = y.extractLsb' lo k := by
  apply BitVec.eq_of_getLsbD_eq
  intro i hi
  simp only [BitVec.getLsbD_extractLsb', BitVec.getLsbD_append, hi, decide_true, Bool.true_and]
  rw [if_pos (by omega)]

/-- The high part of a concatenation. -/
theorem extract_concat_high {m n : Nat} (x : BitVec m) (y : BitVec n) (lo k : Nat) (h : n ≤ lo) :
    (x ++ y).extractLsb' lo k = x.extractLsb' (lo - n) k := by
  apply BitVec.eq_of_getLsbD_eq
  intro i hi
  simp only [BitVec.getLsbD_extractLsb', BitVec.getLsbD_append, hi, decide_true, Bool.true_and]
  rw [if_neg (by omega)]
  congr 1
  omega

/-- All of a bit string. -/
theorem extract_all {n : Nat} (x : BitVec n) : x.extractLsb' 0 n = x := by
  apply BitVec.eq_of_getLsbD_eq
  intro i hi
  simp [hi]

@[simp] theorem kindOf_mkWord (k : Byte) (o : BitVec 24) : kindOf (mkWord k o) = k := by
  apply BitVec.eq_of_getLsbD_eq
  intro i hi
  simp only [kindOf, BitVec.getLsbD_extractLsb', getLsbD_mkWord, hi, decide_true, Bool.true_and]
  rw [if_neg (by omega)]
  congr 1
  omega

@[simp] theorem operandsOf_mkWord (k : Byte) (o : BitVec 24) : operandsOf (mkWord k o) = o := by
  rw [operandsOf, extract_mkWord _ _ _ _ (by omega), extract_all]

@[simp] theorem portOf_mkWord (k : Byte) (p : BitVec 16) (v : Byte) : portOf (mkWord k (p ++ v)) = p := by
  rw [portOf, extract_mkWord _ _ _ _ (by omega), extract_concat_high _ _ _ _ (by omega), extract_all]

@[simp] theorem lowByteOf_mkWord (k : Byte) (p : BitVec 16) (v : Byte) : lowByteOf (mkWord k (p ++ v)) = v := by
  rw [lowByteOf, extract_mkWord _ _ _ _ (by omega), extract_concat_low _ _ _ _ (by omega), extract_all]

@[simp] theorem kindOf_outWord (p : Port) (v : Byte) : kindOf (outWord p v) = 0x01#8 := kindOf_mkWord _ _
@[simp] theorem kindOf_inWord (p : Port) : kindOf (inWord p) = 0x02#8 := kindOf_mkWord _ _
@[simp] theorem portOf_outWord (p : Port) (v : Byte) : portOf (outWord p v) = p := portOf_mkWord _ _ _
@[simp] theorem portOf_inWord (p : Port) : portOf (inWord p) = p := portOf_mkWord _ _ _
@[simp] theorem lowByteOf_outWord (p : Port) (v : Byte) : lowByteOf (outWord p v) = v :=
  lowByteOf_mkWord _ _ _
@[simp] theorem lowByteOf_inWord (p : Port) : lowByteOf (inWord p) = 0#8 := lowByteOf_mkWord _ _ _

/-- The three operand bytes of a word. -/
@[simp] theorem highByteOf_bytes (k a b c : Byte) : highByteOf (mkWord k (a ++ b ++ c)) = a := by
  rw [highByteOf, extract_mkWord _ _ _ _ (by omega), extract_concat_high _ _ _ _ (by omega),
    extract_concat_high _ _ _ _ (by omega), extract_all]

@[simp] theorem midByteOf_bytes (k a b c : Byte) : midByteOf (mkWord k (a ++ b ++ c)) = b := by
  rw [midByteOf, extract_mkWord _ _ _ _ (by omega), extract_concat_high _ _ _ _ (by omega),
    extract_concat_low _ _ _ _ (by omega), extract_all]

@[simp] theorem lowByteOf_bytes (k a b c : Byte) : lowByteOf (mkWord k (a ++ b ++ c)) = c :=
  lowByteOf_mkWord k (a ++ b) c

/-- A word is its kind over its operands (R110). -/
theorem mkWord_fields (w : Word) : mkWord (kindOf w) (operandsOf w) = w := by
  apply BitVec.eq_of_getLsbD_eq
  intro i hi
  rw [getLsbD_mkWord]
  split
  · simp only [operandsOf, BitVec.getLsbD_extractLsb', Nat.zero_add, *, decide_true, Bool.true_and]
  · simp only [kindOf, BitVec.getLsbD_extractLsb', show i - 24 < 8 by omega, decide_true, Bool.true_and,
      show 24 + (i - 24) = i by omega]

/-! The decoder, kind by kind (R111), on the operand bits. -/

section Kinds
variable (mi si : Init) (o : BitVec 24)

theorem decode_out (p : Port) (v : Byte) : decode mi si (outWord p v) = .instr (decodeOut mi si p v) := by simp [decode]

theorem decode_in (p : Port) : decode mi si (inWord p) = .instr (decodeIn p) := by simp [decode, reservedZero]

theorem decode_kind01 : decode mi si (mkWord 0x01#8 o) =
    .instr (decodeOut mi si (o.extractLsb' 8 16) (o.extractLsb' 0 8)) := by
  simp [decode, portOf, lowByteOf, extract_mkWord]

theorem decode_kind02 : decode mi si (mkWord 0x02#8 o) =
    reservedZero (o.extractLsb' 0 8) (.instr (decodeIn (o.extractLsb' 8 16))) := by
  simp [decode, portOf, lowByteOf, extract_mkWord]

theorem decode_kind03 : decode mi si (mkWord 0x03#8 o) =
    reservedZero (o.extractLsb' 4 20) (.instr (decodeIrq (o.extractLsb' 0 4))) := by
  simp [decode, extract_mkWord]

theorem decode_kind04 : decode mi si (mkWord 0x04#8 o) = reservedZero o (.instr .inta) := by simp [decode]

theorem decode_kind05 : decode mi si (mkWord 0x05#8 o) = reservedZero (o.extractLsb' 9 15)
    (.instr (.kbcPush (if o.getLsbD 8 then .aux else .kbd) (o.extractLsb' 0 8))) := by
  have h : (mkWord 0x05#8 o).getLsbD 8 = o.getLsbD 8 := by rw [getLsbD_mkWord, if_pos (by omega)]
  simp only [decode, kindOf_mkWord, lowByteOf, extract_mkWord _ _ 9 15 (by omega), extract_mkWord _ _ 0 8 (by omega), h]
  rfl

theorem decode_kind10 : decode mi si (mkWord 0x10#8 o) = reservedZero (o.extractLsb' 16 8)
    (.instr (.remap (o.extractLsb' 8 8) (o.extractLsb' 0 8))) := by
  simp [decode, highByteOf, midByteOf, lowByteOf, extract_mkWord]

theorem decode_kind11 : decode mi si (mkWord 0x11#8 o) =
    reservedZero (o.extractLsb' 8 16) (.instr (.ack (o.extractLsb' 0 8))) := by
  simp [decode, portOf, lowByteOf, extract_mkWord]

theorem decode_kind12 : decode mi si (mkWord 0x12#8 o) =
    reservedZero (o.extractLsb' 16 8) (.instr (.program (o.extractLsb' 0 16))) := by
  simp [decode, highByteOf, extract_mkWord]

theorem decode_kind13 : decode mi si (mkWord 0x13#8 o) = reservedZero o (.instr .drain) := by simp [decode]

theorem decode_kind14 : decode mi si (mkWord 0x14#8 o) = reservedZero (o.extractLsb' 16 8)
    (.instr (.accept (o.extractLsb' 8 8) (o.extractLsb' 0 8))) := by
  simp [decode, highByteOf, midByteOf, lowByteOf, extract_mkWord]

theorem decode_kind15 : decode mi si (mkWord 0x15#8 o) = reservedZero o (.instr .clockAdvance) := by simp [decode]

theorem decode_kind16 : decode mi si (mkWord 0x16#8 o) =
    .instr (.onEvent (o.extractLsb' 22 2) (o.extractLsb' 20 2) (o.extractLsb' 0 20)) := by
  simp [decode, extract_mkWord]

theorem decode_kind20 : decode mi si (mkWord 0x20#8 o) = reservedZero o (.instr .packetComplete) := by simp [decode]

theorem decode_kind21 : decode mi si (mkWord 0x21#8 o) =
    reservedZero (o.extractLsb' 3 21) (decodeButtonUpdate (o.extractLsb' 0 2) (o.getLsbD 2)) := by
  have h : (mkWord 0x21#8 o).getLsbD 2 = o.getLsbD 2 := by rw [getLsbD_mkWord, if_pos (by omega)]
  simp only [decode, kindOf_mkWord, extract_mkWord _ _ 3 21 (by omega), extract_mkWord _ _ 0 2 (by omega), h]
  rfl

end Kinds

/-- An accepted word's reserved bits are 0, and the instruction is the one under the check. -/
theorem reservedZero_eq_instr {n : Nat} {r : BitVec n} {d : Decoded} {i : Instr} :
    reservedZero r d = .instr i ↔ r = 0#n ∧ d = .instr i := by
  unfold reservedZero; split <;> simp_all

end Sys2Proof
end

