-- ==== Sys2Proof/Laws/State.lean ====
section
/-! SUPPORT. The small lemmas of the state's records: what each update does to each field, so that no later proof unfolds
an update. -/

namespace Sys2Proof.Machine

@[simp] theorem Timestamp.epoch_sec : Timestamp.epoch.sec = 0#64 := rfl
@[simp] theorem Timestamp.epoch_tick : Timestamp.epoch.tick = 0 := rfl

/-! Values per button and per kind. -/

@[simp] theorem PerButton.get_set {α : Type} (p : PerButton α) (b c : Button) (x : α) :
    (p.set b x).get c = if c = b then x else p.get c := by cases b <;> cases c <;> rfl

@[simp] theorem PerKind.get_set {α : Type} (p : PerKind α) (k l : Kind) (x : α) :
    (p.set k x).get l = if l = k then x else p.get l := by cases k <;> cases l <;> rfl

theorem PerButton.set_get {α : Type} (p : PerButton α) (b : Button) : p.set b (p.get b) = p := by cases b <;> rfl

theorem PerButton.set_set {α : Type} (p : PerButton α) (b : Button) (x y : α) : (p.set b x).set b y = p.set b y := by
  cases b <;> rfl

theorem PerButton.ext_get {α : Type} {p q : PerButton α} (h : ∀ b, p.get b = q.get b) : p = q := by
  have hl := h .left; have hr := h .right; have hm := h .middle
  cases p; cases q; simp_all [PerButton.get]

/-! Controllers. -/

@[simp] theorem State.pic_setPic (s : State) (c d : Ctl) (p : Pic) :
    (s.setPic c p).pic d = if d = c then p else s.pic d := by cases c <;> cases d <;> rfl

@[simp] theorem State.pic_master (s : State) : s.pic .master = s.master := rfl
@[simp] theorem State.pic_slave (s : State) : s.pic .slave = s.slave := rfl
@[simp] theorem State.setPic_master (s : State) (p : Pic) : s.setPic .master p = { s with master := p } := rfl
@[simp] theorem State.setPic_slave (s : State) (p : Pic) : s.setPic .slave p = { s with slave := p } := rfl

theorem State.setPic_pic (s : State) (c : Ctl) : s.setPic c (s.pic c) = s := by cases c <;> rfl

section SetPic
variable (s : State) (c : Ctl) (p : Pic)
@[simp] theorem State.setPic_par : (s.setPic c p).par = s.par := by cases c <;> rfl
@[simp] theorem State.setPic_pit : (s.setPic c p).pit = s.pit := by cases c <;> rfl
@[simp] theorem State.setPic_clk : (s.setPic c p).clk = s.clk := by cases c <;> rfl
@[simp] theorem State.setPic_asm : (s.setPic c p).asm = s.asm := by cases c <;> rfl
@[simp] theorem State.setPic_btn : (s.setPic c p).btn = s.btn := by cases c <;> rfl
@[simp] theorem State.setPic_cb : (s.setPic c p).cb = s.cb := by cases c <;> rfl
@[simp] theorem State.setPic_pktlog : (s.setPic c p).pktlog = s.pktlog := by cases c <;> rfl
@[simp] theorem State.setPic_evlog : (s.setPic c p).evlog = s.evlog := by cases c <;> rfl
@[simp] theorem State.setPic_diag : (s.setPic c p).diag = s.diag := by cases c <;> rfl
@[simp] theorem State.setPic_refused : (s.setPic c p).refused = s.refused := by cases c <;> rfl
@[simp] theorem State.setPic_kbcQ : (s.setPic c p).kbcQ = s.kbcQ := by cases c <;> rfl
@[simp] theorem State.setPic_handler : (s.setPic c p).handler = s.handler := by cases c <;> rfl
@[simp] theorem State.setPic_input : (s.setPic c p).input = s.input := by cases c <;> rfl
@[simp] theorem State.setPic_inside : (s.setPic c p).inside = s.inside := by cases c <;> rfl
@[simp] theorem State.setPic_insideEver : (s.setPic c p).insideEver = s.insideEver := by cases c <;> rfl
@[simp] theorem State.setPic_draws : (s.setPic c p).draws = s.draws := by cases c <;> rfl
@[simp] theorem State.setPic_trace : (s.setPic c p).trace = s.trace := by cases c <;> rfl
end SetPic

/-! Recording, refusing, logging, counting draws: one lemma per field. -/

section Record
variable (e : Entry) (s : State)
@[simp] theorem record_par : (record e s).par = s.par := rfl
@[simp] theorem record_master : (record e s).master = s.master := rfl
@[simp] theorem record_slave : (record e s).slave = s.slave := rfl
@[simp] theorem record_pic (c : Ctl) : (record e s).pic c = s.pic c := by cases c <;> rfl
@[simp] theorem record_pit : (record e s).pit = s.pit := rfl
@[simp] theorem record_clk : (record e s).clk = s.clk := rfl
@[simp] theorem record_asm : (record e s).asm = s.asm := rfl
@[simp] theorem record_btn : (record e s).btn = s.btn := rfl
@[simp] theorem record_cb : (record e s).cb = s.cb := rfl
@[simp] theorem record_pktlog : (record e s).pktlog = s.pktlog := rfl
@[simp] theorem record_evlog : (record e s).evlog = s.evlog := rfl
@[simp] theorem record_diag : (record e s).diag = s.diag := rfl
@[simp] theorem record_refused : (record e s).refused = s.refused := rfl
@[simp] theorem record_kbcQ : (record e s).kbcQ = s.kbcQ := rfl
@[simp] theorem record_handler : (record e s).handler = s.handler := rfl
@[simp] theorem record_input : (record e s).input = s.input := rfl
@[simp] theorem record_inside : (record e s).inside = s.inside := rfl
@[simp] theorem record_insideEver : (record e s).insideEver = s.insideEver := rfl
@[simp] theorem record_draws : (record e s).draws = s.draws := rfl
@[simp] theorem record_trace : (record e s).trace = s.trace ++ [e] := rfl
end Record

section Refuse
variable (r : Reason) (s : State)
/-- All that a refusal does (R63, R301). -/
theorem refuse_eq : refuse r s = { s with refused := true, trace := s.trace ++ [.refused r] } := rfl
@[simp] theorem refuse_par : (refuse r s).par = s.par := rfl
@[simp] theorem refuse_master : (refuse r s).master = s.master := rfl
@[simp] theorem refuse_slave : (refuse r s).slave = s.slave := rfl
@[simp] theorem refuse_pic (c : Ctl) : (refuse r s).pic c = s.pic c := by cases c <;> rfl
@[simp] theorem refuse_pit : (refuse r s).pit = s.pit := rfl
@[simp] theorem refuse_clk : (refuse r s).clk = s.clk := rfl
@[simp] theorem refuse_asm : (refuse r s).asm = s.asm := rfl
@[simp] theorem refuse_btn : (refuse r s).btn = s.btn := rfl
@[simp] theorem refuse_cb : (refuse r s).cb = s.cb := rfl
@[simp] theorem refuse_pktlog : (refuse r s).pktlog = s.pktlog := rfl
@[simp] theorem refuse_evlog : (refuse r s).evlog = s.evlog := rfl
@[simp] theorem refuse_diag : (refuse r s).diag = s.diag := rfl
@[simp] theorem refuse_refused : (refuse r s).refused = true := rfl
@[simp] theorem refuse_kbcQ : (refuse r s).kbcQ = s.kbcQ := rfl
@[simp] theorem refuse_handler : (refuse r s).handler = s.handler := rfl
@[simp] theorem refuse_input : (refuse r s).input = s.input := rfl
@[simp] theorem refuse_inside : (refuse r s).inside = s.inside := rfl
@[simp] theorem refuse_insideEver : (refuse r s).insideEver = s.insideEver := rfl
@[simp] theorem refuse_draws : (refuse r s).draws = s.draws := rfl
@[simp] theorem refuse_trace : (refuse r s).trace = s.trace ++ [.refused r] := rfl
end Refuse

section RaiseDiag
variable (d : Diag) (s : State)
@[simp] theorem raiseDiag_par : (raiseDiag d s).par = s.par := rfl
@[simp] theorem raiseDiag_master : (raiseDiag d s).master = s.master := rfl
@[simp] theorem raiseDiag_slave : (raiseDiag d s).slave = s.slave := rfl
@[simp] theorem raiseDiag_pit : (raiseDiag d s).pit = s.pit := rfl
@[simp] theorem raiseDiag_clk : (raiseDiag d s).clk = s.clk := rfl
@[simp] theorem raiseDiag_asm : (raiseDiag d s).asm = s.asm := rfl
@[simp] theorem raiseDiag_btn : (raiseDiag d s).btn = s.btn := rfl
@[simp] theorem raiseDiag_cb : (raiseDiag d s).cb = s.cb := rfl
@[simp] theorem raiseDiag_pktlog : (raiseDiag d s).pktlog = s.pktlog := rfl
@[simp] theorem raiseDiag_evlog : (raiseDiag d s).evlog = s.evlog := rfl
@[simp] theorem raiseDiag_diag : (raiseDiag d s).diag = s.diag ++ [d] := rfl
@[simp] theorem raiseDiag_refused : (raiseDiag d s).refused = s.refused := rfl
@[simp] theorem raiseDiag_kbcQ : (raiseDiag d s).kbcQ = s.kbcQ := rfl
@[simp] theorem raiseDiag_handler : (raiseDiag d s).handler = s.handler := rfl
@[simp] theorem raiseDiag_input : (raiseDiag d s).input = s.input := rfl
@[simp] theorem raiseDiag_inside : (raiseDiag d s).inside = s.inside := rfl
@[simp] theorem raiseDiag_insideEver : (raiseDiag d s).insideEver = s.insideEver := rfl
@[simp] theorem raiseDiag_draws : (raiseDiag d s).draws = s.draws := rfl
@[simp] theorem raiseDiag_trace : (raiseDiag d s).trace = s.trace := rfl
end RaiseDiag

section Emit
variable (b : Button) (k : Kind) (t : Timestamp) (s : State)
@[simp] theorem emit_par : (emit b k t s).par = s.par := rfl
@[simp] theorem emit_master : (emit b k t s).master = s.master := rfl
@[simp] theorem emit_slave : (emit b k t s).slave = s.slave := rfl
@[simp] theorem emit_pit : (emit b k t s).pit = s.pit := rfl
@[simp] theorem emit_clk : (emit b k t s).clk = s.clk := rfl
@[simp] theorem emit_asm : (emit b k t s).asm = s.asm := rfl
@[simp] theorem emit_btn : (emit b k t s).btn = s.btn := rfl
@[simp] theorem emit_cb : (emit b k t s).cb = s.cb := rfl
@[simp] theorem emit_pktlog : (emit b k t s).pktlog = s.pktlog := rfl
@[simp] theorem emit_evlog : (emit b k t s).evlog = s.evlog ++ [⟨b, k, t, (s.cb.get b).get k⟩] := rfl
@[simp] theorem emit_diag : (emit b k t s).diag = s.diag := rfl
@[simp] theorem emit_refused : (emit b k t s).refused = s.refused := rfl
@[simp] theorem emit_kbcQ : (emit b k t s).kbcQ = s.kbcQ := rfl
@[simp] theorem emit_handler : (emit b k t s).handler = s.handler := rfl
@[simp] theorem emit_input : (emit b k t s).input = s.input := rfl
@[simp] theorem emit_inside : (emit b k t s).inside = s.inside := rfl
@[simp] theorem emit_insideEver : (emit b k t s).insideEver = s.insideEver := rfl
@[simp] theorem emit_draws : (emit b k t s).draws = s.draws := rfl
@[simp] theorem emit_trace : (emit b k t s).trace = s.trace := rfl
end Emit

section CountDraw
variable (s : State)
@[simp] theorem countDraw_par : (countDraw s).par = s.par := rfl
@[simp] theorem countDraw_master : (countDraw s).master = s.master := rfl
@[simp] theorem countDraw_slave : (countDraw s).slave = s.slave := rfl
@[simp] theorem countDraw_pit : (countDraw s).pit = s.pit := rfl
@[simp] theorem countDraw_clk : (countDraw s).clk = s.clk := rfl
@[simp] theorem countDraw_asm : (countDraw s).asm = s.asm := rfl
@[simp] theorem countDraw_btn : (countDraw s).btn = s.btn := rfl
@[simp] theorem countDraw_cb : (countDraw s).cb = s.cb := rfl
@[simp] theorem countDraw_pktlog : (countDraw s).pktlog = s.pktlog := rfl
@[simp] theorem countDraw_evlog : (countDraw s).evlog = s.evlog := rfl
@[simp] theorem countDraw_diag : (countDraw s).diag = s.diag := rfl
@[simp] theorem countDraw_refused : (countDraw s).refused = s.refused := rfl
@[simp] theorem countDraw_kbcQ : (countDraw s).kbcQ = s.kbcQ := rfl
@[simp] theorem countDraw_handler : (countDraw s).handler = s.handler := rfl
@[simp] theorem countDraw_input : (countDraw s).input = s.input := rfl
@[simp] theorem countDraw_inside : (countDraw s).inside = s.inside := rfl
@[simp] theorem countDraw_insideEver : (countDraw s).insideEver = s.insideEver := rfl
@[simp] theorem countDraw_draws : (countDraw s).draws = s.draws + 1 := rfl
@[simp] theorem countDraw_trace : (countDraw s).trace = s.trace := rfl
end CountDraw

/-! The running handler: what starting one, serving one and ending one do, one lemma per field. -/

section Handler
variable (v : Byte) (b : Bool) (c : Ctl) (s : State)
/-- All that ending a handler does. -/
theorem endHandler_eq : endHandler s = { s with
    handler := none, trace := s.trace ++ (s.handler.map fun h => Entry.handlerEnd h.vector).toList } := by
  cases s with | mk _ _ _ _ _ _ _ _ _ _ _ _ _ h => cases h <;> simp [endHandler, record]

/-- All that an end-of-interrupt does to the running handler. -/
theorem serviced_eq : serviced c s = { s with handler := (serviced c s).handler, trace := (serviced c s).trace } := by
  unfold serviced; split
  · rfl
  · rfl
  · rw [endHandler_eq]

/-- With no handler running an end-of-interrupt ends none. -/
@[simp] theorem serviced_idle (h : s.handler = none) : serviced c s = s := by
  simp only [serviced, h, endHandler]

@[simp] theorem serviced_par : (serviced c s).par = s.par := by rw [serviced_eq]
@[simp] theorem serviced_master : (serviced c s).master = s.master := by rw [serviced_eq]
@[simp] theorem serviced_slave : (serviced c s).slave = s.slave := by rw [serviced_eq]
@[simp] theorem serviced_pic (d : Ctl) : (serviced c s).pic d = s.pic d := by rw [serviced_eq]; cases d <;> rfl
@[simp] theorem serviced_pit : (serviced c s).pit = s.pit := by rw [serviced_eq]
@[simp] theorem serviced_clk : (serviced c s).clk = s.clk := by rw [serviced_eq]
@[simp] theorem serviced_asm : (serviced c s).asm = s.asm := by rw [serviced_eq]
@[simp] theorem serviced_btn : (serviced c s).btn = s.btn := by rw [serviced_eq]
@[simp] theorem serviced_cb : (serviced c s).cb = s.cb := by rw [serviced_eq]
@[simp] theorem serviced_pktlog : (serviced c s).pktlog = s.pktlog := by rw [serviced_eq]
@[simp] theorem serviced_evlog : (serviced c s).evlog = s.evlog := by rw [serviced_eq]
@[simp] theorem serviced_diag : (serviced c s).diag = s.diag := by rw [serviced_eq]
@[simp] theorem serviced_refused : (serviced c s).refused = s.refused := by rw [serviced_eq]
@[simp] theorem serviced_kbcQ : (serviced c s).kbcQ = s.kbcQ := by rw [serviced_eq]
@[simp] theorem serviced_input : (serviced c s).input = s.input := by rw [serviced_eq]
@[simp] theorem serviced_inside : (serviced c s).inside = s.inside := by rw [serviced_eq]
@[simp] theorem serviced_insideEver : (serviced c s).insideEver = s.insideEver := by rw [serviced_eq]
@[simp] theorem serviced_draws : (serviced c s).draws = s.draws := by rw [serviced_eq]

/-- Starting a handler records its vector and what it owes, and nothing else. -/
theorem startHandler_eq : startHandler v b s = { s with handler := some ⟨v, b, true⟩, trace := s.trace ++ [.inta v] } := rfl
end Handler

end Sys2Proof.Machine
end

