-- ==== Sys2Proof/Laws/Macros.lean ====
section
/-! SUPPORT. What the devices' steps inside a macro operation can do (R81), said once, and what a macro operation is while the
devices are idle: the plain sequence of its port transactions (R121). -/

namespace Sys2Proof.Machine

theorem lineIdx_lt (n : BitVec 4) : lineIdx n < 8 := Nat.mod_lt _ (by omega)

/-- All that device steps can do: latch requests, queue bytes, record themselves, and set the refused mark (an edge on line
2, R151). -/
structure Landed (s t : State) : Prop where
  par : t.par = s.par
  masterIsr : t.master.isr = s.master.isr
  masterImr : t.master.imr = s.master.imr
  masterBase : t.master.base = s.master.base
  masterInit : t.master.init = s.master.init
  masterIrr : ∀ k, s.master.irr.getLsbD k = true → t.master.irr.getLsbD k = true
  slaveIsr : t.slave.isr = s.slave.isr
  slaveImr : t.slave.imr = s.slave.imr
  slaveBase : t.slave.base = s.slave.base
  slaveInit : t.slave.init = s.slave.init
  slaveIrr : ∀ k, s.slave.irr.getLsbD k = true → t.slave.irr.getLsbD k = true
  pit : t.pit = s.pit
  clk : t.clk = s.clk
  asm : t.asm = s.asm
  btn : t.btn = s.btn
  cb : t.cb = s.cb
  pktlog : t.pktlog = s.pktlog
  evlog : t.evlog = s.evlog
  diag : t.diag = s.diag
  input : t.input = s.input
  handler : t.handler = s.handler
  insideEver : t.insideEver = s.insideEver
  draws : t.draws = s.draws
  queue : ∃ more, t.kbcQ = s.kbcQ ++ more
  trace : ∃ more, t.trace = s.trace ++ more
  refused : s.refused = true → t.refused = true

theorem Landed.refl (s : State) : Landed s s where
  par := rfl
  masterIsr := rfl
  masterImr := rfl
  masterBase := rfl
  masterInit := rfl
  masterIrr := fun _ h => h
  slaveIsr := rfl
  slaveImr := rfl
  slaveBase := rfl
  slaveInit := rfl
  slaveIrr := fun _ h => h
  pit := rfl
  clk := rfl
  asm := rfl
  btn := rfl
  cb := rfl
  pktlog := rfl
  evlog := rfl
  diag := rfl
  input := rfl
  handler := rfl
  insideEver := rfl
  draws := rfl
  queue := ⟨[], by simp⟩
  trace := ⟨[], by simp⟩
  refused := fun h => h

theorem Landed.trans {s t u : State} (h : Landed s t) (k : Landed t u) : Landed s u where
  par := k.par.trans h.par
  masterIsr := k.masterIsr.trans h.masterIsr
  masterImr := k.masterImr.trans h.masterImr
  masterBase := k.masterBase.trans h.masterBase
  masterInit := k.masterInit.trans h.masterInit
  masterIrr := fun i hi => k.masterIrr i (h.masterIrr i hi)
  slaveIsr := k.slaveIsr.trans h.slaveIsr
  slaveImr := k.slaveImr.trans h.slaveImr
  slaveBase := k.slaveBase.trans h.slaveBase
  slaveInit := k.slaveInit.trans h.slaveInit
  slaveIrr := fun i hi => k.slaveIrr i (h.slaveIrr i hi)
  pit := k.pit.trans h.pit
  clk := k.clk.trans h.clk
  asm := k.asm.trans h.asm
  btn := k.btn.trans h.btn
  cb := k.cb.trans h.cb
  pktlog := k.pktlog.trans h.pktlog
  evlog := k.evlog.trans h.evlog
  diag := k.diag.trans h.diag
  input := k.input.trans h.input
  handler := k.handler.trans h.handler
  insideEver := k.insideEver.trans h.insideEver
  draws := k.draws.trans h.draws
  queue := by
    obtain ⟨a, ha⟩ := h.queue; obtain ⟨b, hb⟩ := k.queue
    exact ⟨a ++ b, by rw [hb, ha, List.append_assoc]⟩
  trace := by
    obtain ⟨a, ha⟩ := h.trace; obtain ⟨b, hb⟩ := k.trace
    exact ⟨a ++ b, by rw [hb, ha, List.append_assoc]⟩
  refused := fun x => k.refused (h.refused x)

theorem Landed.raiseLine (n : BitVec 4) (s : State) : Landed s (Machine.raiseLine n s) := by
  unfold Machine.raiseLine
  split
  · exact { Landed.refl s with trace := ⟨_, rfl⟩, refused := fun _ => rfl }
  · cases hc : lineCtl n with
    | master =>
      exact { Landed.refl s with
        trace := ⟨_, rfl⟩
        masterIrr := fun k hk => by
          simp only [State.pic_master, State.setPic_master, record_master, setBit_getLsbD _ (lineIdx_lt n), hk, Bool.true_or] }
    | slave =>
      exact { Landed.refl s with
        trace := ⟨_, rfl⟩
        slaveIrr := fun k hk => by
          simp only [State.pic_slave, State.setPic_slave, record_slave, setBit_getLsbD _ (lineIdx_lt n), hk, Bool.true_or] }

theorem Landed.devStep (s : State) (d : DevStep) : Landed s (Machine.devStep s d) := by
  cases d with
  | raise n => exact .raiseLine n s
  | push src b =>
    exact Landed.trans (t := record (.push src b) { s with kbcQ := s.kbcQ ++ [(b, src)] })
      { Landed.refl s with trace := ⟨_, rfl⟩, queue := ⟨_, rfl⟩ } (.raiseLine _ _)

theorem Landed.foldl (ds : List DevStep) (s : State) : Landed s (ds.foldl Machine.devStep s) := by
  induction ds generalizing s with
  | nil => exact .refl s
  | cons d ds ih => exact (Landed.devStep s d).trans (ih _)

/-- Before a macro's port transaction the devices do device steps only (R8, R81). -/
theorem Landed.landDevices (s : State) : Landed s (Machine.landDevices s) :=
  Landed.trans (t := { s with inside := s.inside.tail }) { Landed.refl s with } (.foldl _ _)

/-! Idle devices. -/

/-- Once no turn is listed the devices take the turn that they take for ever. -/
theorem landDevices_ever {s : State} (h : s.inside = []) : landDevices s = s.insideEver.foldl devStep s := by
  cases s; cases h; rfl

theorem landDevices_idle {s : State} (h : Idle s) : landDevices s = s := by
  rw [landDevices_ever h.listed, h.ever]; rfl

@[simp] theorem raiseLine_inside (n : BitVec 4) (s : State) : (raiseLine n s).inside = s.inside := by
  unfold raiseLine; split <;> simp

section Inside
variable (c : Ctl) (v : Byte) (s : State)
@[simp] theorem icw1_inside : (icw1 c v s).inside = s.inside := by unfold icw1; split <;> simp
@[simp] theorem icw2_inside : (icw2 c v s).inside = s.inside := by simp [icw2]
@[simp] theorem icw3_inside : (icw3 c v s).inside = s.inside := by unfold icw3; split <;> simp
@[simp] theorem icw4_inside : (icw4 c v s).inside = s.inside := by unfold icw4; split <;> simp
@[simp] theorem ocw1_inside : (ocw1 c v s).inside = s.inside := by simp [ocw1]
@[simp] theorem eoi_inside : (eoi c s).inside = s.inside := by unfold eoi; split <;> simp
@[simp] theorem evenOther_inside : (evenOther v s).inside = s.inside := by unfold evenOther; split <;> simp
@[simp] theorem evenWrite_inside : (evenWrite c v s).inside = s.inside := by unfold evenWrite; split_ifs <;> simp
@[simp] theorem oddWrite_inside : (oddWrite c v s).inside = s.inside := by unfold oddWrite; split <;> simp
@[simp] theorem pitCtrl_inside : (pitCtrl v s).inside = s.inside := by unfold pitCtrl; split <;> simp
@[simp] theorem pitData_inside : (pitData v s).inside = s.inside := by unfold pitData; split <;> simp
end Inside

/-- A port write leaves the devices' steps to come as they are. -/
@[simp] theorem outPort_inside (p : Port) (v : Byte) (s : State) : (outPort p v s).inside = s.inside := by
  unfold outPort
  repeat' split
  all_goals first | simp | rfl

section Ever
variable (c : Ctl) (v : Byte) (s : State)
@[simp] theorem icw1_insideEver : (icw1 c v s).insideEver = s.insideEver := by unfold icw1; split <;> simp
@[simp] theorem icw2_insideEver : (icw2 c v s).insideEver = s.insideEver := by simp [icw2]
@[simp] theorem icw3_insideEver : (icw3 c v s).insideEver = s.insideEver := by unfold icw3; split <;> simp
@[simp] theorem icw4_insideEver : (icw4 c v s).insideEver = s.insideEver := by unfold icw4; split <;> simp
@[simp] theorem ocw1_insideEver : (ocw1 c v s).insideEver = s.insideEver := by simp [ocw1]
@[simp] theorem eoi_insideEver : (eoi c s).insideEver = s.insideEver := by unfold eoi; split <;> simp
@[simp] theorem evenOther_insideEver : (evenOther v s).insideEver = s.insideEver := by unfold evenOther; split <;> simp
@[simp] theorem evenWrite_insideEver : (evenWrite c v s).insideEver = s.insideEver := by unfold evenWrite; split_ifs <;> simp
@[simp] theorem oddWrite_insideEver : (oddWrite c v s).insideEver = s.insideEver := by unfold oddWrite; split <;> simp
@[simp] theorem pitCtrl_insideEver : (pitCtrl v s).insideEver = s.insideEver := by unfold pitCtrl; split <;> simp
@[simp] theorem pitData_insideEver : (pitData v s).insideEver = s.insideEver := by unfold pitData; split <;> simp
end Ever

/-- A port write leaves what the devices do for ever as it is. -/
@[simp] theorem outPort_insideEver (p : Port) (v : Byte) (s : State) : (outPort p v s).insideEver = s.insideEver := by
  unfold outPort
  repeat' split
  all_goals first | simp | rfl

/-- While the devices are idle a macro's port writes are the plain port writes, one after another (R121). -/
theorem macroOuts_idle (l : List (Port × Byte)) {s : State} (h : Idle s) :
    macroOuts l s = l.foldl (fun s pv => outPort pv.1 pv.2 s) s := by
  unfold macroOuts
  induction l generalizing s with
  | nil => rfl
  | cons pv l ih =>
    simp only [List.foldl_cons, macroOut, landDevices_idle h]
    exact ih ⟨by simpa using h.listed, by simpa using h.ever⟩

/-! A macro operation is a run of its transactions, with the devices' steps between them (R81, R121). -/

/-- The state with the devices' turns inside macro operations replaced. -/
def withTurns (x : List (List DevStep)) (s : State) : State := { s with inside := x }

section WithTurns
variable (x : List (List DevStep)) (c : Ctl) (v : Byte) (s : State)
theorem raiseLine_withTurns (n : BitVec 4) : raiseLine n (withTurns x s) = withTurns x (raiseLine n s) := by
  unfold raiseLine; split
  · rfl
  · cases lineCtl n <;> rfl
theorem devStep_withTurns (d : DevStep) : devStep (withTurns x s) d = withTurns x (devStep s d) := by
  cases d with
  | raise n => exact raiseLine_withTurns x s n
  | push src b => exact raiseLine_withTurns x (record (.push src b) { s with kbcQ := s.kbcQ ++ [(b, src)] }) _
theorem devSteps_withTurns (ds : List DevStep) : ds.foldl devStep (withTurns x s) = withTurns x (ds.foldl devStep s) := by
  induction ds generalizing s with
  | nil => rfl
  | cons d ds ih => rw [List.foldl_cons, devStep_withTurns, ih, List.foldl_cons]
theorem icw1_withTurns : icw1 c v (withTurns x s) = withTurns x (icw1 c v s) := by
  unfold icw1; split <;> cases c <;> rfl
theorem icw3_withTurns : icw3 c v (withTurns x s) = withTurns x (icw3 c v s) := by
  unfold icw3; split <;> cases c <;> rfl
theorem icw4_withTurns : icw4 c v (withTurns x s) = withTurns x (icw4 c v s) := by
  unfold icw4; split <;> cases c <;> rfl
theorem serviced_withTurns : serviced c (withTurns x s) = withTurns x (serviced c s) := by
  rcases s with ⟨_, _, _, _, _, _, _, _, _, _, _, _, _, h, _, _, _, _, _⟩
  rcases h with _ | ⟨v, _ | _, _ | _⟩ <;> cases c <;> rfl
theorem eoi_withTurns : eoi c (withTurns x s) = withTurns x (eoi c s) := by
  cases c
  · by_cases h : s.master.init = .ready
    · simp only [eoi, State.pic_master, ne_eq, h, withTurns, not_true_eq_false, if_false]
      exact serviced_withTurns x _ (record _ (s.setPic .master _))
    · simp only [eoi, State.pic_master, ne_eq, h, withTurns, not_false_eq_true, if_true]; rfl
  · by_cases h : s.slave.init = .ready
    · simp only [eoi, State.pic_slave, ne_eq, h, withTurns, not_true_eq_false, if_false]
      exact serviced_withTurns x _ (record _ (s.setPic .slave _))
    · simp only [eoi, State.pic_slave, ne_eq, h, withTurns, not_false_eq_true, if_true]; rfl
theorem evenWrite_withTurns : evenWrite c v (withTurns x s) = withTurns x (evenWrite c v s) := by
  unfold evenWrite
  split
  · exact icw1_withTurns x c v s
  · split
    · exact eoi_withTurns x c s
    · unfold evenOther; split <;> rfl
theorem oddWrite_withTurns : oddWrite c v (withTurns x s) = withTurns x (oddWrite c v s) := by
  have hp : (withTurns x s).pic c = s.pic c := by cases c <;> rfl
  unfold oddWrite
  rw [hp]
  split
  · cases c <;> rfl
  · exact icw3_withTurns x c v s
  · exact icw4_withTurns x c v s
  · cases c <;> rfl
theorem pitData_withTurns : pitData v (withTurns x s) = withTurns x (pitData v s) := by
  have hp : (withTurns x s).pit = s.pit := rfl
  unfold pitData
  rw [hp]
  split <;> rfl
theorem pitCtrl_withTurns : pitCtrl v (withTurns x s) = withTurns x (pitCtrl v s) := by
  unfold pitCtrl; split <;> rfl
theorem kbcWrite_withTurns (p : Port) : kbcWrite p v (withTurns x s) = withTurns x (kbcWrite p v s) := rfl
theorem ioWait_withTurns : ioWait v (withTurns x s) = withTurns x (ioWait v s) := rfl
theorem pitRefused_withTurns : pitRefused (withTurns x s) = withTurns x (pitRefused s) := rfl
theorem unmapped_withTurns : unmapped (withTurns x s) = withTurns x (unmapped s) := rfl
/-- A port write does not read the devices' turns. -/
theorem outPort_withTurns (p : Port) : outPort p v (withTurns x s) = withTurns x (outPort p v s) := by
  simp only [outPort, apply_ite (withTurns x), evenWrite_withTurns, oddWrite_withTurns, pitData_withTurns,
    pitCtrl_withTurns, kbcWrite_withTurns, ioWait_withTurns, pitRefused_withTurns, unmapped_withTurns]
end WithTurns

/-- A device's step is the transaction it stands for. -/
theorem exec_devStep (d : DevStep) (s : State) : exec d.instr s = .next (devStep s d) := by cases d <;> rfl

theorem runInstrs_devSteps (ds : List DevStep) (s : State) :
    runInstrs (ds.map DevStep.instr) s = .next (ds.foldl devStep s) := by
  induction ds generalizing s with
  | nil => rfl
  | cons d ds ih => simp only [List.map_cons, runInstrs, exec_devStep, ih, List.foldl_cons]

/-- Two runs one after the other. -/
theorem runInstrs_append {is : List Instr} {s t : State} (h : runInstrs is s = .next t) (js : List Instr) :
    runInstrs (is ++ js) s = runInstrs js t := by
  induction is generalizing s with
  | nil => cases h; rfl
  | cons i is ih =>
    simp only [List.cons_append, runInstrs] at *
    cases hx : exec i s with
    | next u => rw [hx] at h; exact ih h
    | fault f => cases f
    | refused r => rw [hx] at h; cases h

theorem interleaved_cons (s : State) (i : Instr) (is : List Instr) :
    interleaved s (i :: is) =
      ((s.inside.headD s.insideEver).map DevStep.instr ++ [i]) ++ interleaved (withTurns s.inside.tail s) is := by
  have h0 : ∀ l : List (List DevStep), l.getD 0 s.insideEver = l.headD s.insideEver := by intro l; cases l <;> rfl
  simp only [interleaved, withTurns, List.zipIdx_cons', List.flatMap_cons, List.flatMap_map, h0]
  congr 1
  refine List.flatMap_congr fun e _ => ?_
  simp

theorem landDevices_eq (s : State) :
    landDevices s = (s.inside.headD s.insideEver).foldl devStep (withTurns s.inside.tail s) := rfl

theorem landDevices_inside (s : State) : (landDevices s).inside = s.inside.tail := by
  rw [landDevices_eq, devSteps_withTurns]; rfl

/-- A macro whose port writes are the writes of `is` is the run of `is` with the devices' steps between them. -/
theorem macroOuts_eq_run (is : List Instr) (pvs : List (Port × Byte))
    (h : List.Forall₂ (fun i pv => ∀ u, exec i u = .next (outPort pv.1 pv.2 u)) is pvs) (s : State) :
    runInstrs (interleaved s is) (withoutTurns s is.length) = .next (macroOuts pvs s) := by
  induction h generalizing s with
  | nil => simp [interleaved, runInstrs, withoutTurns, macroOuts]
  | @cons i pv is pvs hi _ ih =>
    rw [interleaved_cons]
    have hd : s.inside.drop (is.length + 1) = s.inside.tail.drop is.length := by cases s.inside <;> simp
    have step1 : runInstrs ((s.inside.headD s.insideEver).map DevStep.instr ++ [i]) (withoutTurns s (is.length + 1)) =
        .next (withTurns (s.inside.tail.drop is.length) (macroOut s pv)) := by
      rw [runInstrs_append (runInstrs_devSteps _ _)]
      have e : withoutTurns s (is.length + 1) =
          withTurns (s.inside.tail.drop is.length) (withTurns s.inside.tail s) := by
        simp only [withoutTurns, hd]; rfl
      simp only [runInstrs, hi, e, devSteps_withTurns, outPort_withTurns, macroOut, landDevices_eq]
    have ht : (macroOut s pv).inside = s.inside.tail := by simp [macroOut, landDevices_inside]
    have hv : (macroOut s pv).insideEver = s.insideEver := by
      simp [macroOut, (Landed.landDevices s).insideEver]
    have e2 : withTurns (s.inside.tail.drop is.length) (macroOut s pv) = withoutTurns (macroOut s pv) is.length := by
      simp only [withoutTurns, ht]; rfl
    have e3 : interleaved (withTurns s.inside.tail s) is = interleaved (macroOut s pv) is := by
      simp only [interleaved, ht, hv]; rfl
    rw [List.length_cons, runInstrs_append step1, e2, e3, ih]
    rfl

end Sys2Proof.Machine
end

