-- ==== Sys2Proof/Laws/Drain.lean ====
section
/-! SUPPORT. The 8042's status byte (R221), what accepting a byte leaves alone (R224), and the drain loop (R228): what one
pass does, when the loop ends, and when it hangs (R229). -/

namespace Sys2Proof.Machine

theorem putMask_getLsbD (v m : Byte) (b : Bool) {k : Nat} (hk : k < 8) :
    (putMask v m b).getLsbD k = if m.getLsbD k then b else v.getLsbD k := by
  unfold putMask
  cases b <;> cases h : m.getLsbD k <;>
    simp only [Bool.false_eq_true, if_false, if_true, BitVec.getLsbD_and, BitVec.getLsbD_or, BitVec.getLsbD_not, h, hk,
      decide_true, Bool.not_false, Bool.not_true, Bool.and_true, Bool.and_false, Bool.or_true, Bool.or_false]

/-- The mask is one bit, and not bit 0 (R10). -/
theorem auxMask_getLsbD (p : Params) {k : Nat} (hk : k < 8) : p.auxMask.getLsbD k = decide (k = p.auxBit.val + 1) :=
  bit_getLsbD (p.auxBit.val + 1) (by omega) k hk

theorem auxOf_eq (p : Params) (st : Byte) : auxOf p.auxMask st = st.getLsbD (p.auxBit.val + 1) := by
  have hb : p.auxBit.val + 1 < 8 := by omega
  cases h : st.getLsbD (p.auxBit.val + 1) with
  | true =>
    have : st &&& p.auxMask ≠ 0#8 := byte_ne_zero_of_bit (i := p.auxBit.val + 1) (by
      simp only [BitVec.getLsbD_and, h, auxMask_getLsbD p hb, decide_true, Bool.and_self])
    simpa [auxOf] using this
  | false =>
    have : st &&& p.auxMask = 0#8 := byte_ext fun k hk => by
      by_cases e : k = p.auxBit.val + 1
      · subst e; simp only [BitVec.getLsbD_and, h, Bool.false_and, BitVec.getLsbD_zero]
      · simp only [BitVec.getLsbD_and, auxMask_getLsbD p hk, e, decide_false, Bool.and_false, BitVec.getLsbD_zero]
    simp [auxOf, this]

/-- Bit 0 of the status byte is 0 on an empty queue (R221). -/
theorem kbcStatus_nil (p : Params) (d : Byte) : (kbcStatus p.auxMask [] d).getLsbD 0 = false := by
  simp only [kbcStatus, putMask_getLsbD _ _ _ (show 0 < 8 by omega)]; rfl

/-- Bit 0 of the status byte is 1 while a byte is available (R221). -/
theorem kbcStatus_cons (p : Params) (b : Byte) (src : Src) (q : List (Byte × Src)) (d : Byte) :
    (kbcStatus p.auxMask ((b, src) :: q) d).getLsbD 0 = true := by
  have h : p.auxMask.getLsbD 0 = false := by rw [auxMask_getLsbD p (by omega)]; simp
  simp only [kbcStatus, putMask_getLsbD _ _ _ (show 0 < 8 by omega), h]; rfl

/-- The aux bit of the status byte that shows a byte available is that byte's source, whatever the free bits (R221). -/
theorem kbcStatus_aux (p : Params) (b : Byte) (src : Src) (q : List (Byte × Src)) (d : Byte) :
    auxOf p.auxMask (kbcStatus p.auxMask ((b, src) :: q) d) = (src == .aux) := by
  rw [auxOf_eq, kbcStatus, putMask_getLsbD _ _ _ (by omega), auxMask_getLsbD p (by omega)]
  simp

/-! Accepting a byte. -/

theorem updateButton_outside (b : Button) (x : Bool) (t : Timestamp) (s : State) :
    updateButton b x t s = { s with btn := (updateButton b x t s).btn, evlog := (updateButton b x t s).evlog } := by
  unfold updateButton; simp only []; split_ifs <;> rfl

theorem dispatch_outside (p : Packet) (s : State) :
    dispatch p s = { s with btn := (dispatch p s).btn, evlog := (dispatch p s).evlog } := by
  unfold dispatch
  rw [updateButton_outside .middle, updateButton_outside .right, updateButton_outside .left]

/-- A completed packet changes only buttons and outputs (R226). -/
theorem completePacket_outside (s : State) :
    completePacket s = { s with
      btn := (completePacket s).btn, evlog := (completePacket s).evlog, pktlog := (completePacket s).pktlog,
      diag := (completePacket s).diag } := by
  unfold completePacket handOver
  split
  · rfl
  · rw [dispatch_outside]

/-- An accepted byte changes only the assembler, buttons and outputs (R224). -/
theorem acceptByte_outside (aux : Bool) (d : Byte) (s : State) :
    acceptByte aux d s = { s with
      asm := (acceptByte aux d s).asm, btn := (acceptByte aux d s).btn, evlog := (acceptByte aux d s).evlog,
      pktlog := (acceptByte aux d s).pktlog, diag := (acceptByte aux d s).diag } := by
  unfold acceptByte acceptAux
  split_ifs
  · rfl
  · rfl
  · rw [completePacket_outside]
  · rfl
  · rfl

section Accept
variable (aux : Bool) (d : Byte) (s : State)
@[simp] theorem acceptByte_kbcQ : (acceptByte aux d s).kbcQ = s.kbcQ := by rw [acceptByte_outside]
@[simp] theorem acceptByte_inside : (acceptByte aux d s).inside = s.inside := by rw [acceptByte_outside]
@[simp] theorem acceptByte_insideEver : (acceptByte aux d s).insideEver = s.insideEver := by rw [acceptByte_outside]
@[simp] theorem acceptByte_input : (acceptByte aux d s).input = s.input := by rw [acceptByte_outside]
@[simp] theorem acceptByte_handler : (acceptByte aux d s).handler = s.handler := by rw [acceptByte_outside]
@[simp] theorem acceptByte_par : (acceptByte aux d s).par = s.par := by rw [acceptByte_outside]
@[simp] theorem acceptByte_trace : (acceptByte aux d s).trace = s.trace := by rw [acceptByte_outside]
end Accept

section ReadData
variable (s : State)
/-- A data read takes the head byte, records itself, and may count a draw (R222). -/
theorem readKbcData_eq : readKbcData s = { s with
    kbcQ := s.kbcQ.tail, draws := (readKbcData s).draws, trace := (readKbcData s).trace } := by
  rcases s with ⟨_, _, _, _, _, _, _, _, _, _, _, _, q, _, _, _, _, _, _⟩
  cases q <;> rfl
@[simp] theorem readKbcData_kbcQ : (readKbcData s).kbcQ = s.kbcQ.tail := by rw [readKbcData_eq]
@[simp] theorem readKbcData_inside : (readKbcData s).inside = s.inside := by rw [readKbcData_eq]
@[simp] theorem readKbcData_insideEver : (readKbcData s).insideEver = s.insideEver := by rw [readKbcData_eq]
@[simp] theorem readKbcData_input : (readKbcData s).input = s.input := by rw [readKbcData_eq]
@[simp] theorem readKbcData_handler : (readKbcData s).handler = s.handler := by rw [readKbcData_eq]
@[simp] theorem readKbcData_par : (readKbcData s).par = s.par := by rw [readKbcData_eq]
end ReadData

/-! One pass of the loop. -/

/-- With nothing available a pass is the one status read, and the loop ends (R228). -/
theorem drainPass_nil {s : State} (hq : (landDevices s).kbcQ = []) : drainPass s = (readKbcStatus (landDevices s), false) := by
  unfold drainPass; simp only [hq]

/-- With a byte available a pass reads the status, then that byte, and accepts it, and the loop goes on (R228). -/
theorem drainPass_cons {s : State} {d : Byte} {src : Src} {q : List (Byte × Src)}
    (hq : (landDevices s).kbcQ = (d, src) :: q) :
    drainPass s =
      (acceptByte (src == .aux) d (readKbcData (landDevices (readKbcStatus (landDevices s)))), true) := by
  obtain ⟨more, hm⟩ := (Landed.landDevices (readKbcStatus (landDevices s))).queue
  have e : (landDevices (readKbcStatus (landDevices s))).kbcQ = (d, src) :: (q ++ more) := by
    rw [hm, show (readKbcStatus (landDevices s)).kbcQ = (d, src) :: q from hq]; rfl
  unfold drainPass; simp only [hq, e]

/-- A pass leaves the transactions to come, the parameters and what the devices do for ever as they are. -/
theorem drainPass_outside (s : State) :
    (drainPass s).1.input = s.input ∧ (drainPass s).1.par = s.par ∧ (drainPass s).1.insideEver = s.insideEver := by
  have l1 := Landed.landDevices s
  cases h : (landDevices s).kbcQ with
  | nil => rw [drainPass_nil h]; exact ⟨l1.input, l1.par, l1.insideEver⟩
  | cons e q =>
    obtain ⟨d, src⟩ := e
    have l2 := Landed.landDevices (readKbcStatus (landDevices s))
    rw [drainPass_cons h]
    simp only [acceptByte_input, acceptByte_par, acceptByte_insideEver, readKbcData_input, readKbcData_par,
      readKbcData_insideEver]
    exact ⟨l2.input.trans l1.input, l2.par.trans l1.par, l2.insideEver.trans l1.insideEver⟩

/-! When the loop ends (R229). -/

/-- Bytes in the queue, and bytes listed to be pushed. -/
def bytesToDrain (s : State) : Nat := s.kbcQ.length + pushesToCome s

theorem raiseLine_kbcQ (n : BitVec 4) (s : State) : (raiseLine n s).kbcQ = s.kbcQ := by
  unfold raiseLine; split <;> simp

theorem devSteps_bytes (ds : List DevStep) (s : State) :
    (ds.foldl devStep s).inside = s.inside ∧
    (ds.foldl devStep s).kbcQ.length =
      s.kbcQ.length + ds.countP isPush := by
  induction ds generalizing s with
  | nil => simp
  | cons d ds ih =>
    have h := ih (devStep s d)
    cases d with
    | raise n => simpa [devStep, raiseLine_kbcQ, isPush] using h
    | push src b =>
      simp only [List.foldl_cons]
      refine ⟨h.1.trans (by simp [devStep, kbcPush]), h.2.trans ?_⟩
      have e : (devStep s (.push src b)).kbcQ.length = s.kbcQ.length + 1 := by simp [devStep, kbcPush, raiseLine_kbcQ]
      rw [List.countP_cons_of_pos rfl, e]
      omega

/-- What the listed turns push is what they were to push; what comes after them, for ever, adds to it. -/
theorem landDevices_bytes (s : State) :
    bytesToDrain (landDevices s) = bytesToDrain s + if s.inside = [] then s.insideEver.countP isPush else 0 := by
  obtain ⟨h1, h2⟩ := devSteps_bytes (s.inside.headD s.insideEver) { s with inside := s.inside.tail }
  simp only [landDevices, bytesToDrain, pushesToCome, h1, h2]
  cases h : s.inside with
  | nil => simp
  | cons b r => simp; omega

theorem countP_eq_zero_of_fair {l : List DevStep} (h : l.any isPush = false) : l.countP isPush = 0 := by
  rw [List.countP_eq_zero]; simpa using h

theorem landDevices_bytes_le (s : State) : bytesToDrain s ≤ bytesToDrain (landDevices s) := by
  rw [landDevices_bytes]; omega

theorem landDevices_bytes_fair {s : State} (h : s.insideEver.any isPush = false) :
    bytesToDrain (landDevices s) = bytesToDrain s := by
  rw [landDevices_bytes, countP_eq_zero_of_fair h]; simp

/-- A pass takes one byte, and the devices may bring more. -/
theorem drainPass_bytes {s t : State} (h : drainPass s = (t, true)) :
    bytesToDrain s ≤ bytesToDrain t + 1 ∧ (s.insideEver.any isPush = false → bytesToDrain s = bytesToDrain t + 1) := by
  cases hq : (landDevices s).kbcQ with
  | nil => rw [drainPass_nil hq] at h; cases h
  | cons e q =>
    obtain ⟨d, src⟩ := e
    rw [drainPass_cons hq] at h
    cases h
    have h1 := landDevices_bytes_le s
    have h2 := landDevices_bytes_le (readKbcStatus (landDevices s))
    have hb : bytesToDrain (readKbcStatus (landDevices s)) = bytesToDrain (landDevices s) := rfl
    obtain ⟨more, hm⟩ := (Landed.landDevices (readKbcStatus (landDevices s))).queue
    have e : (landDevices (readKbcStatus (landDevices s))).kbcQ = (d, src) :: (q ++ more) := by
      rw [hm, show (readKbcStatus (landDevices s)).kbcQ = (d, src) :: q from hq]; rfl
    have ht : bytesToDrain (acceptByte (src == .aux) d (readKbcData (landDevices (readKbcStatus (landDevices s))))) + 1 =
        bytesToDrain (landDevices (readKbcStatus (landDevices s))) := by
      simp only [bytesToDrain, pushesToCome, acceptByte_kbcQ, acceptByte_inside, readKbcData_kbcQ, readKbcData_inside, e,
        List.tail_cons, List.length_cons]
      omega
    refine ⟨by omega, fun hf => ?_⟩
    have f1 := landDevices_bytes_fair hf
    have f2 := landDevices_bytes_fair (s := readKbcStatus (landDevices s)) (by
      rw [show (readKbcStatus (landDevices s)).insideEver = _ from (Landed.landDevices s).insideEver]; exact hf)
    omega

/-- The loop ends at a status read that finds the queue empty, with the transactions to come as they were. -/
theorem drainLoop_some {fuel : Nat} {s t : State} (h : drainLoop fuel s = some t) :
    ∃ u, u.kbcQ = [] ∧ t = readKbcStatus u ∧ u.input = s.input := by
  induction fuel generalizing s with
  | zero => cases h
  | succ n ih =>
    unfold drainLoop at h
    have o := drainPass_outside s
    cases hq : (landDevices s).kbcQ with
    | nil =>
      rw [drainPass_nil hq] at h
      cases h
      exact ⟨_, hq, rfl, (Landed.landDevices s).input⟩
    | cons e q =>
      obtain ⟨d, src⟩ := e
      rw [drainPass_cons hq] at h o
      obtain ⟨u, h1, h2, h3⟩ := ih h
      exact ⟨u, h1, h2, h3.trans o.1⟩

/-- If the devices do not push for ever, the loop ends within one pass more than there are bytes (R229). -/
theorem drainLoop_ends {fuel : Nat} {s : State} (hf : s.insideEver.any isPush = false) (h : bytesToDrain s < fuel) :
    ∃ t, drainLoop fuel s = some t := by
  induction fuel generalizing s with
  | zero => omega
  | succ n ih =>
    unfold drainLoop
    have o := drainPass_outside s
    split
    · next t e =>
      rw [e] at o
      exact ih (by rw [o.2.2]; exact hf) (by have := (drainPass_bytes e).2 hf; omega)
    · exact ⟨_, rfl⟩

/-- Fuel beyond what the loop takes makes no difference. -/
theorem drainLoop_mono {m n : Nat} {s t : State} (h : drainLoop m s = some t) (hmn : m ≤ n) : drainLoop n s = some t := by
  induction m generalizing n s with
  | zero => cases h
  | succ m ih =>
    obtain ⟨n, rfl⟩ : ∃ k, n = k + 1 := ⟨n - 1, by omega⟩
    unfold drainLoop at h ⊢
    split at h
    · exact ih h (by omega)
    · exact h

/-- A drain that finds nothing is its one status read (R228). -/
theorem drainQueue_nil {s : State} (hq : (landDevices s).kbcQ = []) : drainQueue s = readKbcStatus (landDevices s) := by
  simp only [drainQueue, drainLoop, drainPass_nil hq, Option.getD_some]

/-- After a pass that goes on the drain is the rest of the loop, or, only where the devices push for ever, it is left as
the next transaction to come. -/
theorem drainQueue_pass {s t : State} (h : drainPass s = (t, true)) :
    drainQueue s = drainQueue t ∨ (s.insideEver.any isPush = true ∧ drainQueue s = drainAgain t) := by
  cases hl : drainLoop (bytesToDrain s + 1) s with
  | none =>
    refine .inr ⟨?_, ?_⟩
    · by_contra hf
      obtain ⟨u, hu⟩ := drainLoop_ends (by simpa using hf) (Nat.lt_succ_self (bytesToDrain s))
      rw [hl] at hu; cases hu
    · show (drainLoop (bytesToDrain s + 1) s).getD _ = _
      rw [hl, h]; rfl
  | some u =>
    refine .inl ?_
    have hs : drainQueue s = u := by
      show (drainLoop (bytesToDrain s + 1) s).getD _ = _
      rw [hl]; rfl
    simp only [drainLoop, h] at hl
    have := drainLoop_mono hl (n := bytesToDrain t + 1) (drainPass_bytes h).1
    have ht : drainQueue t = u := by
      show (drainLoop (bytesToDrain t + 1) t).getD _ = _
      rw [this]; rfl
    rw [hs, ht]

/-- If the devices do not push for ever, a drain ends at a status read that finds the queue empty (R229). -/
theorem drainQueue_ends {s : State} (hf : s.insideEver.any isPush = false) :
    ∃ u, u.kbcQ = [] ∧ u.input = s.input ∧ drainQueue s = readKbcStatus u := by
  obtain ⟨t, ht⟩ := drainLoop_ends hf (Nat.lt_succ_self (bytesToDrain s))
  obtain ⟨u, hq, rfl, hi⟩ := drainLoop_some ht
  refine ⟨u, hq, hi, ?_⟩
  show (drainLoop (bytesToDrain s + 1) s).getD _ = _
  rw [ht]; rfl

/-- Where the devices push a byte before every transaction, no pass finds the queue empty. -/
theorem drainPass_endless {s : State} (hi : s.inside = []) (hf : s.insideEver.any isPush = true) :
    ∃ t, drainPass s = (t, true) ∧ t.inside = [] ∧ t.insideEver = s.insideEver ∧ t.input = s.input := by
  have hb := (devSteps_bytes s.insideEver s).2
  have hp : 0 < s.insideEver.countP isPush := by
    rw [List.countP_pos_iff]; simpa using hf
  have o := drainPass_outside s
  cases hq : (landDevices s).kbcQ with
  | nil => rw [landDevices_ever hi] at hq; rw [hq] at hb; simp only [List.length_nil] at hb; omega
  | cons e q =>
    obtain ⟨d, src⟩ := e
    have h := drainPass_cons hq
    refine ⟨_, h, ?_, ?_, ?_⟩
    · simp only [acceptByte_inside, readKbcData_inside, landDevices_inside]
      rw [show (readKbcStatus (landDevices s)).inside = (landDevices s).inside from rfl, landDevices_inside, hi]; rfl
    · rw [h] at o; exact o.2.2
    · rw [h] at o; exact o.1

/-- Where the devices push a byte before every transaction, the drain hangs: it is one pass, and stays the next transaction
to come (R229). -/
theorem drainQueue_endless {s : State} (hi : s.inside = []) (hf : s.insideEver.any isPush = true) :
    drainQueue s = drainAgain (drainPass s).1 := by
  have none_ : ∀ (fuel : Nat) (s : State), s.inside = [] → s.insideEver.any isPush = true → drainLoop fuel s = none := by
    intro fuel
    induction fuel with
    | zero => intros; rfl
    | succ n ih =>
      intro s hi hf
      obtain ⟨t, h, h1, h2, -⟩ := drainPass_endless hi hf
      simp only [drainLoop, h]
      exact ih t h1 (by rw [h2]; exact hf)
  unfold drainQueue
  rw [none_ _ s hi hf]; rfl

/-! The loop with the devices idle. -/

/-- On an empty queue the drain is its one status read (R228). -/
theorem drainQueue_idle_nil {s : State} (hi : Idle s) (hq : s.kbcQ = []) : drainQueue s = readKbcStatus s := by
  rw [drainQueue_nil (by rw [landDevices_idle hi]; exact hq), landDevices_idle hi]

/-- What the next drain is, after one iteration, with the devices idle. -/
theorem drainQueue_idle_cons {s : State} (hi : Idle s) {d : Byte} {src : Src} {q : List (Byte × Src)}
    (hq : s.kbcQ = (d, src) :: q) :
    drainQueue s = drainQueue (acceptByte (src == .aux) d (readKbcData (readKbcStatus s))) := by
  have h := drainPass_cons (s := s) (by rw [landDevices_idle hi]; exact hq)
  have hi2 : Idle (readKbcStatus s) := ⟨hi.listed, hi.ever⟩
  rw [landDevices_idle hi, landDevices_idle hi2] at h
  rcases drainQueue_pass h with h | ⟨h, -⟩
  · exact h
  · rw [hi.ever] at h; cases h

end Sys2Proof.Machine
end

