-- ==== Sys2Proof/Laws/Micro.lean ====
section
/-! SUPPORT. Said once: what any transaction can do. Every meaning is a finite sequence of the small operations below, and
only some of them can occur in a given instruction (exec_micros). A claim about every instruction is then a claim about
every small operation (exec_induction, run_induction). -/

namespace Sys2Proof.Machine

/-- The small operations that meanings are made of. -/
inductive Micro where
  | refuse (r : Reason)
  | icw1 (c : Ctl)
  | icw2 (c : Ctl) (v : Byte)
  | icw3 (c : Ctl)
  | icw4 (c : Ctl)
  | ocw1 (c : Ctl) (v : Byte)
  | eoi (c : Ctl)
  | serviced (c : Ctl)
  | note (e : Entry) (plain : ∀ h, handlerStep h e = h)
  | raiseLine (n : BitVec 4)
  | deliverSlave
  | deliverMaster
  | spurious
  | pitCtrl
  | pitCount (v : Byte)
  | advanceClock
  | countDraw
  | popQueue
  | pushQueue (src : Src) (b : Byte)
  | land
  | again
  | storeByte (d : Byte)
  | diagnose (d : Diag)
  | packet (b0 b1 b2 : Byte)
  | button (b : Button) (x : Bool)
  | register (b : Button) (k : Kind) (c : CallbackId)

/-- What a small operation does. One whose condition fails does nothing. -/
def Micro.run : Micro → State → State
  | .refuse r, s => Machine.refuse r s
  | .icw1 c, s => s.setPic c { s.pic c with imr := 0x00#8, init := .icw2 }
  | .icw2 c v, s => s.setPic c { s.pic c with base := baseOf v, init := .icw3 }
  | .icw3 c, s => s.setPic c { s.pic c with init := .icw4 }
  | .icw4 c, s => s.setPic c { s.pic c with init := .ready }
  | .ocw1 c v, s => s.setPic c { s.pic c with imr := v }
  | .eoi c, s => s.setPic c { s.pic c with isr := isrAfterEoi (s.pic c).isr }
  | .serviced c, s => Machine.serviced c s
  | .note e _, s => record e s
  | .raiseLine n, s => Machine.raiseLine n s
  | .deliverSlave, s => if s.handler = none ∧ intOut s ∧ lowest (reqM s) = 2 then Machine.deliverSlave s else s
  | .deliverMaster, s =>
    if s.handler = none ∧ intOut s ∧ lowest (reqM s) ≠ 2 then Machine.deliverMaster (lowest (reqM s)) s else s
  | .spurious, s => if s.handler = none ∧ s.par.spurious ∧ ¬intOut s then Machine.spurious s else s
  | .pitCtrl, s => { s with pit := { s.pit with mode := 2#3, rw := .lohi, flip := .low, armed := false } }
  | .pitCount v, s => if s.pit.rw = .lohi then { s with pit := Machine.pitCount v s.pit } else s
  | .advanceClock, s => Machine.advanceClock s
  | .countDraw, s => Machine.countDraw s
  | .popQueue, s => { s with kbcQ := s.kbcQ.tail }
  | .pushQueue src b, s => { s with kbcQ := s.kbcQ ++ [(b, src)] }
  | .land, s => { s with inside := s.inside.tail }
  | .again, s => drainAgain s
  | .storeByte d, s =>
    if s.asm.pos = 0#2 then { s with asm := { s.asm with buf0 := d, pos := 1#2 } }
    else if s.asm.pos = 1#2 then { s with asm := { s.asm with buf1 := d, pos := 2#2 } }
    else if s.asm.pos = 2#2 then { s with asm := { s.asm with buf2 := d, pos := 0#2 } }
    else s
  | .diagnose d, s => raiseDiag d s
  | .packet b0 b1 b2, s => { s with pktlog := s.pktlog ++ [decodePacket b0 b1 b2 s.clk] }
  | .button b x, s => updateButton b x s.clk s
  | .register b k c, s => { s with cb := s.cb.set b ((s.cb.get b).set k (((s.cb.get b).get k) ++ [c])) }

/-- Runs small operations one after another. -/
def runMicros (ms : List Micro) (s : State) : State := ms.foldl (fun s m => m.run s) s

/-- Which instructions a small operation can occur in. The ones left open here can occur in several. -/
def Micro.mayOccurIn : Micro → Instr → Prop
  | .icw1 c, i =>
    (∃ a b, i = .remap a b) ∨ (match c with | .master => i = .outPicMIcw1 | .slave => i = .outPicSIcw1)
  | .ocw1 c _, i =>
    (∃ a b, i = .remap a b) ∨ (match c with | .master => ∃ v, i = .outPicMOcw1 v | .slave => ∃ v, i = .outPicSOcw1 v)
  | .icw2 c _, i =>
    (∃ a b, i = .remap a b) ∨ (match c with | .master => ∃ v, i = .outPicMIcw2 v | .slave => ∃ v, i = .outPicSIcw2 v)
  | .icw3 c, i =>
    (∃ a b, i = .remap a b) ∨ (match c with | .master => ∃ v, i = .outPicMIcw3 v | .slave => ∃ v, i = .outPicSIcw3 v)
  | .icw4 c, i =>
    (∃ a b, i = .remap a b) ∨ (match c with | .master => ∃ v, i = .outPicMIcw4 v | .slave => ∃ v, i = .outPicSIcw4 v)
  | .eoi _, i => i = .outPicMEoi ∨ i = .outPicSEoi ∨ ∃ v, i = .ack v
  | .serviced _, i => i = .outPicMEoi ∨ i = .outPicSEoi ∨ ∃ v, i = .ack v
  | .deliverSlave, i => i = .inta
  | .deliverMaster, i => i = .inta
  | .spurious, i => i = .inta
  | .pitCtrl, i => i = .outPitCtrl ∨ (∃ v, i = .outPitCtrlOther v) ∨ ∃ d, i = .program d
  | .pitCount _, i => (∃ v, i = .outPitData v) ∨ ∃ d, i = .program d
  | .advanceClock, i => i = .clockAdvance
  | .popQueue, i => i = .inKbcData ∨ i = .drain
  | .storeByte _, i => i = .drain ∨ ∃ s d, i = .accept s d
  | .diagnose _, i => i = .drain ∨ i = .packetComplete ∨ ∃ s d, i = .accept s d
  | .packet _ _ _, i => i = .drain ∨ i = .packetComplete ∨ ∃ s d, i = .accept s d
  | .button _ _, i => i = .drain ∨ i = .packetComplete ∨ (∃ s d, i = .accept s d) ∨ ∃ b x, i = .buttonUpdate b x
  | .again, i => i = .drain
  | .register _ _ _, i => ∃ b k c, i = .onEvent b k c
  | .refuse _, _ | .note _ _, _ | .raiseLine _, _ | .countDraw, _ | .pushQueue _ _, _ | .land, _ => True

/-- `f` is a sequence of small operations of instruction `i`. -/
def Composed (i : Instr) (s t : State) : Prop := ∃ ms, t = runMicros ms s ∧ ∀ m ∈ ms, m.mayOccurIn i

theorem Composed.refl {i : Instr} (s : State) : Composed i s s := ⟨[], rfl, by simp⟩

theorem Composed.one {i : Instr} (m : Micro) (s : State) (h : m.mayOccurIn i) : Composed i s (m.run s) :=
  ⟨[m], rfl, by simpa using h⟩

theorem Composed.trans {i : Instr} {s t u : State} (h : Composed i s t) (k : Composed i t u) : Composed i s u := by
  obtain ⟨ms, rfl, hm⟩ := h
  obtain ⟨ns, rfl, hn⟩ := k
  exact ⟨ms ++ ns, by simp [runMicros], by simpa [or_imp, forall_and] using ⟨hm, hn⟩⟩

/-- One more small operation, written by what it does. -/
theorem Composed.then {i : Instr} {s t u : State} (h : Composed i s t) (m : Micro) (hm : m.mayOccurIn i)
    (hu : m.run t = u) : Composed i s u := hu ▸ h.trans (Composed.one m t hm)

section Pieces
variable {i : Instr} {s t : State}

theorem Composed.refuse (h : Composed i s t) (r : Reason) : Composed i s (Machine.refuse r t) :=
  h.then (.refuse r) trivial rfl

theorem Composed.record (h : Composed i s t) (e : Entry) (plain : ∀ h, handlerStep h e = h := by rintro (_ | _ | _) <;> rfl) :
    Composed i s (Machine.record e t) := h.then (.note e plain) trivial rfl

theorem Composed.countDraw (h : Composed i s t) : Composed i s (Machine.countDraw t) := h.then .countDraw trivial rfl

theorem Composed.icw1 (h : Composed i s t) (c : Ctl) (v : Byte) (hi : Micro.mayOccurIn (.icw1 c) i) :
    Composed i s (Machine.icw1 c v t) := by
  unfold Machine.icw1; split
  · exact h.refuse _
  · exact (h.then (.icw1 c) hi rfl).record _

theorem Composed.icw2 (h : Composed i s t) (c : Ctl) (v : Byte) (hi : Micro.mayOccurIn (.icw2 c v) i) :
    Composed i s (Machine.icw2 c v t) := (h.then (.icw2 c v) hi rfl).record _

theorem Composed.icw3 (h : Composed i s t) (c : Ctl) (v : Byte) (hi : Micro.mayOccurIn (.icw3 c) i) :
    Composed i s (Machine.icw3 c v t) := by
  unfold Machine.icw3; split
  · exact h.refuse _
  · exact (h.then (.icw3 c) hi rfl).record _

theorem Composed.icw4 (h : Composed i s t) (c : Ctl) (v : Byte) (hi : Micro.mayOccurIn (.icw4 c) i) :
    Composed i s (Machine.icw4 c v t) := by
  unfold Machine.icw4; split
  · exact h.refuse _
  · exact (h.then (.icw4 c) hi rfl).record _

theorem Composed.ocw1 (h : Composed i s t) (c : Ctl) (v : Byte) (hi : Micro.mayOccurIn (.ocw1 c v) i) :
    Composed i s (Machine.ocw1 c v t) := (h.then (.ocw1 c v) hi rfl).record _

theorem Composed.eoi (h : Composed i s t) (c : Ctl) (hi : Micro.mayOccurIn (.eoi c) i) :
    Composed i s (Machine.eoi c t) := by
  unfold Machine.eoi; split
  · exact h.refuse _
  · exact ((h.then (.eoi c) hi rfl).record _).then (.serviced c) hi rfl

theorem Composed.evenOther (h : Composed i s t) (v : Byte) : Composed i s (Machine.evenOther v t) := by
  unfold Machine.evenOther; split <;> exact h.refuse _

theorem Composed.pitCtrl (h : Composed i s t) (v : Byte) (hi : Micro.mayOccurIn .pitCtrl i) :
    Composed i s (Machine.pitCtrl v t) := by
  unfold Machine.pitCtrl; split
  · exact h.refuse _
  · exact (h.then .pitCtrl hi rfl).record _

theorem Composed.pitData (h : Composed i s t) (v : Byte) (hi : Micro.mayOccurIn (.pitCount v) i) :
    Composed i s (Machine.pitData v t) := by
  unfold Machine.pitData; split
  · exact h.refuse _
  · exact (h.then (.pitCount v) hi (by simp [Micro.run, *])).record _

theorem Composed.kbcPush (h : Composed i s t) (src : Src) (b : Byte) : Composed i s (Machine.kbcPush src b t) :=
  ((h.then (.pushQueue src b) trivial rfl).record _).then (.raiseLine (srcLine src)) trivial rfl

theorem Composed.devStep (h : Composed i s t) (d : DevStep) : Composed i s (Machine.devStep t d) := by
  cases d with
  | raise n => exact h.then (.raiseLine n) trivial rfl
  | push src b => exact h.kbcPush src b

theorem Composed.devSteps (h : Composed i s t) (l : List DevStep) : Composed i s (l.foldl Machine.devStep t) := by
  induction l generalizing t with
  | nil => exact h
  | cons d l ih => exact ih (h.devStep d)

theorem Composed.landDevices (h : Composed i s t) : Composed i s (Machine.landDevices t) := by
  exact (h.then .land trivial rfl).devSteps _

theorem Composed.readKbcStatus (h : Composed i s t) : Composed i s (Machine.readKbcStatus t) := h.countDraw.record _

theorem Composed.readKbcData (h : Composed i s t) (hi : Micro.mayOccurIn .popQueue i) :
    Composed i s (Machine.readKbcData t) := by
  unfold Machine.readKbcData; split
  · next e => exact (h.then .popQueue hi (by simp [Micro.run, e])).record _
  · exact h.countDraw.record _

theorem updateButton_clk (b : Button) (x : Bool) (u : Timestamp) (s : State) : (updateButton b x u s).clk = s.clk := by
  unfold updateButton; simp only []; split
  · rfl
  · split <;> rfl

theorem Composed.handOver (h : Composed i s t) (b0 b1 b2 : Byte) (hp : Micro.mayOccurIn (.packet b0 b1 b2) i)
    (hb : ∀ b x, Micro.mayOccurIn (.button b x) i) :
    Composed i s (Machine.handOver (decodePacket b0 b1 b2 t.clk) t) := by
  have h0 := h.then (.packet b0 b1 b2) hp rfl
  have h1 := h0.then (.button .left (buttonBit b0 .left)) (hb _ _) rfl
  have h2 := h1.then (.button .right (buttonBit b0 .right)) (hb _ _) rfl
  have h3 := h2.then (.button .middle (buttonBit b0 .middle)) (hb _ _) rfl
  simp only [Micro.run, updateButton_clk] at h3
  exact h3

theorem Composed.completePacket (h : Composed i s t) (hd : ∀ d, Micro.mayOccurIn (.diagnose d) i)
    (hp : ∀ b0 b1 b2, Micro.mayOccurIn (.packet b0 b1 b2) i) (hb : ∀ b x, Micro.mayOccurIn (.button b x) i) :
    Composed i s (Machine.completePacket t) := by
  unfold Machine.completePacket; split
  · exact h.then (.diagnose _) (hd _) rfl
  · exact h.handOver _ _ _ (hp _ _ _) hb

theorem Composed.acceptByte (h : Composed i s t) (aux : Bool) (d : Byte) (hs : Micro.mayOccurIn (.storeByte d) i)
    (hd : ∀ d, Micro.mayOccurIn (.diagnose d) i) (hp : ∀ b0 b1 b2, Micro.mayOccurIn (.packet b0 b1 b2) i)
    (hb : ∀ b x, Micro.mayOccurIn (.button b x) i) : Composed i s (Machine.acceptByte aux d t) := by
  unfold Machine.acceptByte acceptAux
  split
  · split
    · next e => exact h.then (.storeByte d) hs (by simp [Micro.run, e])
    · split
      · next e => exact h.then (.storeByte d) hs (by simp [Micro.run, e])
      · split
        · next e => exact (h.then (.storeByte d) hs (by simp [Micro.run, e])).completePacket hd hp hb
        · exact h.then (.diagnose _) (hd _) rfl
  · exact h

theorem Composed.drainPass (h : Composed .drain s t) : Composed .drain s (Machine.drainPass t).1 := by
  unfold Machine.drainPass
  simp only []
  split
  · exact h.landDevices.readKbcStatus
  · split
    · exact h.landDevices.readKbcStatus.landDevices
    · exact ((h.landDevices.readKbcStatus.landDevices).readKbcData (.inr rfl)).acceptByte _ _ (.inl rfl)
        (fun _ => .inl rfl) (fun _ _ _ => .inl rfl) (fun _ _ => .inl rfl)

theorem Composed.drainLoop (h : Composed .drain s t) (fuel : Nat) {u : State} (hu : Machine.drainLoop fuel t = some u) :
    Composed .drain s u := by
  induction fuel generalizing t with
  | zero => cases hu
  | succ n ih =>
    unfold Machine.drainLoop at hu
    have hp := h.drainPass
    split at hu
    · next e => rw [e] at hp; exact ih hp hu
    · next e => rw [e] at hp; cases hu; exact hp

theorem Composed.drainQueue (h : Composed .drain s t) : Composed .drain s (Machine.drainQueue t) := by
  unfold Machine.drainQueue
  cases e : Machine.drainLoop (t.kbcQ.length + pushesToCome t + 1) t with
  | some u => exact h.drainLoop _ e
  | none => exact h.drainPass.then .again rfl rfl

theorem Composed.acknowledge (h : Composed .inta s t) : Composed .inta s (Machine.acknowledge t) := by
  unfold Machine.acknowledge
  split
  · exact h
  next hh =>
  have hn : t.handler = none := by simpa using hh
  split
  · next hi =>
    unfold deliver; split
    · next e => exact h.then .deliverSlave rfl (by simp [Micro.run, hn, hi, e])
    · next e => exact h.then .deliverMaster rfl (by simp [Micro.run, hn, hi, e])
  · next hi =>
    split
    · next hs => exact h.then .spurious rfl (by simp [Micro.run, hn, hi, hs])
    · exact h

theorem Composed.registerCallback (h : Composed i s t) (b k : BitVec 2) (c : CallbackId)
    (hi : ∀ b k, Micro.mayOccurIn (.register b k c) i) : Composed i s (Machine.registerCallback b k c t) := by
  unfold Machine.registerCallback; split
  · exact h.then (.register _ _ c) (hi _ _) rfl
  · exact h.refuse _

/-- A macro's port writes are composed where each of its ports' writes is. -/
theorem Composed.macroOuts (h : Composed i s t) (l : List (Port × Byte))
    (hl : ∀ pv ∈ l, ∀ u, Composed i s u → Composed i s (outPort pv.1 pv.2 u)) :
    Composed i s (Machine.macroOuts l t) := by
  unfold Machine.macroOuts
  induction l generalizing t with
  | nil => exact h
  | cons pv l ih =>
    exact ih (hl pv (by simp) _ h.landDevices) fun q hq => hl q (by simp [hq])

theorem Composed.oddWrite (h : Composed i s t) (c : Ctl) (v : Byte)
    (hi : ∀ m, m = Micro.icw2 c v ∨ m = .icw3 c ∨ m = .icw4 c ∨ m = .ocw1 c v → m.mayOccurIn i) :
    Composed i s (Machine.oddWrite c v t) := by
  unfold Machine.oddWrite; split
  · exact h.icw2 c v (hi _ (by simp))
  · exact h.icw3 c v (hi _ (by simp))
  · exact h.icw4 c v (hi _ (by simp))
  · exact h.ocw1 c v (hi _ (by simp))

theorem Composed.remapPair (h : Composed (.remap mo so) s t) : Composed (.remap mo so) s (Machine.remapPair mo so t) := by
  unfold Machine.remapPair; split
  · refine ((h.landDevices.record _).landDevices.record _).macroOuts _ ?_
    intro pv hpv u hu
    simp only [remapWrites, List.mem_cons, List.not_mem_nil, or_false] at hpv
    have odd : ∀ c v, Composed (.remap mo so) s (Machine.oddWrite c v u) := fun c v =>
      hu.oddWrite c v (by rintro m (rfl | rfl | rfl | rfl) <;> exact .inl ⟨_, _, rfl⟩)
    have one : ∀ c, Composed (.remap mo so) s (Machine.icw1 c 0x11#8 u) := fun c => hu.icw1 c _ (.inl ⟨_, _, rfl⟩)
    rcases hpv with rfl | rfl | rfl | rfl | rfl | rfl | rfl | rfl | rfl | rfl | rfl | rfl | rfl | rfl | rfl | rfl | rfl | rfl
      <;> first | exact one _ | exact odd _ _ | exact hu.record _
  · exact h.refuse _

theorem Composed.ackVector (h : Composed (.ack v) s t) : Composed (.ack v) s (Machine.ackVector v t) := by
  unfold Machine.ackVector
  refine h.macroOuts _ ?_
  intro pv hpv u hu
  have e : ∀ c, Composed (.ack v) s (Machine.eoi c u) := fun c => hu.eoi c (.inr (.inr ⟨_, rfl⟩))
  unfold ackWrites at hpv
  split at hpv
  · simp only [List.mem_singleton] at hpv; subst hpv; exact e .master
  · split at hpv
    · simp only [List.mem_cons, List.not_mem_nil, or_false] at hpv
      rcases hpv with rfl | rfl
      · exact e .slave
      · exact e .master
    · simp at hpv

theorem Composed.programDivisor (h : Composed (.program d) s t) :
    Composed (.program d) s (Machine.programDivisor d t) := by
  unfold Machine.programDivisor; split
  · exact h.refuse _
  · refine h.macroOuts _ ?_
    intro pv hpv u hu
    simp only [programWrites, List.mem_cons, List.not_mem_nil, or_false] at hpv
    rcases hpv with rfl | rfl | rfl
    · exact hu.pitCtrl 0x34#8 (.inr (.inr ⟨_, rfl⟩))
    · exact hu.pitData _ (.inr ⟨_, rfl⟩)
    · exact hu.pitData _ (.inr ⟨_, rfl⟩)

end Pieces

/-- Every instruction answers a next state, reached by small operations it may make. -/
theorem exec_micros (i : Instr) (s : State) : ∃ t, exec i s = .next t ∧ Composed i s t := by
  have h := Composed.refl (i := i) s
  refine ⟨match exec i s with | .next t => t | .fault _ => s | .refused _ => s, ?_, ?_⟩
  · cases i <;> rfl
  cases i with
  | outPicMIcw1 => exact h.icw1 _ _ (.inr rfl)
  | outPicSIcw1 => exact h.icw1 _ _ (.inr rfl)
  | outPicMIcw2 v => exact h.icw2 _ _ (.inr ⟨v, rfl⟩)
  | outPicSIcw2 v => exact h.icw2 _ _ (.inr ⟨v, rfl⟩)
  | outPicMIcw3 v => exact h.icw3 _ _ (.inr ⟨v, rfl⟩)
  | outPicSIcw3 v => exact h.icw3 _ _ (.inr ⟨v, rfl⟩)
  | outPicMIcw4 v => exact h.icw4 _ _ (.inr ⟨v, rfl⟩)
  | outPicSIcw4 v => exact h.icw4 _ _ (.inr ⟨v, rfl⟩)
  | outPicMOcw1 v => exact h.ocw1 _ _ (.inr ⟨v, rfl⟩)
  | outPicSOcw1 v => exact h.ocw1 _ _ (.inr ⟨v, rfl⟩)
  | outPicMEoi => exact h.eoi _ (.inl rfl)
  | outPicSEoi => exact h.eoi _ (.inr (.inl rfl))
  | outPicMEvenOther v => exact h.evenOther v
  | outPicSEvenOther v => exact h.evenOther v
  | inPicMIrr => exact h.record _
  | inPicSIrr => exact h.record _
  | inPicMImr => exact h.record _
  | inPicSImr => exact h.record _
  | outPitCtrl => exact h.pitCtrl _ (.inl rfl)
  | outPitCtrlOther v => exact h.pitCtrl _ (.inr (.inl ⟨v, rfl⟩))
  | outPitData v => exact h.pitData _ (.inl ⟨v, rfl⟩)
  | inPitData => exact h.refuse _
  | inPitCtrl => exact h.refuse _
  | outPitCh1 v => exact h.refuse _
  | outPitCh2 v => exact h.refuse _
  | inPitCh1 => exact h.refuse _
  | inPitCh2 => exact h.refuse _
  | inKbcStatus => exact h.readKbcStatus
  | inKbcData => exact h.readKbcData (.inl rfl)
  | outKbcData v => exact h.record _
  | outKbcCmd v => exact h.record _
  | outIoWait v => exact h.record _
  | inIoWait => exact h.refuse _
  | outUnmapped p v => exact h.refuse _
  | inUnmapped p => exact h.refuse _
  | irq2 => exact h.then (.raiseLine 2#4) trivial rfl
  | irq n => exact h.then (.raiseLine n) trivial rfl
  | inta => exact h.acknowledge
  | kbcPush src b => exact h.kbcPush src b
  | remap mo so => exact h.remapPair
  | ack v => exact h.ackVector
  | program d => exact h.programDivisor
  | drain => exact h.drainQueue
  | accept st d =>
    exact h.acceptByte _ _ (.inr ⟨_, _, rfl⟩) (fun _ => .inr (.inr ⟨_, _, rfl⟩)) (fun _ _ _ => .inr (.inr ⟨_, _, rfl⟩))
      (fun _ _ => .inr (.inr (.inl ⟨_, _, rfl⟩)))
  | clockAdvance => exact h.then .advanceClock rfl rfl
  | onEvent b k c => exact h.registerCallback b k c (fun _ _ => ⟨_, _, _, rfl⟩)
  | packetComplete =>
    exact h.completePacket (fun _ => .inr (.inl rfl)) (fun _ _ _ => .inr (.inl rfl)) (fun _ _ => .inr (.inl rfl))
  | buttonUpdate b x => exact h.then (.button b x) (.inr (.inr (.inr ⟨_, _, rfl⟩))) rfl

/-- A relation between states that is reflexive, transitive and kept by every small operation an instruction may make
relates the instruction's state before to its state after. -/
theorem exec_induction {R : State → State → Prop} {i : Instr} (refl : ∀ s, R s s)
    (trans : ∀ s t u, R s t → R t u → R s u) (small : ∀ m : Micro, m.mayOccurIn i → ∀ s, R s (m.run s))
    {s t : State} (h : exec i s = .next t) : R s t := by
  obtain ⟨u, hu, ms, rfl, hm⟩ := exec_micros i s
  obtain rfl : runMicros ms s = t := by rw [hu] at h; exact Host.Outcome.next.inj h
  clear h hu
  induction ms generalizing s with
  | nil => exact refl s
  | cons m ms ih =>
    have hm' : m.mayOccurIn i ∧ ∀ n ∈ ms, n.mayOccurIn i := by simpa using hm
    exact trans _ _ _ (small m hm'.1 s) (ih hm'.2)

/-- A predicate kept by every small operation an instruction may make is kept by the instruction. -/
theorem exec_keeps {P : State → Prop} {i : Instr} (small : ∀ m : Micro, m.mayOccurIn i → ∀ s, P s → P (m.run s))
    {s t : State} (h : exec i s = .next t) (hs : P s) : P t :=
  exec_induction (R := fun s t => P s → P t) (fun _ h => h) (fun _ _ _ h k x => k (h x)) small h hs

/-- A relation kept by every instruction of a run, reflexive and transitive, relates the run's ends. -/
theorem run_induction {R : State → State → Prop} (refl : ∀ s, R s s) (trans : ∀ s t u, R s t → R t u → R s u) :
    ∀ (is : List Instr) {s t : State}, (∀ i ∈ is, ∀ s t, exec i s = .next t → R s t) → runInstrs is s = .next t → R s t
  | [], s, t, _, h => by cases h; exact refl s
  | i :: is, s, t, hi, h => by
    obtain ⟨u, hu, -⟩ := exec_micros i s
    simp only [runInstrs, hu] at h
    exact trans _ _ _ (hi i (by simp) s u hu)
      (run_induction refl trans is (fun j hj => hi j (by simp [hj])) h)

end Sys2Proof.Machine
end

