-- ==== Sys2Proof/Laws/PerInstr.lean ====
section
/-! SUPPORT. Facts about every instruction as syntax, one lemma per constructor. EncodedKind: the kind byte of the word
that spells a transaction is the one R111's table gives it. -/

namespace Sys2Proof.Laws.EncodedKind

/-- R111's kind of each transaction. -/
def kind : Instr → Byte
  | .outPicMIcw1 | .outPicSIcw1 | .outPicMIcw2 _ | .outPicSIcw2 _ | .outPicMIcw3 _ | .outPicSIcw3 _
  | .outPicMIcw4 _ | .outPicSIcw4 _ | .outPicMOcw1 _ | .outPicSOcw1 _ | .outPicMEoi | .outPicSEoi
  | .outPicMEvenOther _ | .outPicSEvenOther _ | .outPitCtrl | .outPitCtrlOther _ | .outPitData _ | .outPitCh1 _
  | .outPitCh2 _ | .outKbcData _ | .outKbcCmd _ | .outIoWait _ | .outUnmapped _ _ => 0x01#8
  | .inPicMIrr | .inPicSIrr | .inPicMImr | .inPicSImr | .inPitData | .inPitCtrl | .inPitCh1 | .inPitCh2
  | .inKbcStatus | .inKbcData | .inIoWait | .inUnmapped _ => 0x02#8
  | .irq2 | .irq _ => 0x03#8
  | .inta => 0x04#8
  | .kbcPush _ _ => 0x05#8
  | .remap _ _ => 0x10#8
  | .ack _ => 0x11#8
  | .program _ => 0x12#8
  | .drain => 0x13#8
  | .accept _ _ => 0x14#8
  | .clockAdvance => 0x15#8
  | .onEvent _ _ _ => 0x16#8
  | .packetComplete => 0x20#8
  | .buttonUpdate _ _ => 0x21#8

/-- The word that spells `i` has `i`'s kind in bits [31:24]. -/
def Statement (i : Instr) : Prop := kindOf (encode i) = kind i

theorem outPicMIcw1 : Statement (.outPicMIcw1) := kindOf_outWord _ _
theorem outPicSIcw1 : Statement (.outPicSIcw1) := kindOf_outWord _ _
theorem outPicMIcw2 (v : Byte) : Statement (.outPicMIcw2 v) := kindOf_outWord _ _
theorem outPicSIcw2 (v : Byte) : Statement (.outPicSIcw2 v) := kindOf_outWord _ _
theorem outPicMIcw3 (v : Byte) : Statement (.outPicMIcw3 v) := kindOf_outWord _ _
theorem outPicSIcw3 (v : Byte) : Statement (.outPicSIcw3 v) := kindOf_outWord _ _
theorem outPicMIcw4 (v : Byte) : Statement (.outPicMIcw4 v) := kindOf_outWord _ _
theorem outPicSIcw4 (v : Byte) : Statement (.outPicSIcw4 v) := kindOf_outWord _ _
theorem outPicMOcw1 (mask : Byte) : Statement (.outPicMOcw1 mask) := kindOf_outWord _ _
theorem outPicSOcw1 (mask : Byte) : Statement (.outPicSOcw1 mask) := kindOf_outWord _ _
theorem outPicMEoi : Statement (.outPicMEoi) := kindOf_outWord _ _
theorem outPicSEoi : Statement (.outPicSEoi) := kindOf_outWord _ _
theorem outPicMEvenOther (data : Byte) : Statement (.outPicMEvenOther data) := kindOf_outWord _ _
theorem outPicSEvenOther (data : Byte) : Statement (.outPicSEvenOther data) := kindOf_outWord _ _
theorem inPicMIrr : Statement (.inPicMIrr) := kindOf_inWord _
theorem inPicSIrr : Statement (.inPicSIrr) := kindOf_inWord _
theorem inPicMImr : Statement (.inPicMImr) := kindOf_inWord _
theorem inPicSImr : Statement (.inPicSImr) := kindOf_inWord _
theorem outPitCtrl : Statement (.outPitCtrl) := kindOf_outWord _ _
theorem outPitCtrlOther (data : Byte) : Statement (.outPitCtrlOther data) := kindOf_outWord _ _
theorem outPitData (byte : Byte) : Statement (.outPitData byte) := kindOf_outWord _ _
theorem inPitData : Statement (.inPitData) := kindOf_inWord _
theorem inPitCtrl : Statement (.inPitCtrl) := kindOf_inWord _
theorem outPitCh1 (data : Byte) : Statement (.outPitCh1 data) := kindOf_outWord _ _
theorem outPitCh2 (data : Byte) : Statement (.outPitCh2 data) := kindOf_outWord _ _
theorem inPitCh1 : Statement (.inPitCh1) := kindOf_inWord _
theorem inPitCh2 : Statement (.inPitCh2) := kindOf_inWord _
theorem inKbcStatus : Statement (.inKbcStatus) := kindOf_inWord _
theorem inKbcData : Statement (.inKbcData) := kindOf_inWord _
theorem outKbcData (data : Byte) : Statement (.outKbcData data) := kindOf_outWord _ _
theorem outKbcCmd (data : Byte) : Statement (.outKbcCmd data) := kindOf_outWord _ _
theorem outIoWait (data : Byte) : Statement (.outIoWait data) := kindOf_outWord _ _
theorem inIoWait : Statement (.inIoWait) := kindOf_inWord _
theorem outUnmapped (port : Port) (data : Byte) : Statement (.outUnmapped port data) := kindOf_outWord _ _
theorem inUnmapped (port : Port) : Statement (.inUnmapped port) := kindOf_inWord _
theorem irq2 : Statement (.irq2) := kindOf_mkWord _ _
theorem irq (line : BitVec 4) : Statement (.irq line) := kindOf_mkWord _ _
theorem inta : Statement (.inta) := kindOf_mkWord _ _
theorem kbcPush (src : Src) (byte : Byte) : Statement (.kbcPush src byte) := kindOf_mkWord _ _
theorem remap (masterOffset slaveOffset : Byte) : Statement (.remap masterOffset slaveOffset) := kindOf_mkWord _ _
theorem ack (vector : Byte) : Statement (.ack vector) := kindOf_mkWord _ _
theorem program (divisor : BitVec 16) : Statement (.program divisor) := kindOf_mkWord _ _
theorem drain : Statement (.drain) := kindOf_mkWord _ _
theorem accept (status data : Byte) : Statement (.accept status data) := kindOf_mkWord _ _
theorem clockAdvance : Statement (.clockAdvance) := kindOf_mkWord _ _
theorem onEvent (button kind : BitVec 2) (callback : CallbackId) : Statement (.onEvent button kind callback) := kindOf_mkWord _ _
theorem packetComplete : Statement (.packetComplete) := kindOf_mkWord _ _
theorem buttonUpdate (button : Button) (raw : Bool) : Statement (.buttonUpdate button raw) := kindOf_mkWord _ _

end Sys2Proof.Laws.EncodedKind
end

