-- ==== Sys2Proof/Tests/Slice0.lean ====
section
/-! SUPPORT. Tests. Expected results come from the spec: the vectors V-… and the examples L1-… of 95_test_vectors.md, the
rules' own Example lines, or a word written out from 30_encoding.md. The last part gives, for every statement that has
hypotheses, a concrete state and operands that meet them. -/

namespace Sys2Proof.Machine.Tests

/-! Well-formedness: the ill-formed term of each check, and its neighbours. -/

theorem test_wf_even_other_is_not_icw1 :
    (Instr.outPicMEvenOther 0x11#8).wf = false ∧ (Instr.outPicSEvenOther 0x11#8).wf = false ∧
    (Instr.outPicMEvenOther 0x13#8).wf = true ∧ (Instr.outPicSEvenOther 0x13#8).wf = true := by decide
theorem test_wf_even_other_is_not_eoi :
    (Instr.outPicMEvenOther 0x20#8).wf = false ∧ (Instr.outPicSEvenOther 0x20#8).wf = false ∧
    (Instr.outPicMEvenOther 0x60#8).wf = true ∧ (Instr.outPicSEvenOther 0x60#8).wf = true := by decide
theorem test_wf_ctrl_other_is_not_ctrl :
    (Instr.outPitCtrlOther 0x34#8).wf = false ∧ (Instr.outPitCtrlOther 0x36#8).wf = true := by decide
theorem test_wf_unmapped_is_no_named_port :
    (Instr.outUnmapped 0x20#16 0#8).wf = false ∧ (Instr.outUnmapped 0x42#16 0#8).wf = false ∧
    (Instr.inUnmapped 0x80#16).wf = false ∧ (Instr.outUnmapped 0x22#16 0#8).wf = true ∧
    (Instr.inUnmapped 0xFFFF#16).wf = true := by decide
theorem test_wf_irq_is_not_irq2 : (Instr.irq 2#4).wf = false ∧ (Instr.irq 3#4).wf = true := by decide

/-! Decoding: every constructor, by a word written out from R111's layout (kind in bits 31 to 24; the port in bits 23 to 8 and
the data in bits 7 to 0 for kinds 0x01 and 0x02). -/

/-- V-E1, V-E2, V-E23: the even ports, and the odd ports with both controllers READY. -/
theorem test_decode_pic_writes :
    decode .ready .ready 0x01002011#32 = .instr .outPicMIcw1 ∧ decode .ready .ready 0x0100A011#32 = .instr .outPicSIcw1 ∧
    decode .ready .ready 0x01002020#32 = .instr .outPicMEoi ∧ decode .ready .ready 0x0100A020#32 = .instr .outPicSEoi ∧
    decode .ready .ready 0x0100200B#32 = .instr (.outPicMEvenOther 0x0B#8) ∧
    decode .ready .ready 0x0100A060#32 = .instr (.outPicSEvenOther 0x60#8) ∧
    decode .ready .ready 0x010021F8#32 = .instr (.outPicMOcw1 0xF8#8) ∧
    decode .ready .ready 0x0100A1EF#32 = .instr (.outPicSOcw1 0xEF#8) := by decide
/-- V-E24: the odd ports while a controller is being initialised. -/
theorem test_decode_pic_initialisation :
    decode .icw2 .ready 0x01002120#32 = .instr (.outPicMIcw2 0x20#8) ∧
    decode .icw3 .ready 0x01002104#32 = .instr (.outPicMIcw3 0x04#8) ∧
    decode .icw4 .ready 0x01002101#32 = .instr (.outPicMIcw4 0x01#8) ∧
    decode .ready .icw2 0x0100A128#32 = .instr (.outPicSIcw2 0x28#8) ∧
    decode .ready .icw3 0x0100A102#32 = .instr (.outPicSIcw3 0x02#8) ∧
    decode .ready .icw4 0x0100A101#32 = .instr (.outPicSIcw4 0x01#8) := by decide
theorem test_decode_pic_reads :
    decode .ready .ready 0x02002000#32 = .instr .inPicMIrr ∧ decode .ready .ready 0x0200A000#32 = .instr .inPicSIrr ∧
    decode .ready .ready 0x02002100#32 = .instr .inPicMImr ∧ decode .ready .ready 0x0200A100#32 = .instr .inPicSImr := by
  decide
theorem test_decode_timer :
    decode .ready .ready 0x01004334#32 = .instr .outPitCtrl ∧
    decode .ready .ready 0x01004336#32 = .instr (.outPitCtrlOther 0x36#8) ∧
    decode .ready .ready 0x0100409C#32 = .instr (.outPitData 0x9C#8) ∧
    decode .ready .ready 0x02004000#32 = .instr .inPitData ∧ decode .ready .ready 0x02004300#32 = .instr .inPitCtrl ∧
    decode .ready .ready 0x01004101#32 = .instr (.outPitCh1 0x01#8) ∧
    decode .ready .ready 0x01004200#32 = .instr (.outPitCh2 0x00#8) ∧
    decode .ready .ready 0x02004100#32 = .instr .inPitCh1 ∧ decode .ready .ready 0x02004200#32 = .instr .inPitCh2 := by
  decide
/-- V-E3, and R71 for the rest. -/
theorem test_decode_other_ports :
    decode .ready .ready 0x02006400#32 = .instr .inKbcStatus ∧ decode .ready .ready 0x02006000#32 = .instr .inKbcData ∧
    decode .ready .ready 0x010060F4#32 = .instr (.outKbcData 0xF4#8) ∧
    decode .ready .ready 0x010064A8#32 = .instr (.outKbcCmd 0xA8#8) ∧
    decode .ready .ready 0x01008000#32 = .instr (.outIoWait 0x00#8) ∧ decode .ready .ready 0x02008000#32 = .instr .inIoWait ∧
    decode .ready .ready 0x0103F841#32 = .instr (.outUnmapped 0x03F8#16 0x41#8) ∧
    decode .ready .ready 0x0203F800#32 = .instr (.inUnmapped 0x03F8#16) := by decide
/-- V-E4 to V-E7, V-E21. -/
theorem test_decode_agents :
    decode .ready .ready 0x0300000C#32 = .instr (.irq 12#4) ∧ decode .ready .ready 0x03000002#32 = .instr .irq2 ∧
    decode .ready .ready 0x04000000#32 = .instr .inta ∧
    decode .ready .ready 0x05000109#32 = .instr (.kbcPush .aux 0x09#8) ∧
    decode .ready .ready 0x0500001E#32 = .instr (.kbcPush .kbd 0x1E#8) := by decide
/-- V-E8 to V-E11. -/
theorem test_decode_macros :
    decode .ready .ready 0x10002028#32 = .instr (.remap 32#8 40#8) ∧ decode .ready .ready 0x1100002C#32 = .instr (.ack 44#8) ∧
    decode .ready .ready 0x12002E9C#32 = .instr (.program 11932#16) ∧ decode .ready .ready 0x13000000#32 = .instr .drain := by
  decide
/-- V-E12 to V-E18, V-E22. -/
theorem test_decode_units :
    decode .ready .ready 0x14002105#32 = .instr (.accept 0x21#8 0x05#8) ∧
    decode .ready .ready 0x15000000#32 = .instr .clockAdvance ∧
    decode .ready .ready 0x16600003#32 = .instr (.onEvent 1#2 2#2 3#20) ∧
    decode .ready .ready 0x16900002#32 = .instr (.onEvent 2#2 1#2 2#20) ∧
    decode .ready .ready 0x16C00000#32 = .instr (.onEvent 3#2 0#2 0#20) ∧
    decode .ready .ready 0x20000000#32 = .instr .packetComplete ∧
    decode .ready .ready 0x21000006#32 = .instr (.buttonUpdate .middle true) ∧
    decode .ready .ready 0x21000001#32 = .instr (.buttonUpdate .right false) := by decide
/-- V-E19, V-E20 and one reserved bit of each other kind that has one: each is invalid. -/
theorem test_decode_invalid :
    ∀ w ∈ [0x04000001#32, 0x7F000000#32, 0x00000000#32, 0x02006401#32, 0x03000010#32, 0x05000209#32, 0x10010000#32,
      0x11000100#32, 0x12010000#32, 0x13800000#32, 0x14800000#32, 0x15000001#32, 0x20000100#32, 0x21000008#32,
      0x21000003#32], ∀ i, decode .ready .ready w ≠ .instr i := by
  intro w hw i
  simp only [List.mem_cons, List.not_mem_nil, or_false] at hw
  rcases hw with rfl | rfl | rfl | rfl | rfl | rfl | rfl | rfl | rfl | rfl | rfl | rfl | rfl | rfl | rfl <;>
    exact fun h => Decoded.noConfusion h
/-- decodeTableWord reads numerals; a word longer than 32 bits is none. -/
theorem test_decode_table_word :
    decodeTableWord 32 0x04000000 = some .inta ∧ decodeTableWord 32 0x7F000000 = none ∧
    decodeTableWord 40 0x04000000 = none := by decide
/-- V-E18, V-E15, V-E7: the encoder. -/
theorem test_encode :
    encode (.buttonUpdate .middle true) = 0x21000006#32 ∧ encode (.onEvent 1#2 2#2 3#20) = 0x16600003#32 ∧
    encode (.kbcPush .kbd 0x1E#8) = 0x0500001E#32 := by decide

/-! States to test on. -/

/-- A field of the state an instruction leaves, if it leaves one. -/
def after {α : Type} (f : State → α) (i : Instr) (s : State) : Option α :=
  match exec i s with
  | .next t => some (f t)
  | .fault _ => none
  | .refused _ => none

/-- The last entry of the trace. -/
def lastEntry (s : State) : Option Entry := s.trace.getLast?

/-- "After remap": bases 32 and 40, READY, masks 0xF8 and 0xEF (95_test_vectors.md section 2). -/
def remapped : State := { State.reset with
  master := ⟨0x00#8, 0x00#8, 0xF8#8, 0x20#8, .ready⟩, slave := ⟨0x00#8, 0x00#8, 0xEF#8, 0x28#8, .ready⟩ }

/-- `remapped` with other master and slave registers: IRR, ISR, IMR. -/
def withPics (mirr misr mimr sirr sisr simr : Byte) : State := { remapped with
  master := ⟨mirr, misr, mimr, 0x20#8, .ready⟩, slave := ⟨sirr, sisr, simr, 0x28#8, .ready⟩ }

/-- `remapped` with the two controllers expecting the words `m` and `c`. -/
def withInit (m c : Init) : State := { remapped with
  master := { remapped.master with init := m }, slave := { remapped.slave with init := c } }

/-- `remapped` with the assembler's bytes and position. -/
def withAsm (b0 b1 b2 : Byte) (pos : BitVec 2) : State := { remapped with asm := ⟨b0, b1, b2, pos⟩ }

/-- `remapped` at a clock value. -/
def atTime (sec tick : Nat) : State := { remapped with clk := ⟨BitVec.ofNat 64 sec, tick⟩ }

/-- A button's last fresh click put in. -/
def withFresh (b : Button) (sec tick : Nat) (s : State) : State :=
  { s with btn := s.btn.set b { s.btn.get b with lastFresh := ⟨BitVec.ofNat 64 sec, tick⟩ } }

/-- The kinds of the events in the event output, with their buttons. -/
def events (s : State) : List (Button × Kind) := s.evlog.map fun e => (e.button, e.kind)

/-! U1. -/

/-- V-P1. -/
theorem test_icw1 : after (·.master) .outPicMIcw1 State.reset = some ⟨0#8, 0#8, 0x00#8, 0x08#8, .icw2⟩ := by decide
theorem test_icw1_slave : after (·.slave) .outPicSIcw1 (withPics 0#8 0#8 0#8 0x10#8 0x02#8 0xEF#8) =
    some ⟨0x10#8, 0x02#8, 0x00#8, 0x28#8, .icw2⟩ := by decide
/-- V-P2. -/
theorem test_icw2 : after (·.master) (.outPicMIcw2 0x23#8) (withInit .icw2 .ready) =
    some ⟨0#8, 0#8, 0xF8#8, 0x20#8, .icw3⟩ := by decide
theorem test_icw2_slave : after (·.slave) (.outPicSIcw2 0x77#8) (withInit .ready .icw2) =
    some ⟨0#8, 0#8, 0xEF#8, 0x70#8, .icw3⟩ := by decide
/-- V-P3. -/
theorem test_icw3_refused :
    after (fun s => (s.refused, s.master, lastEntry s)) (.outPicMIcw3 0x05#8) (withInit .icw3 .ready) =
      some (true, (withInit .icw3 .ready).master, some (.refused .unadmittedICW3)) := by decide
/-- R143: the master's word is not the slave's. -/
theorem test_icw3_slave_refuses_masters_word :
    after (·.refused) (.outPicSIcw3 0x04#8) (withInit .ready .icw3) = some true ∧
    after (·.refused) (.outPicMIcw3 0x04#8) (withInit .icw3 .ready) = some false := by decide
/-- V-P4. -/
theorem test_icw3_slave : after (·.slave.init) (.outPicSIcw3 0x02#8) (withInit .ready .icw3) = some .icw4 := by decide
/-- V-P5. -/
theorem test_icw4 : after (fun s => (s.master.init, s.refused)) (.outPicMIcw4 0x01#8) (withInit .icw4 .ready) =
    some (.ready, false) := by decide
/-- V-P6. -/
theorem test_icw4_refused :
    after (fun s => (s.master.init, lastEntry s)) (.outPicMIcw4 0x03#8) (withInit .icw4 .ready) =
      some (.icw4, some (.refused .unadmittedICW4)) ∧
    after (·.slave.init) (.outPicSIcw4 0x01#8) (withInit .ready .icw4) = some .ready := by decide
/-- V-P7, V-P12, V-P13. -/
theorem test_even_other :
    after lastEntry (.outPicMEvenOther 0x13#8) remapped = some (some (.refused .unadmittedICW1)) ∧
    after lastEntry (.outPicMEvenOther 0x0B#8) remapped = some (some (.refused .unadmittedEvenPortWrite)) ∧
    after lastEntry (.outPicSEvenOther 0x60#8) remapped = some (some (.refused .unadmittedEvenPortWrite)) := by decide
/-- V-P8, and R145's example. -/
theorem test_ocw1 : after (·.master.imr) (.outPicMOcw1 0xFE#8) remapped = some 0xFE#8 ∧
    after (fun s => (s.slave.imr, s.master.imr)) (.outPicSOcw1 0xAA#8) remapped = some (0xAA#8, 0xF8#8) := by decide
/-- V-P9, V-P10. -/
theorem test_eoi : after (·.master.isr) .outPicMEoi (withPics 0#8 0x05#8 0#8 0#8 0x30#8 0#8) = some 0x04#8 ∧
    after (·.slave.isr) .outPicSEoi (withPics 0#8 0x05#8 0#8 0#8 0x30#8 0#8) = some 0x20#8 ∧
    after (·.master.isr) .outPicMEoi remapped = some 0x00#8 := by decide
/-- V-P11. -/
theorem test_eoi_during_initialisation :
    after lastEntry .outPicMEoi (withInit .icw3 .ready) = some (some (.refused .eoiDuringInit)) ∧
    after lastEntry .outPicSEoi (withInit .icw3 .ready) = some (some (.out 0xA0#16 0x20#8)) := by decide
/-- V-P14; the master's own latched bits are added (R148's example), a latched bit 2 is not shown. -/
theorem test_read_irr :
    after lastEntry .inPicMIrr (withPics 0x81#8 0#8 0xF8#8 0x10#8 0#8 0xEF#8) = some (some (.inp 0x20#16 0x85#8)) ∧
    after lastEntry .inPicMIrr (withPics 0x04#8 0#8 0xF8#8 0#8 0#8 0xEF#8) = some (some (.inp 0x20#16 0x00#8)) ∧
    after lastEntry .inPicSIrr (withPics 0#8 0#8 0#8 0x55#8 0#8 0xFF#8) = some (some (.inp 0xA0#16 0x55#8)) := by decide
/-- V-P15; R149 for the master. -/
theorem test_read_imr : after lastEntry .inPicSImr remapped = some (some (.inp 0xA1#16 0xEF#8)) ∧
    after lastEntry .inPicMImr remapped = some (some (.inp 0x21#16 0xF8#8)) := by decide
/-- V-P17, V-P18. -/
theorem test_irq : after (·.slave.irr) (.irq 12#4) remapped = some 0x10#8 ∧
    after (·.slave.irr) (.irq 12#4) (withPics 0#8 0#8 0#8 0x10#8 0#8 0#8) = some 0x10#8 ∧
    after (·.master.irr) (.irq 7#4) remapped = some 0x80#8 := by decide
/-- V-P20, V-P26, V-P29, V-P30: latched and not delivered. -/
theorem test_output_blocked :
    intOut (withPics 0x08#8 0#8 0xF8#8 0#8 0#8 0xEF#8) = false ∧ intOut (withPics 0x02#8 0x01#8 0xF8#8 0#8 0#8 0xEF#8) = false ∧
    intOut (withPics 0#8 0x04#8 0xF8#8 0x10#8 0x10#8 0xEF#8) = false ∧
    intOut (withPics 0x08#8 0x04#8 0xF0#8 0#8 0#8 0xEF#8) = false := by decide
/-- V-P19. -/
theorem test_irq2 : after (fun s => (s.master.irr, lastEntry s)) .irq2 remapped =
    some (0x00#8, some (.refused .cascadeLineRaise)) := by decide
/-- V-P22, V-P28. -/
theorem test_inta_slave :
    after (fun s => (s.slave.isr, s.master.isr, s.slave.irr, lastEntry s)) .inta (withPics 0#8 0#8 0xF8#8 0x10#8 0#8 0xEF#8) =
      some (0x10#8, 0x04#8, 0x00#8, some (.inta 44#8)) ∧
    after lastEntry .inta (withPics 0#8 0#8 0xF8#8 0x11#8 0x10#8 0xEE#8) = some (some (.inta 40#8)) := by decide
/-- V-P21, V-P23, V-P25, V-P27. -/
theorem test_inta_master :
    after (fun s => (s.master.isr, s.master.irr, lastEntry s)) .inta (withPics 0x08#8 0#8 0xF0#8 0#8 0#8 0xEF#8) =
      some (0x08#8, 0x00#8, some (.inta 35#8)) ∧
    after lastEntry .inta (withPics 0x01#8 0#8 0xF8#8 0x10#8 0#8 0xEF#8) = some (some (.inta 32#8)) ∧
    after lastEntry .inta (withPics 0x01#8 0x04#8 0xF8#8 0#8 0x10#8 0xEF#8) = some (some (.inta 32#8)) ∧
    after lastEntry .inta (withPics 0x02#8 0x04#8 0xF8#8 0#8 0x10#8 0xEF#8) = some (some (.inta 33#8)) := by decide
/-- L1-8's table of vectors after `remap 32, 40`, and L1-9's after `remap 48, 56`. -/
theorem test_vectors :
    [(0x01#8, 0x00#8), (0x02#8, 0x00#8), (0x08#8, 0x00#8), (0x80#8, 0x00#8), (0x00#8, 0x01#8), (0x00#8, 0x10#8),
      (0x00#8, 0x80#8)].map (fun r => after lastEntry .inta (withPics r.1 0#8 0#8 r.2 0#8 0#8)) =
    [32#8, 33#8, 35#8, 39#8, 40#8, 44#8, 47#8].map (fun v => some (some (.inta v))) ∧
    vectorOf 48#8 7 = 55#8 ∧ vectorOf 56#8 4 = 60#8 := by decide

/-- A field of the state a run leaves, if it leaves one. -/
def afterRun {α : Type} (f : State → α) (is : List Instr) (s : State) : Option α :=
  match runInstrs is s with
  | .next t => some (f t)
  | .fault _ => none
  | .refused _ => none

/-- The vectors returned, oldest first. -/
def vectors (s : State) : List Byte := s.trace.filterMap fun e => match e with | .inta v => some v | _ => none

/-- R8: the mouse's handler is not interrupted by the timer; its end-of-interrupt, as `ack` or as the port writes, lets the
timer in (R309, R354). -/
theorem test_no_acknowledge_in_a_handler :
    afterRun vectors [.inta, .irq 0#4, .inta, .drain, .inta, .ack 44#8, .inta] (withPics 0#8 0#8 0xF8#8 0x10#8 0#8 0xEF#8) =
      some [44#8, 32#8] ∧
    afterRun vectors [.inta, .irq 0#4, .outPicMEoi, .inta, .outPicSEoi, .inta] (withPics 0#8 0#8 0xF8#8 0x10#8 0#8 0xEF#8) =
      some [44#8, 32#8] := by decide +kernel
/-- R157: after a return without an end-of-interrupt the CPU takes what outranks the line in service, and nothing else. -/
theorem test_missed_end_of_interrupt :
    (match runSteps 6 { withPics 0#8 0#8 0xF8#8 0x10#8 0#8 0xEF#8 with
        input := [.word 0x04000000#32, .handlerReturn, .word 0x0300000C#32, .word 0x04000000#32, .word 0x03000000#32,
          .word 0x04000000#32] } with
      | .next t => some (vectors t, t.handler)
      | .fault _ => none
      | .refused _ => none) = some ([44#8, 32#8], some ⟨32#8, false, true⟩) := by decide +kernel
/-- R75, R194, R118: the reason a wide access is refused for. -/
theorem test_wide_access :
    [0x60#16, 0x41#16, 0x42#16, 0x22#16].map (fun p => (wideAccess p State.reset).trace) =
    [[.refused .wideAccess], [.refused .timerReadOrOtherChannel], [.refused .timerReadOrOtherChannel],
      [.refused .unmappedPort]] := by decide

/-! The macro operations. -/

/-- V-P34: the vector is the new base's. -/
theorem test_remap_then_inta :
    (match exec (.remap 32#8 40#8)
        { State.reset with master := { State.reset.master with irr := 0x01#8 } } with
      | .next t => after lastEntry .inta t
      | .fault _ => none
      | .refused _ => none) = some (some (.inta 32#8)) := by decide +kernel
/-- V-P35. -/
theorem test_remap_refused :
    [Instr.remap 32#8 32#8, .remap 16#8 40#8, .remap 33#8 40#8].map (fun i => after (·.trace) i State.reset) =
    [some [.refused .badRemapOffsets], some [.refused .badRemapOffsets], some [.refused .badRemapOffsets]] := by decide
/-- V-P31, V-P33, L1-6. -/
theorem test_ack :
    after (fun s => (s.slave.isr, s.master.isr, s.trace)) (.ack 44#8) (withPics 0#8 0x04#8 0#8 0#8 0x10#8 0#8) =
      some (0x00#8, 0x00#8, [.out 0xA0#16 0x20#8, .out 0x20#16 0x20#8]) ∧
    after (fun s => (s.master.isr, s.trace)) (.ack 39#8) (withPics 0#8 0x80#8 0#8 0#8 0#8 0#8) =
      some (0x00#8, [.out 0x20#16 0x20#8]) := by decide
/-- V-P32. -/
theorem test_ack_outside : [31#8, 48#8, 8#8].map (fun v => after id (.ack v) remapped) =
    [some remapped, some remapped, some remapped] := by decide
/-- L1-10, V-T7. -/
theorem test_program :
    after (fun s => (s.pit.reload, s.pit.armed, s.trace)) (.program 0x1234#16) remapped =
      some (0x1234#16, true, [.out 0x43#16 0x34#8, .out 0x40#16 0x34#8, .out 0x40#16 0x12#8]) ∧
    after (·.trace) (.program 0xFFFF#16) remapped =
      some [.out 0x43#16 0x34#8, .out 0x40#16 0xFF#8, .out 0x40#16 0xFF#8] := by decide
/-- V-T5. -/
theorem test_program_refused : after (fun s => (s.pit, s.trace)) (.program 0#16) remapped =
    some (remapped.pit, [.refused .divisorOutOfRange]) := by decide
/-- V-A16: a drain of two mouse bytes leaves the position 2 and completes nothing. -/
theorem test_drain : after (fun s => (s.asm.pos, s.kbcQ, s.pktlog)) .drain
    { remapped with kbcQ := [(0x09#8, .aux), (0x05#8, .aux)] } = some (2#2, [], []) := by decide +kernel
/-- P4: a keyboard byte pushed inside the drain is read and lost, its line 1 stays latched. -/
theorem test_drain_with_a_push_inside :
    after (fun s => (s.asm.pos, s.kbcQ, s.master.irr, s.diag)) .drain
      { remapped with kbcQ := [(0x88#8, .aux)], inside := [[], [], [.push .kbd 0x1E#8]] } =
    some (1#2, [], 0x02#8, []) := by decide +kernel

/-- R351: an edge that falls inside a remap stays latched, and the masks come back. -/
theorem test_remap_with_an_edge_inside :
    after (fun s => (s.master, s.slave, s.inside)) (.remap 32#8 40#8)
      { State.reset with inside := [[], [], [], [], [], [], [.raise 12#4], [.raise 0#4]] } =
    some (⟨0x01#8, 0x00#8, 0xF8#8, 0x20#8, .ready⟩, ⟨0x10#8, 0x00#8, 0xEF#8, 0x28#8, .ready⟩, []) := by decide +kernel

/-! U2 and U5. -/

/-- V-T2. -/
theorem test_pit_ctrl : after (fun s => (s.pit.mode, s.pit.rw, s.pit.flip, s.pit.armed)) .outPitCtrl State.reset =
    some (2#3, .lohi, .low, false) := by decide
/-- V-T3. -/
theorem test_pit_ctrl_other : after (fun s => (s.pit, lastEntry s)) (.outPitCtrlOther 0x36#8) State.reset =
    some (State.reset.pit, some (.refused .unadmittedControlWord)) := by decide
/-- V-T4's second byte, V-T10. -/
theorem test_pit_data :
    after (fun s => (s.pit.reload, s.pit.flip, s.pit.armed)) (.outPitData 0x2E#8)
      { remapped with pit := ⟨2#3, .lohi, .high, 0x9C#8, 7#16, false⟩ } = some (11932#16, .low, true) ∧
    after (fun s => s.pit) (.outPitData 0x56#8) { remapped with pit := ⟨2#3, .lohi, .low, 0x34#8, 0x1234#16, true⟩ } =
      some ⟨2#3, .lohi, .high, 0x56#8, 0x1234#16, true⟩ := by decide
/-- V-T1. -/
theorem test_pit_data_unset : after lastEntry (.outPitData 0x12#8) State.reset =
    some (some (.refused .dataBeforeControlWord)) := by decide
/-- V-T11. -/
theorem test_pit_refused : [Instr.inPitData, .inPitCtrl, .outPitCh2 0#8, .outPitCh1 0#8, .inPitCh1, .inPitCh2].map
      (fun i => after (·.trace) i State.reset) =
    List.replicate 6 (some [.refused .timerReadOrOtherChannel]) := by decide
/-- R118: the delay port is not read, other ports do not exist. -/
theorem test_unmapped : [Instr.inIoWait, .outUnmapped 0x22#16 0#8, .inUnmapped 0xFFFF#16].map
      (fun i => after (·.trace) i State.reset) = List.replicate 3 (some [.refused .unmappedPort]) := by decide
/-- V-C1, V-C2, V-C4. -/
theorem test_clock : after (·.clk) .clockAdvance (atTime 0 0) = some ⟨0#64, 1⟩ ∧
    after (·.clk) .clockAdvance (atTime 3 99) = some ⟨4#64, 0⟩ ∧
    after (·.clk) .clockAdvance (atTime (2 ^ 64 - 1) 99) = some ⟨0#64, 0⟩ := by decide
/-- V-C3. -/
theorem test_clock_one_tick_per_second : after (·.clk) .clockAdvance
    { atTime 7 0 with par := { remapped.par with tpsLess1 := 0 } } = some ⟨8#64, 0⟩ := by decide

/-! The 8042 and U3. -/

/-- V-A1 to V-A3, whatever the free bits. -/
theorem test_status_byte (d : Byte) :
    (kbcStatus 0x20#8 [] d).getLsbD 0 = false ∧ kbcStatus 0x20#8 [(0x09#8, .aux)] d &&& 0x21#8 = 0x21#8 ∧
    kbcStatus 0x20#8 [(0x1E#8, .kbd)] d &&& 0x21#8 = 0x01#8 := by revert d; decide +kernel
/-- V-A4. -/
theorem test_data_read : after (fun s => (s.kbcQ, lastEntry s)) .inKbcData
    { remapped with kbcQ := [(0x09#8, .aux), (0x05#8, .aux)] } =
    some ([(0x05#8, .aux)], some (.inp 0x60#16 0x09#8)) := by decide
/-- V-A5. -/
theorem test_data_read_empty : after (fun s => (s.kbcQ, s.draws)) .inKbcData remapped = some ([], 1) := by decide
/-- V-A6, V-A7. -/
theorem test_push : after (fun s => (s.kbcQ, s.slave.irr, s.master.irr)) (.kbcPush .aux 0x09#8) remapped =
      some ([(0x09#8, .aux)], 0x10#8, 0x00#8) ∧
    after (fun s => (s.kbcQ, s.slave.irr, s.master.irr)) (.kbcPush .kbd 0x1E#8) remapped =
      some ([(0x1E#8, .kbd)], 0x00#8, 0x02#8) := by decide
/-- V-A19, R119. -/
theorem test_writes_without_effect :
    [Instr.outKbcCmd 0xA8#8, .outKbcData 0xF4#8, .outIoWait 0#8].map (fun i => after ({ · with trace := [] }) i remapped) =
    [some remapped, some remapped, some remapped] := by decide
/-- V-A8, V-A9, V-A15. -/
theorem test_accept :
    after id (.accept 0x01#8 0x1E#8) (withAsm 0x07#8 0#8 0#8 1#2) = some (withAsm 0x07#8 0#8 0#8 1#2) ∧
    after (·.asm) (.accept 0x21#8 0x08#8) (withAsm 0#8 0#8 0#8 0#2) = some ⟨0x08#8, 0#8, 0#8, 1#2⟩ ∧
    after (fun s => (s.diag, s.asm)) (.accept 0x21#8 0x55#8) (withAsm 1#8 2#8 3#8 3#2) =
      some ([.badCyclePosition 3#2 0x55#8], ⟨1#8, 2#8, 3#8, 3#2⟩) := by decide
/-- V-A10, V-A11. -/
theorem test_accept_overflow :
    after (fun s => (s.asm.pos, s.diag, s.pktlog, s.evlog)) (.accept 0x21#8 0x10#8) (withAsm 0x88#8 0x10#8 0#8 2#2) =
      some (0#2, [.packetOverflowDropped 0x88#8 0x10#8 0x10#8], [], []) ∧
    after (fun s => (s.asm.pos, s.pktlog)) (.accept 0x21#8 0x00#8) (withAsm 0x48#8 0#8 0#8 2#2) = some (0#2, []) := by decide
/-- V-A12, V-A13. -/
theorem test_packet : after (·.pktlog) (.accept 0x21#8 0x7F#8) { withAsm 0x07#8 0x80#8 0#8 2#2 with clk := ⟨1#64, 0⟩ } =
      some [⟨-128, 127, true, true, true, ⟨1#64, 0⟩⟩] ∧
    after (·.pktlog) .packetComplete (withAsm 0x08#8 0xFF#8 0x01#8 0#2) =
      some [⟨-1, 1, false, false, false, ⟨0#64, 0⟩⟩] := by decide
/-- V-A14; V-F3's events. -/
theorem test_packet_events : after events .packetComplete (withAsm 0x3A#8 0#8 0#8 0#2) =
      some [(.left, .release), (.right, .doubleClick), (.middle, .release)] ∧
    after events .packetComplete { withAsm 0x01#8 0x05#8 0xFB#8 0#2 with clk := ⟨2#64, 10⟩ } =
      some [(.left, .click), (.right, .release), (.middle, .release)] := by decide

/-! U4. -/

/-- V-F1, V-F2: the window is inclusive. -/
theorem test_window :
    after (fun s => (events s, (s.btn.get .left).lastFresh)) (.buttonUpdate .left true) (withFresh .left 1 0 (atTime 1 50)) =
      some ([(.left, .doubleClick)], ⟨0#64, 0⟩) ∧
    after (fun s => (events s, (s.btn.get .left).lastFresh)) (.buttonUpdate .left true) (withFresh .left 1 0 (atTime 1 51)) =
      some ([(.left, .click)], ⟨1#64, 51⟩) := by decide
/-- V-F7's release keeps the fresh click; V-F11's right button double-clicks. -/
theorem test_release_and_right :
    after (fun s => (events s, (s.btn.get .left).lastFresh)) (.buttonUpdate .left false) (withFresh .left 4 0 (atTime 4 10)) =
      some ([(.left, .release)], ⟨4#64, 0⟩) ∧
    after events (.buttonUpdate .right true) (withFresh .right 6 0 (atTime 6 30)) = some [(.right, .doubleClick)] := by decide
/-- V-F12, V-F13. -/
theorem test_register :
    after (fun s => (s.cb.left.click, s.cb.left.release)) (.onEvent 0#2 0#2 7#20)
      { remapped with cb := ⟨⟨[3#20], [], []⟩, noCallbacks, noCallbacks⟩ } = some ([3#20, 7#20], []) ∧
    after (·.cb.middle.doubleClick) (.onEvent 2#2 1#2 2#20) remapped = some [2#20] := by decide
/-- V-F15. -/
theorem test_register_refused : [Instr.onEvent 3#2 0#2 0#20, .onEvent 0#2 3#2 0#20].map (fun i => after (·.trace) i remapped) =
    [some [.refused .badOnField], some [.refused .badOnField]] := by decide

/-! One step. -/

/-- The word placed as the next transaction runs as the first after reset (R200). -/
theorem test_step : step (State.reset.withFetchWord 32 0x15000000) = .next { State.reset with clk := ⟨0#64, 1⟩ } := rfl
/-- R75: a wide access to a named port; R118 for any other port. -/
theorem test_step_wide :
    step { State.reset with input := [.wide 0x20#16] } =
      .next { State.reset with refused := true, trace := [.refused .wideAccess] } ∧
    step { State.reset with input := [.wide 0x22#16] } =
      .next { State.reset with refused := true, trace := [.refused .unmappedPort] } := ⟨rfl, rfl⟩
/-- V-E20: an unlisted kind is marked (R117). -/
theorem test_step_invalid : step (State.reset.withFetchWord 32 0x7F000000) =
    .next { State.reset with refused := true, trace := [.invalid 0x7F000000#32] } := rfl

/-! For every statement that has hypotheses, a state and operands that meet them, at the ends of the ranges. -/

theorem witness_DecodeOfEncodeIsTheInstruction :
    ∀ e ∈ ([(.outPicMIcw2 0xFF#8, .icw2, .ready), (.outPicSOcw1 0xFF#8, .icw3, .ready), (.irq 15#4, .ready, .ready),
        (.outUnmapped 0xFFFF#16 0xFF#8, .ready, .ready), (.onEvent 3#2 3#2 0xFFFFF#20, .icw4, .icw4)] :
        List (Instr × Init × Init)), e.1.wf = true ∧ e.1.readUnder e.2.1 e.2.2 = true := by decide
theorem witness_EncodeOfDecodeIsTheWord :
    decode .icw3 .ready 0x010021FF#32 = .instr (.outPicMIcw3 0xFF#8) ∧
    decode .icw3 .ready 0x16FFFFFF#32 = .instr (.onEvent 3#2 3#2 0xFFFFF#20) := by decide

/-- R111's kinds with the operand bits it leaves unassigned. -/
def layout : List (Byte × Word) :=
  [(0x01#8, 0x00000000#32), (0x02#8, 0x000000FF#32), (0x03#8, 0x00FFFFF0#32), (0x04#8, 0x00FFFFFF#32),
   (0x05#8, 0x00FFFE00#32), (0x10#8, 0x00FF0000#32), (0x11#8, 0x00FFFF00#32), (0x12#8, 0x00FF0000#32),
   (0x13#8, 0x00FFFFFF#32), (0x14#8, 0x00FF0000#32), (0x15#8, 0x00FFFFFF#32), (0x16#8, 0x00000000#32),
   (0x20#8, 0x00FFFFFF#32), (0x21#8, 0x00FFFFF8#32)]

/-- The timer's handler running after remap, the mouse's request and a keyboard's pending. -/
def timerRuns : State := { withPics 0x02#8 0x01#8 0xF8#8 0x10#8 0#8 0xEF#8 with handler := some ⟨32#8, false, true⟩ }
/-- The mouse's handler running after remap, another timer request pending. -/
def mouseRuns : State := { withPics 0x01#8 0x04#8 0xF8#8 0#8 0x10#8 0xEF#8 with handler := some ⟨44#8, true, true⟩ }

theorem witness_ReservedWordsAreInvalid :
    ([0x04000001#32, 0x7F000000#32, 0x05000200#32, 0x21000008#32].all fun (w : Word) => layout.all fun e =>
      decide (w.extractLsb' 24 8 = e.1 → w &&& e.2 ≠ 0#32)) = true := by decide
theorem witness_ListedWordsAreTransactions :
    ([0x01FFFFFF#32, 0x050001FF#32, 0x16FFFFFF#32, 0x21000006#32, 0x21000007#32].all fun (w : Word) => layout.any fun e =>
      decide (w.extractLsb' 24 8 = e.1 ∧ w &&& e.2 = 0#32)) = true := by decide
theorem witness_ReadingDependsOnInitOnlyAtOddPorts :
    ∀ w ∈ [0x01002020#32, 0x02002100#32, 0x04000000#32],
      ¬((w : Word).extractLsb' 24 8 = 0x01#8 ∧ (w.extractLsb' 8 16 = 0x21#16 ∨ w.extractLsb' 8 16 = 0xA1#16)) := by
  simp only [List.forall_mem_cons, List.not_mem_nil, false_implies, implies_true, and_true]
  decide
theorem witness_StepRunsTheDecodedTransaction :
    (State.reset.withFetchWord 32 0x04000000).input = [.word 0x04000000#32] ∧
    decode State.reset.master.init State.reset.slave.init 0x04000000#32 = .instr .inta := by decide
theorem witness_StepWithoutATransaction :
    State.reset.input = [] ∧ decode State.reset.master.init State.reset.slave.init 0x04000001#32 = .invalid .reservedBit ∧
    (State.reset.withFetchWord 32 0x04000001).input = [.word 0x04000001#32] ∧
    (([0x20#16, 0x80#16, 0x41#16, 0x42#16, 0x44#16] : List Port).all fun p =>
      ({ State.reset with input := [.wide p] } : State).input = [.wide p]) = true ∧
    ({ State.reset with input := [.handlerReturn] } : State).input = [.handlerReturn] ∧ State.reset.handler = none ∧
    timerRuns.handler = some ⟨32#8, false, true⟩ := by decide
theorem witness_EveryStepKeepsTheInvariant :
    Inv (State.reset.withFetchWord 32 0x05000109) ∧ ∃ t, step (State.reset.withFetchWord 32 0x05000109) = .next t ∧
      t.kbcQ = [(0x09#8, .aux)] :=
  ⟨{ masterBase := rfl
     slaveBase := rfl
     cascadeNotLatched := rfl
     clockTick := by decide
     cyclePosition := by decide
     timerUnset := fun _ => ⟨rfl, rfl, rfl⟩
     timerMode := fun h => nomatch h
     buttonTicks := fun b => by cases b <;> decide
     packets := fun _ h => nomatch h
     handlersDoNotNest := rfl
     handlerOwes := fun _ h => nomatch h }, _, rfl, rfl⟩
theorem witness_InitialisationWordOne :
    ∀ v ∈ [0x10#8, 0x12#8, 0xFF#8], (v : Byte).getLsbD 4 = true ∧ v ≠ 0x11#8 := by decide
theorem witness_EndOfInterruptClearsTheHighestLine :
    State.reset.master.init = .ready ∧ State.reset.slave.init = .ready ∧ (withInit .icw4 .icw2).master.init ≠ .ready ∧
    (withInit .icw4 .icw2).slave.init ≠ .ready ∧ State.reset.handler = none ∧ timerRuns.handler = some ⟨32#8, false, true⟩ ∧
    mouseRuns.handler = some ⟨44#8, true, true⟩ ∧ timerRuns.master.init = .ready ∧ mouseRuns.master.init = .ready ∧
    mouseRuns.slave.init = .ready ∧
    ({ mouseRuns with handler := some ⟨44#8, true, false⟩ } : State).handler = some ⟨44#8, true, false⟩ := by decide
theorem witness_OtherEvenPortWritesAreRefused :
    ∀ v ∈ [0x00#8, 0x10#8, 0x12#8, 0x21#8, 0xFF#8], (v : Byte) ≠ 0x11#8 ∧ v ≠ 0x20#8 := by decide
theorem witness_DeviceEdgeLatchesTheRequest :
    (∀ n ∈ [0#4, 1#4, 3#4, 7#4], (n : BitVec 4) ≠ 2#4 ∧ n.toNat < 8) ∧ ∀ n ∈ [8#4, 15#4], 8 ≤ (n : BitVec 4).toNat := by
  decide

/-- A timer request and a mouse request pending after remap. -/
def bothPending : State := withPics 0x01#8 0#8 0xF8#8 0x10#8 0#8 0xEF#8
/-- Only the mouse's request pending after remap. -/
def mousePending : State := withPics 0#8 0#8 0xF8#8 0x10#8 0#8 0xEF#8
/-- The mouse's delivery in service after remap. -/
def mouseInService : State := withPics 0#8 0x04#8 0xF8#8 0#8 0x10#8 0xEF#8

theorem witness_AcknowledgeDeliversTheHighestRequest :
    mouseRuns.handler ≠ none ∧ intOut mouseRuns = true ∧ bothPending.handler = none ∧ mousePending.handler = none ∧
    intOut bothPending = true ∧ lowest (reqM bothPending) = 0 ∧ intOut mousePending = true ∧
    lowest (reqM mousePending) = 2 ∧ intOut (withPics 0x80#8 0#8 0#8 0#8 0#8 0#8) = true := by decide
theorem witness_SpuriousAcknowledge :
    remapped.handler = none ∧ intOut remapped = false ∧ remapped.par.spurious = false ∧
    ({ remapped with par := { remapped.par with spurious := true } } : State).par.spurious = true := by decide
/-- A boot with a handshake that reads and writes, a mouse byte and a registration beside it (P1). -/
def aHandshake : List Instr := [.inKbcStatus, .outKbcCmd 0xA8#8, .inKbcData]
def aBoot : List Instr :=
  [.irq 0#4, .remap 32#8 40#8, .program 11932#16, .kbcPush .aux 0xFA#8, .inKbcStatus, .outKbcCmd 0xA8#8, .inKbcData,
   .onEvent 0#2 0#2 1#20]

theorem test_a_boot : (aHandshake.all handshakeStep && boots (bootSequence 11932#16 aHandshake) aBoot) = true ∧
    boots (bootSequence 11932#16 aHandshake) (.inta :: aBoot) = false := by decide

/-- The transactions after a remap: a keyboard edge, and the keyboard masked. -/
def laterTransactions : List Instr := [.irq 1#4, .outPicMOcw1 0xFA#8]

theorem witness_VectorsAfterRemap :
    (∀ i ∈ laterTransactions, (∀ v, i ≠ .outPicMIcw2 v ∧ i ≠ .outPicSIcw2 v) ∧ ∀ a b, i ≠ .remap a b) ∧
    (∃ r t u, exec (.remap 32#8 40#8) bothPending = .next r ∧ runInstrs laterTransactions r = .next t ∧ intOut t = true ∧
      t.handler = none ∧ exec .inta t = .next u ∧ u.master.isr = 0x01#8) ∧
    ((∀ i ∈ aHandshake, handshakeStep i = true) ∧ boots (bootSequence 11932#16 aHandshake) aBoot = true ∧
      ∃ t, runInstrs (aBoot ++ [.inta]) { State.resetWith .illustrative .zero with inside := [], insideEver := [] } =
        .next t ∧ Entry.inta 32#8 ∈ t.trace) ∧
    ∃ r t u, exec (.remap 0xF8#8 32#8) mousePending = .next r ∧ runInstrs laterTransactions r = .next t ∧ intOut t = true ∧
      t.handler = none ∧ exec .inta t = .next u ∧ u.slave.isr = 0x10#8 := by
  refine ⟨?_, ⟨_, _, _, rfl, rfl, by decide, rfl, rfl, by decide⟩, ⟨by decide, by decide, _, rfl, by decide +kernel⟩,
    ⟨_, _, _, rfl, rfl, by decide, rfl, rfl, by decide⟩⟩
  intro i hi
  simp only [laterTransactions, List.mem_cons, List.not_mem_nil, or_false] at hi
  rcases hi with rfl | rfl <;> exact ⟨fun _ => ⟨nofun, nofun⟩, fun _ _ => nofun⟩
theorem witness_MissedEndOfInterruptBlocksForEver :
    (∀ i ∈ ([.irq 12#4, .inta, .irq 0#4, .inta] : List Instr), i ≠ .outPicMEoi ∧ i ≠ .outPicSEoi ∧ ∀ v, i ≠ .ack v) ∧
    (∃ t, runInstrs [.irq 12#4, .inta, .irq 0#4, .inta] mouseInService = .next t) ∧
    mouseInService.master.isr.getLsbD 2 = true ∧ mouseInService.slave.isr.getLsbD 4 = true ∧
    (withPics 0x80#8 0x80#8 0#8 0x80#8 0x80#8 0#8).master.isr.getLsbD 7 = true ∧
    (withPics 0x80#8 0x80#8 0#8 0x80#8 0x80#8 0#8).slave.isr.getLsbD 7 = true := by
  refine ⟨?_, ⟨_, rfl⟩, by decide, by decide, by decide, by decide⟩
  intro i hi
  simp only [List.mem_cons, List.not_mem_nil, or_false] at hi
  rcases hi with rfl | rfl | rfl | rfl <;> exact ⟨by decide, by decide, fun _ => nofun⟩
theorem witness_OnlyDeliveryClearsARequest :
    (∃ t, exec .inta bothPending = .next t) ∧ bothPending.master.irr.getLsbD 0 = true ∧
    (∃ t, exec .inta mousePending = .next t) ∧ mousePending.slave.irr.getLsbD 4 = true := by
  exact ⟨⟨_, rfl⟩, by decide, ⟨_, rfl⟩, by decide⟩
theorem witness_MasksChangeOnlyByTheirWords :
    (11932#16 ≠ 0#16 ∧ (∀ i ∈ aHandshake, handshakeStep i = true) ∧
      boots (bootSequence 11932#16 aHandshake) aBoot = true) ∧
    ∃ t, exec (.outPicMOcw1 0x55#8) remapped = .next t ∧ t.master.imr ≠ remapped.master.imr :=
  ⟨by decide, _, rfl, by decide⟩
theorem witness_RemapNetEffect :
    (∀ o ∈ ([(32#8, 40#8), (248#8, 32#8)] : List (Byte × Byte)),
      o.1.toNat % 8 = 0 ∧ o.2.toNat % 8 = 0 ∧ 32 ≤ o.1.toNat ∧ 32 ≤ o.2.toNat ∧ o.1 ≠ o.2) ∧
    (∀ o ∈ ([(24#8, 40#8), (32#8, 32#8), (32#8, 41#8)] : List (Byte × Byte)),
      ¬(o.1.toNat % 8 = 0 ∧ o.2.toNat % 8 = 0 ∧ 32 ≤ o.1.toNat ∧ 32 ≤ o.2.toNat ∧ o.1 ≠ o.2)) ∧
    Idle State.reset := by
  simp only [List.forall_mem_cons, List.not_mem_nil, false_implies, implies_true, and_true]
  exact ⟨by decide, by decide, rfl, rfl⟩
theorem witness_AcknowledgeByVector :
    remapped.master.init = .ready ∧ remapped.slave.init = .ready ∧
    (∀ v ∈ [32#8, 39#8], remapped.master.base.toNat ≤ (v : Byte).toNat ∧ v.toNat < remapped.master.base.toNat + 8) ∧
    (∀ v ∈ [40#8, 47#8], remapped.slave.base.toNat ≤ (v : Byte).toNat ∧ v.toNat < remapped.slave.base.toNat + 8) ∧
    (∀ v ∈ [0#8, 31#8, 40#8, 48#8, 255#8],
      ¬(remapped.master.base.toNat ≤ (v : Byte).toNat ∧ v.toNat < remapped.master.base.toNat + 8)) ∧
    ∀ v ∈ [0#8, 31#8, 48#8, 255#8],
      ¬(remapped.slave.base.toNat ≤ (v : Byte).toNat ∧ v.toNat < remapped.slave.base.toNat + 8) := by decide
theorem witness_AcknowledgeReopensBothControllers :
    (∀ x, Idle (withPics 0#8 0x04#8 0xF8#8 0#8 x 0xEF#8)) ∧ mouseRuns.handler = some ⟨mouseRuns.slave.base + 4#8, true, true⟩ ∧
    ∀ j ∈ [0, 4, 7], let s := withPics 0#8 0x04#8 0xF8#8 0#8 (1#8 <<< j) 0xEF#8
      j < 8 ∧ s.handler = none ∧ s.master.init = .ready ∧ s.slave.init = .ready ∧ s.slave.base.toNat % 8 = 0 ∧
      ¬(s.master.base.toNat ≤ s.slave.base.toNat + j ∧ s.slave.base.toNat + j < s.master.base.toNat + 8) ∧
      s.master.isr = 0x04#8 ∧ s.slave.isr = 1#8 <<< j := ⟨fun _ => ⟨rfl, rfl⟩, by decide, by decide⟩
theorem witness_OrderOfTheTwoEndOfInterrupts :
    mouseRuns.handler = some ⟨44#8, true, true⟩ ∧ ∃ t u, exec .outPicSEoi mouseRuns = .next t ∧
      exec .outPicMEoi mouseRuns = .next u ∧ intOut u = true := ⟨rfl, _, _, rfl, rfl, by decide⟩
theorem witness_TimerControlWord : ∀ v ∈ [0x00#8, 0x33#8, 0x35#8, 0xFF#8], (v : Byte) ≠ 0x34#8 := by decide

/-- After the control word; with `flip` as the next byte. -/
def counting (flip : Flip) : State := { remapped with pit := ⟨2#3, .lohi, flip, 0x9C#8, 0#16, false⟩ }

theorem witness_TimerCountByte :
    State.reset.pit.rw = .unset ∧ (counting .low).pit.rw = .lohi ∧ (counting .low).pit.flip = .low ∧
    (counting .high).pit.rw = .lohi ∧ (counting .high).pit.flip = .high := by decide
theorem witness_ProgramLoadsTheDivisor : 1#16 ≠ 0#16 ∧ 65535#16 ≠ 0#16 ∧ (0#16 : BitVec 16) = 0#16 := by decide
theorem witness_ClockAdvancesOneTick :
    (atTime 3 99).clk.tick + 1 = (atTime 3 99).par.tps ∧ (atTime 3 98).clk.tick + 1 ≠ (atTime 3 98).par.tps := by decide
theorem witness_ClockCountsItsAdvances :
    ((atTime 3 99).clk.tick < (atTime 3 99).par.tps ∧ (∃ t, exec .clockAdvance (atTime 3 99) = .next t) ∧
      (atTime 3 99).clk.sec.toNat * (atTime 3 99).par.tps + (atTime 3 99).clk.tick + 1 < 2 ^ 64 * (atTime 3 99).par.tps) ∧
    (∃ t, runInstrs [.clockAdvance, .irq 0#4, .clockAdvance] (State.resetWith .illustrative .zero) = .next t) ∧
    ([.clockAdvance, .irq 0#4, .clockAdvance] : List Instr).count .clockAdvance < 2 ^ 64 * Params.illustrative.tps :=
  ⟨⟨by decide, ⟨_, rfl⟩, by decide⟩, ⟨_, rfl⟩, by decide⟩
theorem witness_OnlyClockAdvanceWritesTheClock :
    (∃ t, exec .drain remapped = .next t) ∧ Instr.drain ≠ .clockAdvance := ⟨⟨_, rfl⟩, by decide⟩

/-- Bytes in the 8042's queue. -/
def queued (q : List (Byte × Src)) : State := { remapped with kbcQ := q }

theorem witness_KeyboardControllerStatus :
    (queued [(0x09#8, .aux)]).kbcQ = (0x09#8, .aux) :: [] ∧ (queued [(0x1E#8, .kbd)]).kbcQ = (0x1E#8, .kbd) :: [] := by decide
theorem witness_KeyboardControllerData :
    (queued [(0x1E#8, .kbd), (0x09#8, .aux)]).kbcQ = (0x1E#8, .kbd) :: [(0x09#8, .aux)] ∧ (queued []).kbcQ = [] := by decide
theorem witness_OtherPortAccessesAreRefused :
    ∃ i j : Instr, (i = .inPitData ∨ i = .inPitCtrl ∨ i = .outPitCh1 0#8 ∨ i = .outPitCh2 0#8 ∨ i = .inPitCh1 ∨
      i = .inPitCh2) ∧ (j = .inIoWait ∨ j = .outUnmapped 0x22#16 0#8 ∨ j = .inUnmapped 0x22#16) :=
  ⟨.inPitCh2, .inUnmapped 0x22#16, by simp, by simp⟩
theorem witness_AcceptFillsTheCycleBuffer :
    (0x01#8 &&& remapped.par.auxMask = 0#8) ∧ (0x21#8 &&& remapped.par.auxMask ≠ 0#8) ∧ (withAsm 0#8 0#8 0#8 0#2).asm.pos = 0#2 ∧
    (withAsm 0#8 0#8 0#8 1#2).asm.pos = 1#2 ∧ (withAsm 0#8 0#8 0#8 2#2).asm.pos = 2#2 ∧
    (withAsm 0#8 0#8 0#8 3#2).asm.pos = 3#2 := by decide
theorem witness_PacketCompletion :
    (withAsm 0x40#8 0#8 0#8 0#2).asm.buf0.getLsbD 6 = true ∧ (withAsm 0x80#8 0#8 0#8 0#2).asm.buf0.getLsbD 7 = true ∧
    (withAsm 0x3F#8 0#8 0#8 0#2).asm.buf0.getLsbD 6 = false ∧ (withAsm 0x3F#8 0#8 0#8 0#2).asm.buf0.getLsbD 7 = false := by
  decide
theorem witness_OverflowedPacketIsDropped :
    0x21#8 &&& (withAsm 0x40#8 0#8 0#8 2#2).par.auxMask ≠ 0#8 ∧ (withAsm 0x40#8 0#8 0#8 2#2).asm.pos = 2#2 ∧
    (withAsm 0x40#8 0#8 0#8 2#2).asm.buf0 &&& 0xC0#8 ≠ 0#8 := by decide
theorem witness_PacketIgnoresBitsThreeToFive :
    (withAsm 0x3A#8 1#8 2#8 0#2).asm.buf0 &&& 0xC7#8 = 0x02#8 &&& 0xC7#8 ∧ 0x02#8 &&& 0xC0#8 = 0#8 ∧
    (∃ t, exec .packetComplete (withAsm 0x3A#8 1#8 2#8 0#2) = .next t) ∧
    ∃ u, exec .packetComplete (withAsm 0x02#8 1#8 2#8 0#2) = .next u := ⟨by decide, by decide, ⟨_, rfl⟩, ⟨_, rfl⟩⟩
/-- With the devices idle and nothing queued; and with a mouse byte pushed first and a keyboard byte later. -/
theorem witness_DrainIsItsLoop :
    let s : State := { remapped with inside := [[.push .aux 0x09#8], [.push .kbd 0x1E#8]] }
    (∃ s1, runInstrs ((remapped.inside.headD remapped.insideEver).map DevStep.instr) (withoutTurns remapped 1) = .next s1 ∧
      s1.kbcQ = []) ∧
    ∃ s1, runInstrs ((s.inside.headD s.insideEver).map DevStep.instr) (withoutTurns s 1) = .next s1 ∧ s1.kbcQ = (0x09#8, .aux) :: [] :=
  ⟨⟨_, rfl, rfl⟩, ⟨_, rfl, rfl⟩⟩
/-- The devices push a mouse byte before every transaction, for ever. -/
def flooded : State := { remapped with insideEver := [.push .aux 0x09#8], input := [.word 0x13000000#32] }

theorem witness_DrainEndsWithTheQueueEmpty :
    flooded.inside = [] ∧ flooded.insideEver.any isPush = true ∧ flooded.input = .word 0x13000000#32 :: [] := by decide
/-- V-A17's state; and P4's, whose bytes come inside the drain. -/
theorem witness_PartialPacketsResume :
    let s := { withAsm 0#8 0#8 0#8 2#2 with
      kbcQ := [(0#8, .aux), (1#8, .aux), (2#8, .aux), (3#8, .aux)] }
    let u : State := { remapped with inside := [[.push .aux 0x88#8], [], [.push .kbd 0x1E#8], [.push .aux 0x10#8]] }
    Idle s ∧ s.asm.pos ≠ 3#2 ∧ (∃ t, exec .drain s = .next t) ∧ u.asm.pos ≠ 3#2 ∧ (∃ t, exec .drain u = .next t) ∧
      ∃ t, exec .drain flooded = .next t :=
  ⟨⟨rfl, rfl⟩, by decide, ⟨_, rfl⟩, by decide, ⟨_, rfl⟩, ⟨_, rfl⟩⟩
theorem witness_KeyboardBytesAreLostInADrain :
    let s := queued [(0x1E#8, .kbd), (0x09#8, .aux)]
    Idle s ∧ (∃ t, exec .drain s = .next t) ∧
      ∃ u, exec .drain { s with kbcQ := s.kbcQ.filter (·.2 == .aux) } = .next u := ⟨⟨rfl, rfl⟩, ⟨_, rfl⟩, ⟨_, rfl⟩⟩
/-- V-F1 and V-F2: 50 ticks are within the window, 51 are not. -/
theorem witness_ButtonStep :
    ∀ e ∈ ([(50, true), (51, false)] : List (Nat × Bool)),
      let s := withFresh .left 1 0 (atTime 1 e.1)
      (2 * (((s.clk.sec.toNat * s.par.tps + s.clk.tick : Nat) : Int) -
        (((s.btn.get .left).lastFresh.sec.toNat * s.par.tps + (s.btn.get .left).lastFresh.tick : Nat) : Int)) ≤ s.par.tps) ↔
        e.2 = true := by decide
theorem witness_ThreeEventsPerPacket :
    (∃ t, exec (.accept 0x21#8 0x10#8) (withAsm 0x07#8 0#8 0#8 2#2) = .next t) ∧
    (∀ b x, Instr.accept 0x21#8 0x10#8 ≠ .buttonUpdate b x) ∧ (withAsm 0x3F#8 0#8 0#8 0#2).asm.buf0 &&& 0xC0#8 = 0#8 :=
  ⟨⟨_, rfl⟩, fun _ _ => nofun, by decide⟩
/-- V-F5: the last tick of the boot window. -/
theorem witness_BootWindowDoubleClick :
    2 * ((atTime 0 50).clk.sec.toNat * (atTime 0 50).par.tps + (atTime 0 50).clk.tick) ≤ (atTime 0 50).par.tps ∧
    ((atTime 0 50).btn.get .left).lastFresh = ⟨0#64, 0⟩ := by decide
/-- V-F9's times. -/
theorem witness_HeldButtonAlternates :
    let times : List Timestamp := [⟨2#64, 0⟩, ⟨2#64, 10⟩, ⟨2#64, 20⟩, ⟨2#64, 30⟩]
    let at_ : Timestamp → Int := fun t => ((t.sec.toNat * State.reset.par.tps + t.tick : Nat) : Int)
    (∀ t ∈ times, (State.reset.par.tps : Int) < 2 * at_ t) ∧
    (∀ t ∈ times.head?, (State.reset.par.tps : Int) < 2 * (at_ t - at_ (State.reset.btn.get .left).lastFresh)) ∧
    times.IsChain (fun t u => 2 * (at_ u - at_ t) ≤ (State.reset.par.tps : Int)) := by
  refine ⟨by decide, by decide, ?_⟩
  simp only [List.isChain_cons_cons, List.isChain_singleton]
  decide
/-- Left held in one state and never pressed in the other. -/
theorem witness_ButtonHistoryHasNoInfluence :
    let u : State := { remapped with btn := remapped.btn.set .left ⟨.clicked, ⟨9#64, 9⟩, ⟨0#64, 0⟩⟩ }
    { remapped with btn := u.btn } = u ∧ (∀ b, (remapped.btn.get b).lastFresh = (u.btn.get b).lastFresh) ∧
    remapped.btn ≠ u.btn ∧ (∃ t, runInstrs [.drain, .packetComplete] remapped = .next t) ∧
    ∃ t, runInstrs [.drain, .packetComplete] u = .next t :=
  ⟨rfl, fun b => by cases b <;> rfl, by decide, ⟨_, rfl⟩, ⟨_, rfl⟩⟩
theorem witness_RegistrationAppends : ((3#2 : BitVec 2) = 3#2 ∨ (0#2 : BitVec 2) = 3#2) ∧ Button.middle.code = 2#2 := by decide
theorem witness_OutputsOnlyGrow : ∃ t, step (State.reset.withFetchWord 32 0x20000000) = .next t ∧ t.pktlog ≠ [] :=
  ⟨_, rfl, by decide⟩
/-- The keyboard's line pending, the timer's not, with its byte queued and with its byte lost; and the timer's pending. -/
theorem witness_TimerAndKeyboardHandlersServe :
    let k := { withPics 0x02#8 0#8 0xF8#8 0#8 0#8 0xEF#8 with kbcQ := [(0x1E#8, .kbd)] }
    let e := withPics 0x02#8 0#8 0xF8#8 0#8 0#8 0xEF#8
    (Idle bothPending ∧ Idle k ∧ Idle e) ∧ bothPending.handler = none ∧ k.handler = none ∧ e.handler = none ∧ e.kbcQ = [] ∧
    e.master = k.master ∧ bothPending.master.init = .ready ∧ bothPending.master.base = 32#8 ∧
    bothPending.slave.base = 40#8 ∧ bothPending.master.isr = 0#8 ∧ bothPending.master.irr.getLsbD 0 = true ∧
    bothPending.master.imr.getLsbD 0 = false ∧ k.master.init = .ready ∧ k.master.base = 32#8 ∧
    k.slave.base = 40#8 ∧ k.master.isr = 0#8 ∧ k.kbcQ = (0x1E#8, .kbd) :: [] ∧ k.master.irr.getLsbD 0 = false ∧
    k.master.irr.getLsbD 1 = true ∧ k.master.imr.getLsbD 1 = false :=
  ⟨⟨⟨rfl, rfl⟩, ⟨rfl, rfl⟩, ⟨rfl, rfl⟩⟩, by decide⟩
theorem witness_MouseHandlerServes :
    let s := { mousePending with kbcQ := [(0x09#8, .aux)] }
    Idle s ∧ s.handler = none ∧ s.master.init = .ready ∧ s.slave.init = .ready ∧ s.master.base = 32#8 ∧ s.slave.base = 40#8 ∧
    s.master.isr = 0#8 ∧ s.slave.isr = 0#8 ∧ s.master.irr &&& ~~~s.master.imr &&& 0x03#8 = 0#8 ∧
    s.master.imr.getLsbD 2 = false ∧ s.slave.irr &&& ~~~s.slave.imr &&& 0x1F#8 = 0x10#8 := ⟨⟨rfl, rfl⟩, by decide⟩

end Sys2Proof.Machine.Tests
end

section
/-! The statements of 00_scope.md: a step runs the decoded transaction (R6, R82, R122), and block reset meets the invariant
(R8). -/

namespace Sys2Proof.Machine

/-! One step on a word. -/

theorem step_word {s : State} {w : Word} {rest : List Input} (hin : s.input = .word w :: rest) :
    step s = runWord w { s with input := rest } := by
  simp only [step, hin]

/-- The reading rests on the two controllers' `init` values alone (R122), so it may be taken in any state that has them. -/
theorem runWord_of_decode_instr {s : State} {w : Word} {i : Instr}
    (hdec : decode s.master.init s.slave.init w = .instr i) : runWord w s = exec i s := by
  simp only [runWord, hdec]

/-- Settles O7: a step on a word is `runWord` without that entry, and taking the entry away leaves both `init` values. -/
theorem stepRunsTheDecodedTransaction : Obligations.StepRunsTheDecodedTransaction := by
  intro s w rest i hin hdec
  calc step s = runWord w { s with input := rest } := step_word hin
    _ = exec i { s with input := rest } := runWord_of_decode_instr hdec

/-! The parameters and the state at block reset. -/

theorem tps_pos (p : Params) : 0 < p.tps := Nat.succ_pos _

/-- Five bits over three zero bits are a multiple of 8 (R36). -/
theorem append_zero_and_seven (high : BitVec 5) : (high ++ 0#3 : Byte) &&& 0x07#8 = 0#8 := by
  revert high
  decide

theorem resetWith_btn_get (p : Params) (l : Launch) (b : Button) : (State.resetWith p l).btn.get b = .atReset := by
  cases b <;> rfl

/-- The five high bits of a base parameter carry R36, `P_TPS` at least 1 carries R43 and R14, and the rest is what block
reset writes. -/
theorem inv_resetWith (p : Params) (l : Launch) : Inv (State.resetWith p l) where
  masterBase := append_zero_and_seven p.baseM0High
  slaveBase := append_zero_and_seven p.baseS0High
  cascadeNotLatched := BitVec.getLsbD_zero
  clockTick := tps_pos p
  cyclePosition := show 0#2 ≠ 3#2 by decide
  timerUnset := fun _ => ⟨rfl, rfl, rfl⟩
  timerMode := fun hrw => nomatch hrw
  buttonTicks b := by
    rw [resetWith_btn_get]
    exact ⟨tps_pos p, tps_pos p⟩
  packets := fun _ hmem => nomatch hmem
  handlersDoNotNest := rfl
  handlerOwes := fun _ hrun => nomatch hrun

/-- Settles O11: `inv_resetWith`, and the model's reset state is by definition one of these. -/
theorem resetSatisfiesTheInvariant : Obligations.ResetSatisfiesTheInvariant :=
  ⟨inv_resetWith, rfl⟩

end Sys2Proof.Machine
end

section
/-! The statements of 10_state.md. The first part lifts Micro.lean from one instruction to one step; the invariant and the
growth of the outputs are then one lemma per small operation. -/

namespace Sys2Proof.Machine

/-! One step, as small operations. -/

/-- A wide access does nothing but refuse itself (R75, R118, R194). -/
theorem wideAccess_refuses (p : Port) (s : State) : ∃ r, wideAccess p s = refuse r s := by
  unfold wideAccess
  split_ifs
  · exact ⟨_, rfl⟩
  · exact ⟨_, rfl⟩
  · exact ⟨_, rfl⟩

/-- A reflexive and transitive relation that taking an entry, an invalid word, the CPU's return and every small operation
keep relates the two ends of a step (R82). -/
theorem step_induction {R : State → State → Prop} (refl : ∀ s, R s s) (trans : ∀ s t u, R s t → R t u → R s u)
    (taken : ∀ s rest, R s { s with input := rest }) (invalid : ∀ w s, R s (invalidWord w s))
    (returned : ∀ s, R s (endHandler s)) (small : ∀ (m : Micro) s, R s (m.run s)) {s t : State}
    (h : step s = .next t) : R s t := by
  cases hin : s.input with
  | nil =>
    simp only [step, hin] at h
    cases h
    exact refl s
  | cons e rest =>
    refine trans _ _ _ (taken s rest) ?_
    cases e with
    | word w =>
      rw [step_word hin] at h
      unfold runWord at h
      split at h
      · exact exec_induction refl trans (fun m _ => small m) h
      · cases h
        exact invalid w _
    | wide p =>
      obtain ⟨r, hr⟩ := wideAccess_refuses p { s with input := rest }
      simp only [step, hin, hr] at h
      cases h
      exact small (.refuse r) _
    | handlerReturn =>
      simp only [step, hin] at h
      cases h
      exact returned _

/-! The invariant, one state operation at a time. -/

theorem handlerAfter_append (tr : List Entry) (e : Entry) : handlerAfter (tr ++ [e]) = handlerStep (handlerAfter tr) e := by
  simp [handlerAfter]

/-- What the invariant says of one controller: of its base (R36) and, on the master, of line 2 (R39). -/
structure PicInv (c : Ctl) (p : Pic) : Prop where
  base : p.base &&& 0x07#8 = 0#8
  cascade : c = .master → p.irr.getLsbD 2 = false

theorem clearBit_of_clear {v : Byte} {k : Nat} (h : v.getLsbD k = false) (i : Nat) : (clearBit v i).getLsbD k = false := by
  simp [clearBit, h]

/-- Latching a line other than IRQ 2 leaves master line 2 as it is (R39, R151). -/
theorem lineIdx_ne_two : ∀ n : BitVec 4, n ≠ 2#4 → lineCtl n = .master → 2 ≠ lineIdx n := by decide

theorem nextTick_tick_lt {tps : Nat} {c : Timestamp} (h : c.tick < tps) : (nextTick tps c).tick < tps := by
  unfold nextTick
  split_ifs with hwrap
  · exact Nat.zero_lt_of_lt h
  · exact Nat.lt_of_le_of_ne h hwrap

/-- `int8` of a byte is a signed byte (R60). -/
theorem int8_bounds (b : Byte) : -128 ≤ int8 b ∧ int8 b ≤ 127 := by
  have hlo := BitVec.le_toInt b
  have hhi := BitVec.toInt_lt (x := b)
  unfold int8
  omega

namespace Inv
variable {s : State}

theorem pic (h : Inv s) (c : Ctl) : PicInv c (s.pic c) := by
  cases c with
  | master => exact ⟨h.masterBase, fun _ => h.cascadeNotLatched⟩
  | slave => exact ⟨h.slaveBase, fun hc => nomatch hc⟩

theorem setPic (h : Inv s) {c : Ctl} {p : Pic} (hp : PicInv c p) : Inv (s.setPic c p) := by
  cases c with
  | master => exact { h with masterBase := hp.base, cascadeNotLatched := hp.cascade rfl }
  | slave => exact { h with slaveBase := hp.base }

/-- An entry that starts and ends no handler. -/
theorem record (h : Inv s) (e : Entry) (plain : ∀ r, handlerStep r e = r := by rintro (_ | _ | _) <;> rfl) :
    Inv (record e s) :=
  { h with handlersDoNotNest := by rw [record_trace, handlerAfter_append, plain]; exact h.handlersDoNotNest }

theorem refuse (h : Inv s) (r : Reason) : Inv (refuse r s) :=
  Inv.record (s := { s with refused := true }) { h with } _

theorem invalidWord (h : Inv s) (w : Word) : Inv (invalidWord w s) :=
  Inv.record (s := { s with refused := true }) { h with } _

/-! The running handler (R8, R309). -/

theorem startHandler (h : Inv s) (hidle : s.handler = none) (v : Byte) (ofSlave : Bool) :
    Inv (startHandler v ofSlave s) :=
  { h with
    handlersDoNotNest := by
      rw [startHandler_eq]
      simp only [handlerAfter_append, h.handlersDoNotNest, hidle]
      rfl
    handlerOwes := by
      rintro _ ⟨⟩
      exact .inr rfl }

theorem endHandler (h : Inv s) : Inv (endHandler s) := by
  cases hrun : s.handler with
  | none => simpa only [Machine.endHandler, hrun] using h
  | some r =>
    simp only [Machine.endHandler, hrun]
    exact { h with
      handlersDoNotNest := by
        simp only [record_trace, record_handler, handlerAfter_append, h.handlersDoNotNest, hrun]
        simp [handlerStep]
      handlerOwes := nofun }

/-- The running handler has written one of its two end-of-interrupts and owes the other. -/
theorem stillOwes (h : Inv s) {r r' : Handler} (hrun : s.handler = some r) (hv : r'.vector = r.vector)
    (howes : r'.owesSlave = true ∨ r'.owesMaster = true) : Inv { s with handler := some r' } :=
  { h with
    handlersDoNotNest := by
      have hn := h.handlersDoNotNest
      rw [hrun] at hn
      simpa [hv] using hn
    handlerOwes := by
      rintro _ ⟨⟩
      exact howes }

theorem serviced (h : Inv s) (c : Ctl) : Inv (serviced c s) := by
  unfold Machine.serviced
  split
  · next hrun => exact h.stillOwes hrun rfl (.inl rfl)
  · next hrun => exact h.stillOwes hrun rfl (.inr rfl)
  · exact h.endHandler

/-! Requests and their delivery (R150, R152, R158). -/

theorem raiseLine (h : Inv s) (n : BitVec 4) : Inv (raiseLine n s) := by
  unfold Machine.raiseLine
  split_ifs with h2
  · exact h.refuse _
  · refine Inv.record ?_ (.irq n)
    refine h.setPic ⟨(h.pic (lineCtl n)).base, fun hc => ?_⟩
    rw [setBit_getLsbD _ (lineIdx_lt n), (h.pic _).cascade hc, decide_eq_false (lineIdx_ne_two n h2 hc)]
    rfl

theorem deliverSlave (h : Inv s) (hidle : s.handler = none) : Inv (deliverSlave s) := by
  apply Inv.startHandler
  · exact { h with }
  · exact hidle

theorem deliverMaster (h : Inv s) (hidle : s.handler = none) (n : Nat) : Inv (deliverMaster n s) := by
  apply Inv.startHandler
  · exact { h with cascadeNotLatched := clearBit_of_clear h.cascadeNotLatched n }
  · exact hidle

theorem spurious (h : Inv s) (hidle : s.handler = none) : Inv (spurious s) := by
  unfold Machine.spurious
  split_ifs
  · apply Inv.startHandler
    · exact { h with }
    · exact hidle
  · apply Inv.startHandler
    · exact { h with }
    · exact hidle

/-! The timer and the clock (R40, R41, R43). -/

theorem pitCount (h : Inv s) (hrw : s.pit.rw = .lohi) (v : Byte) : Inv { s with pit := pitCount v s.pit } := by
  have hkeep : (Machine.pitCount v s.pit).rw = s.pit.rw ∧ (Machine.pitCount v s.pit).mode = s.pit.mode := by
    unfold Machine.pitCount
    split
    · exact ⟨rfl, rfl⟩
    · exact ⟨rfl, rfl⟩
  obtain ⟨hrw', hmode'⟩ := hkeep
  exact { h with
    timerUnset := fun hunset => by simp [hrw', hrw] at hunset
    timerMode := fun _ => hmode'.trans (h.timerMode hrw) }

theorem advanceClock (h : Inv s) : Inv (advanceClock s) :=
  { h with clockTick := nextTick_tick_lt h.clockTick }

/-! Bytes, packets and buttons (R45, R46, R60). -/

/-- Whichever of its three cases a button step takes, its new timestamps are the given time, the epoch or old ones. -/
theorem updateButton (h : Inv s) (b : Button) (x : Bool) {t : Timestamp} (ht : t.tick < s.par.tps) :
    Inv (updateButton b x t s) := by
  have hset : ∀ (k : Kind) (r : Btn), r.lastUpdate.tick < s.par.tps → r.lastFresh.tick < s.par.tps →
      Inv (emit b k t { s with btn := s.btn.set b r }) := fun k r hu hf =>
    { h with
      buttonTicks := fun c => by
        simp only [emit_btn, emit_par, PerButton.get_set]
        split_ifs
        · exact ⟨hu, hf⟩
        · exact h.buttonTicks c }
  unfold Machine.updateButton
  dsimp only
  split_ifs
  · exact hset _ _ ht (tps_pos _)
  · exact hset _ _ ht ht
  · exact hset _ _ ht (h.buttonTicks b).2

theorem packet (h : Inv s) (b0 b1 b2 : Byte) :
    Inv { s with pktlog := s.pktlog ++ [decodePacket b0 b1 b2 s.clk] } :=
  { h with
    packets := fun p hp => by
      rcases List.mem_append.mp hp with hold | hnew
      · exact h.packets p hold
      · obtain rfl := List.mem_singleton.mp hnew
        obtain ⟨hx, hx'⟩ := int8_bounds b1
        obtain ⟨hy, hy'⟩ := int8_bounds b2
        exact ⟨hx, hx', hy, hy', h.clockTick⟩ }

theorem storeByte (h : Inv s) (d : Byte) : Inv ((Micro.storeByte d).run s) := by
  simp only [Micro.run]
  split_ifs
  · exact { h with cyclePosition := (by decide : 1#2 ≠ 3#2) }
  · exact { h with cyclePosition := (by decide : 2#2 ≠ 3#2) }
  · exact { h with cyclePosition := (by decide : 0#2 ≠ 3#2) }
  · exact h

/-- Every small operation keeps the invariant. -/
theorem micro (h : Inv s) (m : Micro) : Inv (m.run s) := by
  cases m with
  | refuse r => exact h.refuse r
  | icw1 c => exact h.setPic { h.pic c with }
  | icw2 c v => exact h.setPic ⟨baseOf_low v, (h.pic c).cascade⟩
  | icw3 c => exact h.setPic { h.pic c with }
  | icw4 c => exact h.setPic { h.pic c with }
  | ocw1 c v => exact h.setPic { h.pic c with }
  | eoi c => exact h.setPic { h.pic c with }
  | serviced c => exact h.serviced c
  | note e plain => exact h.record e plain
  | raiseLine n => exact h.raiseLine n
  | deliverSlave =>
    simp only [Micro.run]
    split_ifs with hidle
    · exact h.deliverSlave hidle.1
    · exact h
  | deliverMaster =>
    simp only [Micro.run]
    split_ifs with hidle
    · exact h.deliverMaster hidle.1 _
    · exact h
  | spurious =>
    simp only [Micro.run]
    split_ifs with hidle
    · exact h.spurious hidle.1
    · exact h
  | pitCtrl => exact { h with timerUnset := nofun, timerMode := fun _ => rfl }
  | pitCount v =>
    simp only [Micro.run]
    split_ifs with hrw
    · exact h.pitCount hrw v
    · exact h
  | advanceClock => exact h.advanceClock
  | countDraw => exact { h with }
  | popQueue => exact { h with }
  | pushQueue src b => exact { h with }
  | land => exact { h with }
  | again => exact { h with }
  | storeByte d => exact h.storeByte d
  | diagnose d => exact { h with }
  | packet b0 b1 b2 => exact h.packet b0 b1 b2
  | button b x => exact h.updateButton b x h.clockTick
  | register b k c => exact { h with }

end Inv

/-- Settles O12: a step is a sequence of small operations, an entry taken, an invalid word or the CPU's return, and each of
these keeps the invariant. -/
theorem everyStepKeepsTheInvariant : Obligations.EveryStepKeepsTheInvariant := fun _ _ hinv hstep =>
  step_induction (R := fun s t => Inv s → Inv t) (fun _ h => h) (fun _ _ _ hst htu h => htu (hst h))
    (fun _ _ h => { h with }) (fun w _ h => h.invalidWord w) (fun _ h => h.endHandler) (fun m _ h => h.micro m)
    hstep hinv

end Sys2Proof.Machine
end

section
/-! The outputs and callback lists only grow (R48, R61 to R63, R66). -/

namespace Sys2Proof.Machine

/-- What only grows from `s` to `t`, and what stays. -/
structure Grows (s t : State) : Prop where
  pktlog : s.pktlog <+: t.pktlog
  evlog : s.evlog <+: t.evlog
  diag : s.diag <+: t.diag
  callbacks : ∀ b k, (s.cb.get b).get k <+: (t.cb.get b).get k
  refused : s.refused = true → t.refused = true
  par : t.par = s.par

namespace Grows
variable {s t u : State}

theorem refl (s : State) : Grows s s where
  pktlog := List.prefix_rfl
  evlog := List.prefix_rfl
  diag := List.prefix_rfl
  callbacks _ _ := List.prefix_rfl
  refused := id
  par := rfl

theorem trans (h : Grows s t) (k : Grows t u) : Grows s u where
  pktlog := h.pktlog.trans k.pktlog
  evlog := h.evlog.trans k.evlog
  diag := h.diag.trans k.diag
  callbacks b kind := (h.callbacks b kind).trans (k.callbacks b kind)
  refused hs := k.refused (h.refused hs)
  par := k.par.trans h.par

/-- Device steps write no output and no callback list (R81). -/
theorem ofLanded (h : Landed s t) : Grows s t where
  pktlog := by rw [h.pktlog]
  evlog := by rw [h.evlog]
  diag := by rw [h.diag]
  callbacks _ _ := by rw [h.cb]
  refused := h.refused
  par := h.par

theorem setPic (s : State) (c : Ctl) (p : Pic) : Grows s (s.setPic c p) := by
  cases c with
  | master => exact { refl s with }
  | slave => exact { refl s with }

theorem serviced (c : Ctl) (s : State) : Grows s (serviced c s) := by
  rw [serviced_eq]
  exact { refl s with }

theorem spurious (s : State) : Grows s (spurious s) := by
  unfold Machine.spurious
  split_ifs
  · exact { refl s with }
  · exact { refl s with }

/-- A button step emits one event, in each of its three cases (R260). -/
theorem updateButton (b : Button) (x : Bool) (t : Timestamp) (s : State) : Grows s (updateButton b x t s) := by
  have hemit : ∀ (k : Kind) (r : PerButton Btn), Grows s (emit b k t { s with btn := r }) := fun _ _ =>
    { refl s with evlog := List.prefix_append _ _ }
  unfold Machine.updateButton
  dsimp only
  split_ifs
  · exact hemit _ _
  · exact hemit _ _
  · exact hemit _ _

theorem storeByte (d : Byte) (s : State) : Grows s ((Micro.storeByte d).run s) := by
  simp only [Micro.run]
  split_ifs
  · exact { refl s with }
  · exact { refl s with }
  · exact { refl s with }
  · exact refl s

/-- A registration appends to the one list it names (R264). -/
theorem register (b : Button) (k : Kind) (c : CallbackId) (s : State) : Grows s ((Micro.register b k c).run s) :=
  { refl s with
    callbacks := fun b' k' => by
      simp only [Micro.run, PerButton.get_set]
      split_ifs with hb
      · subst hb
        rw [PerKind.get_set]
        split_ifs with hk
        · subst hk
          exact List.prefix_append _ _
        · exact List.prefix_rfl
      · exact List.prefix_rfl }

theorem micro (m : Micro) (s : State) : Grows s (m.run s) := by
  cases m with
  | refuse r => exact { refl s with refused := fun _ => rfl }
  | icw1 c => exact setPic s c _
  | icw2 c v => exact setPic s c _
  | icw3 c => exact setPic s c _
  | icw4 c => exact setPic s c _
  | ocw1 c v => exact setPic s c _
  | eoi c => exact setPic s c _
  | serviced c => exact serviced c s
  | note e plain => exact { refl s with }
  | raiseLine n => exact ofLanded (.raiseLine n s)
  | deliverSlave =>
    simp only [Micro.run]
    split_ifs
    · exact { refl s with }
    · exact refl s
  | deliverMaster =>
    simp only [Micro.run]
    split_ifs
    · exact { refl s with }
    · exact refl s
  | spurious =>
    simp only [Micro.run]
    split_ifs
    · exact spurious s
    · exact refl s
  | pitCtrl => exact { refl s with }
  | pitCount v =>
    simp only [Micro.run]
    split_ifs
    · exact { refl s with }
    · exact refl s
  | advanceClock => exact { refl s with }
  | countDraw => exact { refl s with }
  | popQueue => exact { refl s with }
  | pushQueue src b => exact { refl s with }
  | land => exact { refl s with }
  | again => exact { refl s with }
  | storeByte d => exact storeByte d s
  | diagnose d => exact { refl s with diag := List.prefix_append _ _ }
  | packet b0 b1 b2 => exact { refl s with pktlog := List.prefix_append _ _ }
  | button b x => exact updateButton b x s.clk s
  | register b k c => exact register b k c s

end Grows

/-- Settles O58: each small operation of a step grows the outputs, and so does an entry taken, an invalid word and the CPU's
return. -/
theorem outputsOnlyGrow : Obligations.OutputsOnlyGrow := by
  intro s t hstep
  obtain ⟨hpkt, hev, hdiag, hcb, href, hpar⟩ : Grows s t :=
    step_induction Grows.refl (fun _ _ _ => Grows.trans) (fun s _ => { Grows.refl s with })
      (fun _ s => { Grows.refl s with refused := fun _ => rfl })
      (fun s => by rw [endHandler_eq]; exact { Grows.refl s with }) Grows.micro hstep
  exact ⟨hpkt, hev, hdiag, hcb, href, hpar⟩

end Sys2Proof.Machine
end

section
/-! Who writes a mask register (R35), and what the boot sequence leaves (R344, R345). The port writes of remap and program
are followed on the state without the devices: the real one is that state with device steps landed on it (R81). -/

namespace Sys2Proof.Machine

/-! What the port writes of remap and program leave, but for the devices' steps between them. -/

/-- What an odd-port write that the controller admits leaves of it (R122, R142 to R145). -/
def Pic.afterOddWrite (v : Byte) (p : Pic) : Pic :=
  match p.init with
  | .icw2 => { p with base := baseOf v, init := .icw3 }
  | .icw3 => { p with init := .icw4 }
  | .icw4 => { p with init := .ready }
  | .ready => { p with imr := v }

/-- The state with both controllers' masks, bases and `init` replaced. -/
def State.programmed (s : State) (m1 b1 : Byte) (i1 : Init) (m2 b2 : Byte) (i2 : Init) : State := { s with
  master := { s.master with imr := m1, base := b1, init := i1 }
  slave := { s.slave with imr := m2, base := b2, init := i2 } }

theorem macroOut_oddPort (c : Ctl) (v : Byte) (s : State) : macroOut s (oddPort c, v) = oddWrite c v (landDevices s) := by
  cases c <;> rfl

theorem macroOut_icw1 (c : Ctl) (s : State) : macroOut s (evenPort c, 0x11#8) = icw1 c 0x11#8 (landDevices s) := by
  cases c <;> rfl

namespace Landed
variable {s t : State}

/-- The same setting written to both sides: the requests stay as they landed. -/
theorem setPic (h : Landed s t) (c : Ctl) (isr imr base : Byte) (init : Init) :
    Landed (s.setPic c ⟨(s.pic c).irr, isr, imr, base, init⟩) (t.setPic c ⟨(t.pic c).irr, isr, imr, base, init⟩) := by
  cases c with
  | master => exact { h with masterIsr := rfl, masterImr := rfl, masterBase := rfl, masterInit := rfl }
  | slave => exact { h with slaveIsr := rfl, slaveImr := rfl, slaveBase := rfl, slaveInit := rfl }

theorem record (h : Landed s t) (e : Entry) : Landed s (record e t) :=
  { h with
    trace := by
      obtain ⟨more, hmore⟩ := h.trace
      exact ⟨more ++ [e], by rw [record_trace, hmore, List.append_assoc]⟩ }

/-- Device steps latch requests and leave the rest of a controller as it is. -/
theorem pic (h : Landed s t) (c : Ctl) : t.pic c = { s.pic c with irr := (t.pic c).irr } := by
  cases c with
  | master => simp only [State.pic_master, ← h.masterIsr, ← h.masterImr, ← h.masterBase, ← h.masterInit]
  | slave => simp only [State.pic_slave, ← h.slaveIsr, ← h.slaveImr, ← h.slaveBase, ← h.slaveInit]

theorem imr (h : Landed s t) (c : Ctl) : (t.pic c).imr = (s.pic c).imr := by rw [h.pic c]

theorem init (h : Landed s t) (c : Ctl) : (t.pic c).init = (s.pic c).init := by rw [h.pic c]

theorem icw1 (h : Landed s t) (c : Ctl) :
    Landed (s.setPic c { s.pic c with imr := 0x00#8, init := .icw2 }) (macroOut t (evenPort c, 0x11#8)) := by
  have hu := h.trans (.landDevices t)
  rw [macroOut_icw1, Machine.icw1, if_neg (by decide), hu.pic c]
  exact (hu.setPic c _ _ _ _).record _

theorem oddWrite (h : Landed s t) (c : Ctl) (v : Byte) (h3 : (s.pic c).init = .icw3 → v = icw3Admitted c)
    (h4 : (s.pic c).init = .icw4 → v = 0x01#8) :
    Landed (s.setPic c ((s.pic c).afterOddWrite v)) (macroOut t (oddPort c, v)) := by
  have hu := h.trans (.landDevices t)
  simp only [macroOut_oddPort, Machine.oddWrite, hu.init c, Pic.afterOddWrite]
  cases hi : (s.pic c).init with
  | icw2 =>
    simp only [Machine.icw2]
    rw [hu.pic c]
    exact (hu.setPic c _ _ _ _).record _
  | icw3 =>
    simp only [Machine.icw3, h3 hi, ne_eq, not_true_eq_false, if_false]
    rw [hu.pic c]
    exact (hu.setPic c _ _ _ _).record _
  | icw4 =>
    simp only [Machine.icw4, h4 hi, ne_eq, not_true_eq_false, if_false]
    rw [hu.pic c]
    exact (hu.setPic c _ _ _ _).record _
  | ready =>
    simp only [Machine.ocw1]
    rw [hu.pic c]
    simp only [hi]
    exact (hu.setPic c _ _ _ _).record _

theorem pitCtrl (h : Landed s t) :
    Landed { s with pit := { s.pit with mode := 2#3, rw := .lohi, flip := .low, armed := false } }
      (macroOut t (Config.portPitCtrl, 0x34#8)) := by
  have hu := h.trans (.landDevices t)
  refine Landed.record ?_ (.out Config.portPitCtrl 0x34#8)
  exact { hu with pit := by rw [hu.pit] }

theorem pitData (h : Landed s t) (hrw : s.pit.rw = .lohi) (v : Byte) :
    Landed { s with pit := pitCount v s.pit } (macroOut t (Config.portPitData, v)) := by
  have hu := h.trans (.landDevices t)
  have hw : macroOut t (Config.portPitData, v) = Machine.pitData v (Machine.landDevices t) := rfl
  rw [hw, Machine.pitData, hu.pit, hrw]
  refine Landed.record ?_ _
  exact { hu with pit := rfl }

theorem ioWait (h : Landed s t) : Landed s (macroOut t (Config.portIoWait, 0x00#8)) :=
  (h.trans (.landDevices t)).record _

/-- A remap's port writes program both bases and then write the masks given (R121, R153). -/
theorem remapWrites (h : Landed s t) (mo so m1 m2 : Byte) :
    Landed (s.programmed m1 (baseOf mo) .ready m2 (baseOf so) .ready) (macroOuts (remapWrites mo so m1 m2) t) := by
  have hone : Landed (s.programmed 0x00#8 s.master.base .icw2 0x00#8 s.slave.base .icw2) _ :=
    ((h.icw1 .master).ioWait.icw1 .slave).ioWait
  have htwo : Landed (s.programmed 0x00#8 (baseOf mo) .icw3 0x00#8 (baseOf so) .icw3) _ :=
    ((hone.oddWrite .master mo nofun nofun).ioWait.oddWrite .slave so nofun nofun).ioWait
  have hthree : Landed (s.programmed 0x00#8 (baseOf mo) .icw4 0x00#8 (baseOf so) .icw4) _ :=
    ((htwo.oddWrite .master 0x04#8 (fun _ => rfl) nofun).ioWait.oddWrite .slave 0x02#8 (fun _ => rfl) nofun).ioWait
  have hfour : Landed (s.programmed 0x00#8 (baseOf mo) .ready 0x00#8 (baseOf so) .ready) _ :=
    ((hthree.oddWrite .master 0x01#8 nofun (fun _ => rfl)).ioWait.oddWrite .slave 0x01#8 nofun (fun _ => rfl)).ioWait
  simp only [macroOuts, Machine.remapWrites, List.foldl_cons, List.foldl_nil]
  exact (hfour.oddWrite .master m1 nofun nofun).oddWrite .slave m2 nofun nofun

end Landed

/-- R153: a remap with admitted offsets leaves them as the bases, both controllers READY and both masks as they were, and
nothing else but what the devices' steps inside it do. -/
theorem remapPair_landed {mo so : Byte} (hadm : offsetsAdmitted mo so = true) (s : State) :
    Landed (s.programmed s.master.imr (baseOf mo) .ready s.slave.imr (baseOf so) .ready) (remapPair mo so s) := by
  have hmaster := Landed.landDevices s
  have hslave := (hmaster.record (.inp (oddPort .master) (landDevices s).master.imr)).trans (.landDevices _)
  rw [← hmaster.masterImr, ← hslave.slaveImr, remapPair, if_pos hadm]
  exact (hslave.record _).remapWrites mo so _ _

/-- The two bytes of a divisor, high over low, are the divisor (R113). -/
theorem reloadOf_divisor (d : BitVec 16) : reloadOf (divisorHigh d) (divisorLow d) = d :=
  (BitVec.extractLsb'_append_extractLsb'_eq_extractLsb' rfl).trans (extract_all d)

/-- R195: programming a divisor leaves the timer in mode 2, armed with it, and nothing else but what the devices' steps
inside it do. -/
theorem programDivisor_landed {d : BitVec 16} (hd : d ≠ 0#16) (s : State) :
    Landed { s with pit := ⟨2#3, .lohi, .low, divisorLow d, d, true⟩ } (programDivisor d s) := by
  have hwrites := ((Landed.refl s).pitCtrl.pitData rfl (divisorLow d)).pitData rfl (divisorHigh d)
  simp only [pitCount, reloadOf_divisor] at hwrites
  rw [programDivisor, if_neg hd]
  exact hwrites

/-! Who writes a mask register (R35). -/

theorem setPic_imr (s : State) (c d : Ctl) {p : Pic} (hp : p.imr = (s.pic c).imr) :
    ((s.setPic c p).pic d).imr = (s.pic d).imr := by
  rw [State.pic_setPic]
  split_ifs with hd
  · rw [hp, hd]
  · rfl

/-- Of the small operations only ICW1 and OCW1 write a mask register. -/
theorem Micro.run_imr {m : Micro} {c : Ctl} (hicw1 : m ≠ .icw1 c) (hocw1 : ∀ v, m ≠ .ocw1 c v) (s : State) :
    ((m.run s).pic c).imr = (s.pic c).imr := by
  cases m with
  | icw1 d =>
    have hcd : c ≠ d := fun hcd => hicw1 (by rw [hcd])
    simp only [Micro.run, State.pic_setPic, if_neg hcd]
  | ocw1 d v =>
    have hcd : c ≠ d := fun hcd => hocw1 v (by rw [hcd])
    simp only [Micro.run, State.pic_setPic, if_neg hcd]
  | icw2 d v => exact setPic_imr s d c rfl
  | icw3 d => exact setPic_imr s d c rfl
  | icw4 d => exact setPic_imr s d c rfl
  | eoi d => exact setPic_imr s d c rfl
  | serviced d => simp only [Micro.run, serviced_pic]
  | raiseLine n => exact (Landed.raiseLine n s).imr c
  | deliverSlave =>
    simp only [Micro.run]
    split_ifs
    · cases c <;> rfl
    · rfl
  | deliverMaster =>
    simp only [Micro.run]
    split_ifs
    · cases c <;> rfl
    · rfl
  | spurious =>
    simp only [Micro.run, Machine.spurious]
    split_ifs
    · cases c <;> rfl
    · cases c <;> rfl
    · rfl
  | pitCount v =>
    simp only [Micro.run]
    split_ifs
    · cases c <;> rfl
    · rfl
  | storeByte d =>
    simp only [Micro.run]
    split_ifs
    · cases c <;> rfl
    · cases c <;> rfl
    · cases c <;> rfl
    · rfl
  | button b x =>
    simp only [Micro.run]
    rw [updateButton_outside]
    cases c <;> rfl
  | refuse r => cases c <;> rfl
  | note e plain => cases c <;> rfl
  | pitCtrl => cases c <;> rfl
  | advanceClock => cases c <;> rfl
  | countDraw => cases c <;> rfl
  | popQueue => cases c <;> rfl
  | pushQueue src b => cases c <;> rfl
  | land => cases c <;> rfl
  | again => cases c <;> rfl
  | diagnose d => cases c <;> rfl
  | packet b0 b1 b2 => cases c <;> rfl
  | register b k v => cases c <;> rfl

/-- A remap restores both masks (R35, R153). -/
theorem remapPair_imr (mo so : Byte) (s : State) (c : Ctl) : ((remapPair mo so s).pic c).imr = (s.pic c).imr := by
  cases hadm : offsetsAdmitted mo so with
  | true =>
    rw [(remapPair_landed hadm s).imr c]
    cases c <;> rfl
  | false => simp [remapPair, hadm]

/-- An instruction that changes a mask is ICW1's or OCW1's on that controller: a remap, the only other that writes one,
restores it. -/
theorem exec_imr {i : Instr} {s t : State} (h : exec i s = .next t) (c : Ctl) :
    (t.pic c).imr = (s.pic c).imr ∨
      match c with
      | .master => i = .outPicMIcw1 ∨ ∃ v, i = .outPicMOcw1 v
      | .slave => i = .outPicSIcw1 ∨ ∃ v, i = .outPicSOcw1 v := by
  have hremap : (∃ mo so, i = .remap mo so) → (t.pic c).imr = (s.pic c).imr := by
    rintro ⟨mo, so, rfl⟩
    obtain rfl : remapPair mo so s = t := Host.Outcome.next.inj h
    exact remapPair_imr mo so s c
  by_cases hone : Micro.mayOccurIn (.icw1 c) i
  · rcases hone with hr | hi
    · exact .inl (hremap hr)
    · cases c with
      | master => exact .inr (.inl hi)
      | slave => exact .inr (.inl hi)
  by_cases hmask : ∃ v, Micro.mayOccurIn (.ocw1 c v) i
  · obtain ⟨v, hr | hi⟩ := hmask
    · exact .inl (hremap hr)
    · cases c with
      | master => exact .inr (.inr hi)
      | slave => exact .inr (.inr hi)
  exact .inl (exec_induction (R := fun s t => (t.pic c).imr = (s.pic c).imr) (fun _ => rfl) (fun _ _ _ h k => k.trans h)
    (fun m hm => Micro.run_imr (fun e => hone (e ▸ hm)) (fun v e => hmask ⟨v, e ▸ hm⟩)) h)

/-! What the boot sequence leaves (R344, R345). -/

/-- What R345 speaks of: the controllers but for their requests, the timer, the clock, the assembler, the outputs and the
running handler. -/
structure BootUnits where
  master : Pic
  slave : Pic
  pit : Pit
  clk : Timestamp
  asm : Asm
  pktlog : List Packet
  evlog : List Event
  diag : List Diag
  handler : Option Handler

/-- These units in a state; the requests, which device steps latch at any time, are masked out as zeros. -/
def State.bootUnits (s : State) : BootUnits where
  master := { s.master with irr := 0#8 }
  slave := { s.slave with irr := 0#8 }
  pit := s.pit
  clk := s.clk
  asm := s.asm
  pktlog := s.pktlog
  evlog := s.evlog
  diag := s.diag
  handler := s.handler

/-- What a transaction of the boot sequence does to these units (R344): only remap and program do anything. -/
def bootEffect (u : BootUnits) : Instr → BootUnits
  | .remap mo so => { u with
      master := { u.master with base := baseOf mo, init := .ready }
      slave := { u.slave with base := baseOf so, init := .ready } }
  | .program d => { u with pit := ⟨2#3, .lohi, .low, divisorLow d, d, true⟩ }
  | _ => u

theorem Landed.bootUnits {s t : State} (h : Landed s t) : t.bootUnits = s.bootUnits := by
  simp only [State.bootUnits, h.masterIsr, h.masterImr, h.masterBase, h.masterInit, h.slaveIsr, h.slaveImr, h.slaveBase,
    h.slaveInit, h.pit, h.clk, h.asm, h.pktlog, h.evlog, h.diag, h.handler]

/-- What may fall beside the boot sequence leaves these units as they are. -/
theorem exec_besideBoot {i : Instr} (hi : besideBoot i = true) (s : State) :
    ∃ t, exec i s = .next t ∧ t.bootUnits = s.bootUnits := by
  cases i with
  | irq n => exact ⟨_, rfl, (Landed.raiseLine n s).bootUnits⟩
  | irq2 => exact ⟨_, rfl, (Landed.raiseLine 2#4 s).bootUnits⟩
  | kbcPush src b => exact ⟨_, rfl, (Landed.devStep s (.push src b)).bootUnits⟩
  | onEvent b k c =>
    refine ⟨_, rfl, ?_⟩
    unfold registerCallback
    split
    · rfl
    · rfl
  | _ => nomatch hi

theorem exec_handshakeStep {i : Instr} (hi : handshakeStep i = true) (s : State) :
    ∃ t, exec i s = .next t ∧ t.bootUnits = bootEffect s.bootUnits i := by
  cases i with
  | inKbcStatus => exact ⟨_, rfl, rfl⟩
  | inKbcData => exact ⟨_, rfl, by rw [readKbcData_eq]; rfl⟩
  | outKbcData v => exact ⟨_, rfl, rfl⟩
  | outKbcCmd v => exact ⟨_, rfl, rfl⟩
  | _ => nomatch hi

theorem exec_bootSequence {d : BitVec 16} {handshake : List Instr} (hd : d ≠ 0#16)
    (hhand : ∀ i ∈ handshake, handshakeStep i = true) :
    ∀ i ∈ bootSequence d handshake, ∀ s, ∃ t, exec i s = .next t ∧ t.bootUnits = bootEffect s.bootUnits i := by
  intro i hi s
  simp only [bootSequence, List.cons_append, List.nil_append, List.mem_cons] at hi
  rcases hi with rfl | rfl | hi
  · exact ⟨_, rfl, (remapPair_landed (by decide) s).bootUnits⟩
  · exact ⟨_, rfl, (programDivisor_landed hd s).bootUnits⟩
  · exact exec_handshakeStep (hhand i hi) s

/-- A run that makes the transactions of `boot`, and beside them only what may fall there, has the effect of `boot`. -/
theorem runInstrs_boots {boot is : List Instr}
    (hboot : ∀ i ∈ boot, ∀ s, ∃ t, exec i s = .next t ∧ t.bootUnits = bootEffect s.bootUnits i)
    (h : boots boot is = true) (s : State) :
    ∃ t, runInstrs is s = .next t ∧ t.bootUnits = boot.foldl bootEffect s.bootUnits := by
  induction is generalizing boot s with
  | nil =>
    cases boot with
    | nil => exact ⟨s, rfl, rfl⟩
    | cons b bs => nomatch h
  | cons i is ih =>
    have hbeside (hi : besideBoot i = true) (hrest : boots boot is = true) :
        ∃ t, runInstrs (i :: is) s = .next t ∧ t.bootUnits = boot.foldl bootEffect s.bootUnits := by
      obtain ⟨u, hu, hsame⟩ := exec_besideBoot hi s
      obtain ⟨t, ht, hend⟩ := ih hboot hrest u
      exact ⟨t, by simp only [runInstrs, hu, ht], by rw [hend, hsame]⟩
    cases boot with
    | nil =>
      obtain ⟨hi, hrest⟩ : besideBoot i = true ∧ boots [] is = true := by simpa [boots] using h
      exact hbeside hi hrest
    | cons b bs =>
      rw [boots] at h
      split_ifs at h with hib
      · subst hib
        obtain ⟨u, hu, heffect⟩ := hboot i List.mem_cons_self s
        obtain ⟨t, ht, hend⟩ := ih (fun j hj => hboot j (List.mem_cons_of_mem _ hj)) h u
        exact ⟨t, by simp only [runInstrs, hu, ht], by rw [hend, heffect, List.foldl_cons]⟩
      · obtain ⟨hi, hrest⟩ := Bool.and_eq_true_iff.mp h
        exact hbeside hi hrest

theorem foldl_bootEffect_handshake {handshake : List Instr} (hhand : ∀ i ∈ handshake, handshakeStep i = true)
    (u : BootUnits) : handshake.foldl bootEffect u = u := by
  induction handshake generalizing u with
  | nil => rfl
  | cons i is ih =>
    obtain ⟨hi, his⟩ := List.forall_mem_cons.mp hhand
    have hnone : bootEffect u i = u := by
      unfold bootEffect
      split
      · nomatch hi
      · nomatch hi
      · rfl
    rw [List.foldl_cons, hnone, ih his]

/-- Settles O27: the boot run has the effect of remap(32, 40) and of the timer programmer on the reset values, and no other
instruction than the two named writes a mask and leaves it changed. -/
theorem masksChangeOnlyByTheirWords : Obligations.MasksChangeOnlyByTheirWords := by
  constructor
  · intro p l turns ever d handshake booting hd hhand hboots
    obtain ⟨t, hrun, hunits⟩ := runInstrs_boots (exec_bootSequence hd hhand) hboots
      { State.resetWith p l with inside := turns, insideEver := ever }
    rw [bootSequence, List.foldl_append, foldl_bootEffect_handshake hhand] at hunits
    refine ⟨t, hrun, congrArg (·.master.imr) hunits, congrArg (·.slave.imr) hunits, congrArg (·.master.base) hunits,
      congrArg (·.slave.base) hunits, congrArg (·.master.init) hunits, congrArg (·.slave.init) hunits,
      congrArg (·.master.isr) hunits, congrArg (·.slave.isr) hunits, congrArg (·.pit) hunits, congrArg (·.clk) hunits,
      congrArg (·.asm.pos) hunits, congrArg (·.pktlog) hunits, congrArg (·.evlog) hunits, congrArg (·.diag) hunits,
      congrArg (·.handler) hunits⟩
  · intro i s t h
    exact ⟨exec_imr h .master, exec_imr h .slave⟩

end Sys2Proof.Machine
end

section
/-! The statement of 20_memory.md: the steps that read no transaction's word (R75, R117, R118, R194, R353). -/

namespace Sys2Proof.Machine

/-! One step on each entry without a transaction. -/

theorem step_nil {s : State} (hin : s.input = []) : step s = .next s := by
  simp only [step, hin]

theorem step_wide {s : State} {p : Port} {rest : List Input} (hin : s.input = .wide p :: rest) :
    step s = .next (wideAccess p { s with input := rest }) := by
  simp only [step, hin]

theorem step_handlerReturn {s : State} {rest : List Input} (hin : s.input = .handlerReturn :: rest) :
    step s = .next (endHandler { s with input := rest }) := by
  simp only [step, hin]

/-- As for `runWord_of_decode_instr`, the reading may be taken in any state with these two `init` values (R122). -/
theorem runWord_of_decode_invalid {s : State} {w : Word} {why : Reject}
    (hdec : decode s.master.init s.slave.init w = .invalid why) : runWord w s = .next (invalidWord w s) := by
  simp only [runWord, hdec]

/-! A wide access. -/

/-- The reason a 16-bit or 32-bit access to a port is refused for (R75, R118, R194; log entry 15). -/
def wideReason (p : Port) : Reason :=
  if p ∈ Config.portMap then .wideAccess
  else if p = Config.portPitCh1 ∨ p = Config.portPitCh2 then .timerReadOrOtherChannel else .unmappedPort

theorem wideAccess_eq (p : Port) (s : State) : wideAccess p s = refuse (wideReason p) s := by
  unfold wideAccess wideReason
  split_ifs
  · rfl
  · rfl
  · rfl

/-- Settles O8: one step lemma for each kind of entry, then what its operation does on the state without that entry. -/
theorem stepWithoutATransaction : Obligations.StepWithoutATransaction := by
  intro s
  refine ⟨step_nil, ?invalid, ?wide, ?handlerReturn⟩
  case invalid =>
    intro w rest why hin hdec
    calc step s = runWord w { s with input := rest } := step_word hin
      _ = .next (invalidWord w { s with input := rest }) := runWord_of_decode_invalid hdec
  case wide =>
    intro p rest hin
    rw [step_wide hin, wideAccess_eq, refuse_eq]
    rfl
  case handlerReturn =>
    intro rest hin
    rw [step_handlerReturn hin, endHandler_eq]
    constructor
    · intro hidle
      simp only [hidle, Option.map_none, Option.toList_none, List.append_nil]
    · intro h hrun
      simp only [hrun, Option.map_some, Option.toList_some]

end Sys2Proof.Machine
end

section
/-! The statements of 30_encoding.md about the transaction word (R110, R111, R117, R120, R122). The first part restates the
decoder on words given by their fields, so that no later proof extracts a bit; decoding, encoding and the reserved bits are
then read off field by field. -/

namespace Sys2Proof

/-! The fields of the operands, and the words whose reserved field is 0. -/

/-- The operand bits are their high field over their low one. -/
theorem exists_append {m n : Nat} (o : BitVec (m + n)) : ∃ (a : BitVec m) (b : BitVec n), o = a ++ b :=
  ⟨o.extractLsb' n m, o.extractLsb' 0 n, BitVec.extractLsb'_append_extractLsb'.symm⟩

theorem exists_append₃ {l m n : Nat} (o : BitVec (l + m + n)) :
    ∃ (a : BitVec l) (b : BitVec m) (c : BitVec n), o = a ++ b ++ c := by
  obtain ⟨ab, c, rfl⟩ := exists_append o
  obtain ⟨a, b, rfl⟩ := exists_append ab
  exact ⟨a, b, c, rfl⟩

theorem append_eq_zero_iff {m n : Nat} (a : BitVec m) (b : BitVec n) :
    a ++ b = 0#(m + n) ↔ a = 0#m ∧ b = 0#n := by
  constructor
  · intro h
    have ha : a = (a ++ b).extractLsb' n m := BitVec.extractLsb'_append_eq_left.symm
    have hb : b = (a ++ b).extractLsb' 0 n := BitVec.extractLsb'_append_eq_right.symm
    rw [h] at ha hb
    exact ⟨ha.trans BitVec.extractLsb'_zero, hb.trans BitVec.extractLsb'_zero⟩
  · rintro ⟨rfl, rfl⟩
    exact BitVec.zero_append_zero

/-- A mask of operand bits tests the operands alone. -/
theorem mkWord_and_operands (k : Byte) (o m : BitVec 24) : mkWord k o &&& mkWord 0#8 m = 0#32 ↔ o &&& m = 0#24 := by
  rw [mkWord, mkWord, BitVec.and_append, append_eq_zero_iff, BitVec.and_zero]
  exact and_iff_right rfl

/-- A mask over the high operand field tests that field. -/
theorem append_and_high {m n : Nat} (a : BitVec m) (b : BitVec n) :
    (a ++ b) &&& (BitVec.allOnes m ++ 0#n) = 0#(m + n) ↔ a = 0#m := by
  rw [BitVec.and_append, append_eq_zero_iff, BitVec.and_allOnes, BitVec.and_zero]
  exact and_iff_left rfl

theorem append_and_high₃ {l m n : Nat} (a : BitVec l) (b : BitVec m) (c : BitVec n) :
    (a ++ b ++ c) &&& (BitVec.allOnes l ++ 0#m ++ 0#n) = 0#(l + m + n) ↔ a = 0#l := by
  rw [BitVec.and_append, append_eq_zero_iff, append_and_high, BitVec.and_zero]
  exact and_iff_left rfl

/-- A mask over the low operand field tests that field. -/
theorem append_and_low {m n : Nat} (a : BitVec m) (b : BitVec n) :
    (a ++ b) &&& (0#m ++ BitVec.allOnes n) = 0#(m + n) ↔ b = 0#n := by
  rw [BitVec.and_append, append_eq_zero_iff, BitVec.and_allOnes, BitVec.and_zero]
  exact and_iff_right rfl

theorem reservedZero_zero {n : Nat} (d : Decoded) : reservedZero 0#n d = d := if_pos rfl

theorem reservedZero_of_ne {n : Nat} {r : BitVec n} (d : Decoded) (h : r ≠ 0#n) : reservedZero r d = .invalid .reservedBit :=
  if_neg h

/-! The decoder on a word given by its fields (R111). -/

section Fields
variable (mi si : Init)

theorem decode_in_fields (p : Port) (r : Byte) :
    decode mi si (mkWord 0x02#8 (p ++ r)) = reservedZero r (.instr (decodeIn p)) := by
  rw [decode_kind02, BitVec.extractLsb'_append_eq_right, BitVec.extractLsb'_append_eq_left]

theorem decode_irq_fields (r : BitVec 20) (line : BitVec 4) :
    decode mi si (mkWord 0x03#8 (r ++ line)) = reservedZero r (.instr (decodeIrq line)) := by
  rw [decode_kind03, BitVec.extractLsb'_append_eq_left, BitVec.extractLsb'_append_eq_right]

theorem decode_kbcPush_fields (r : BitVec 15) (src : Src) (byte : Byte) :
    decode mi si (mkWord 0x05#8 (r ++ src.code ++ byte)) = reservedZero r (.instr (.kbcPush src byte)) := by
  have hbit : (r ++ src.code ++ byte).getLsbD 8 = src.code.getLsbD 0 := by
    rw [BitVec.getLsbD_append, if_neg (by decide), BitVec.getLsbD_append, if_pos (by decide)]
  rw [decode_kind05, hbit, extract_concat_high _ _ _ _ (by decide), BitVec.extractLsb'_append_eq_left,
    BitVec.extractLsb'_append_eq_right]
  cases src <;> rfl

theorem decode_remap_fields (r masterOffset slaveOffset : Byte) :
    decode mi si (mkWord 0x10#8 (r ++ masterOffset ++ slaveOffset)) =
      reservedZero r (.instr (.remap masterOffset slaveOffset)) := by
  simp [decode]

theorem decode_ack_fields (r : BitVec 16) (vector : Byte) :
    decode mi si (mkWord 0x11#8 (r ++ vector)) = reservedZero r (.instr (.ack vector)) := by
  simp [decode]

theorem decode_program_fields (r : Byte) (divisor : BitVec 16) :
    decode mi si (mkWord 0x12#8 (r ++ divisor)) = reservedZero r (.instr (.program divisor)) := by
  rw [decode_kind12, BitVec.extractLsb'_append_eq_left, BitVec.extractLsb'_append_eq_right]

theorem decode_accept_fields (r status data : Byte) :
    decode mi si (mkWord 0x14#8 (r ++ status ++ data)) = reservedZero r (.instr (.accept status data)) := by
  simp [decode]

theorem decode_onEvent_fields (button kind : BitVec 2) (callback : CallbackId) :
    decode mi si (mkWord 0x16#8 (button ++ kind ++ callback)) = .instr (.onEvent button kind callback) := by
  rw [decode_kind16, extract_concat_high _ _ 22 _ (by decide), BitVec.extractLsb'_append_eq_left,
    extract_concat_high _ _ 20 _ (by decide), BitVec.extractLsb'_append_eq_right, BitVec.extractLsb'_append_eq_right]

theorem decode_buttonUpdate_fields (r : BitVec 21) (raw : Bool) (button : BitVec 2) :
    decode mi si (mkWord 0x21#8 (r ++ BitVec.ofBool raw ++ button)) = reservedZero r (decodeButtonUpdate button raw) := by
  have hbit : (r ++ BitVec.ofBool raw ++ button).getLsbD 2 = raw := by
    rw [BitVec.getLsbD_append, if_neg (by decide), BitVec.getLsbD_append, if_pos (by decide)]
    cases raw <;> rfl
  rw [decode_kind21, hbit, extract_concat_high _ _ _ _ (by decide), BitVec.extractLsb'_append_eq_left,
    BitVec.extractLsb'_append_eq_right]

theorem decodeButtonUpdate_code (button : Button) (raw : Bool) :
    decodeButtonUpdate button.code raw = .instr (.buttonUpdate button raw) := by
  cases button <;> rfl

end Fields

/-! The ports with no row of their own (R118). -/

theorem unnamedPort_iff {p : Port} : unnamedPort p = true ↔ p ∉ Config.namedPorts := by simp [unnamedPort]

theorem decodeOut_unnamed {p : Port} (hp : p ∉ Config.namedPorts) (mi si : Init) (v : Byte) :
    decodeOut mi si p v = .outUnmapped p v := by
  simp only [Config.namedPorts, List.mem_cons, not_or] at hp
  simp only [decodeOut, hp, if_false]

theorem decodeIn_unnamed {p : Port} (hp : p ∉ Config.namedPorts) : decodeIn p = .inUnmapped p := by
  simp only [Config.namedPorts, List.mem_cons, not_or] at hp
  simp only [decodeIn, hp, if_false]

/-! The word of every transaction is read back as it. -/

/-- Settles O1: each transaction's word is read by its kind's row; what `wf` and `readUnder` say of the operands picks the
transaction among those of one port. -/
theorem decodeOfEncodeIsTheInstruction : Obligations.DecodeOfEncodeIsTheInstruction := by
  intro i mi si hwf hread
  cases i with
  | outPicMIcw1 | outPicSIcw1 | outPicMEoi | outPicSEoi | outPitCtrl => exact decode_out mi si _ _
  | outPitData v | outPitCh1 v | outPitCh2 v | outKbcData v | outKbcCmd v | outIoWait v => exact decode_out mi si _ v
  | outPicMIcw2 v | outPicMIcw3 v | outPicMIcw4 v | outPicMOcw1 v | outPicSIcw2 v | outPicSIcw3 v | outPicSIcw4 v
  | outPicSOcw1 v =>
    obtain rfl := eq_of_beq hread
    exact decode_out _ _ _ v
  | outPicMEvenOther v | outPicSEvenOther v =>
    simp only [Instr.wf, Bool.and_eq_true, bne_iff_ne] at hwf
    obtain ⟨hicw1, heoi⟩ := hwf
    exact (decode_out mi si _ v).trans (congrArg _ ((if_neg hicw1).trans (if_neg heoi)))
  | outPitCtrlOther v =>
    exact (decode_out mi si _ v).trans (congrArg _ (if_neg (bne_iff_ne.mp hwf)))
  | outUnmapped p v => exact (decode_out mi si p v).trans (congrArg _ (decodeOut_unnamed (unnamedPort_iff.mp hwf) mi si v))
  | inPicMIrr | inPicSIrr | inPicMImr | inPicSImr | inPitData | inPitCtrl | inPitCh1 | inPitCh2 | inKbcStatus | inKbcData
  | inIoWait => exact decode_in mi si _
  | inUnmapped p => exact (decode_in mi si p).trans (congrArg _ (decodeIn_unnamed (unnamedPort_iff.mp hwf)))
  | irq2 => exact (decode_irq_fields mi si 0#20 2#4).trans (reservedZero_zero _)
  | irq line =>
    have hline : decodeIrq line = .irq line := if_neg (bne_iff_ne.mp hwf)
    rw [encode, decode_irq_fields, reservedZero_zero, hline]
  | inta => exact (decode_kind04 mi si 0#24).trans (reservedZero_zero _)
  | kbcPush src byte => exact (decode_kbcPush_fields mi si 0#15 src byte).trans (reservedZero_zero _)
  | remap mo so => exact (decode_remap_fields mi si 0#8 mo so).trans (reservedZero_zero _)
  | ack v => exact (decode_ack_fields mi si 0#16 v).trans (reservedZero_zero _)
  | program d => exact (decode_program_fields mi si 0#8 d).trans (reservedZero_zero _)
  | drain => exact (decode_kind13 mi si 0#24).trans (reservedZero_zero _)
  | accept st d => exact (decode_accept_fields mi si 0#8 st d).trans (reservedZero_zero _)
  | clockAdvance => exact (decode_kind15 mi si 0#24).trans (reservedZero_zero _)
  | onEvent b k c => exact decode_onEvent_fields mi si b k c
  | packetComplete => exact (decode_kind20 mi si 0#24).trans (reservedZero_zero _)
  | buttonUpdate b raw => rw [encode, decode_buttonUpdate_fields, reservedZero_zero, decodeButtonUpdate_code]

/-! What a decoded word's transaction is. -/

/-- Under these `init` values the word `w` is the spelling of `i`, and `i` is one a word can spell. -/
structure Spells (mi si : Init) (w : Word) (i : Instr) : Prop where
  encode : encode i = w
  wf : i.wf = true
  readUnder : i.readUnder mi si = true

section Ports
variable (mi si : Init)

theorem spells_outMasterEven (v : Byte) : Spells mi si (outWord Config.portMasterEven v) (decodeOutMasterEven v) := by
  unfold decodeOutMasterEven
  split_ifs with hicw1 heoi
  · exact ⟨by rw [hicw1]; rfl, rfl, rfl⟩
  · exact ⟨by rw [heoi]; rfl, rfl, rfl⟩
  · exact ⟨rfl, by simp [Instr.wf, hicw1, heoi], rfl⟩

theorem spells_outSlaveEven (v : Byte) : Spells mi si (outWord Config.portSlaveEven v) (decodeOutSlaveEven v) := by
  unfold decodeOutSlaveEven
  split_ifs with hicw1 heoi
  · exact ⟨by rw [hicw1]; rfl, rfl, rfl⟩
  · exact ⟨by rw [heoi]; rfl, rfl, rfl⟩
  · exact ⟨rfl, by simp [Instr.wf, hicw1, heoi], rfl⟩

theorem spells_outPitCtrl (v : Byte) :
    Spells mi si (outWord Config.portPitCtrl v) (if v = 0x34#8 then .outPitCtrl else .outPitCtrlOther v) := by
  split_ifs with hctrl
  · exact ⟨by rw [hctrl]; rfl, rfl, rfl⟩
  · exact ⟨rfl, bne_iff_ne.mpr hctrl, rfl⟩

theorem spells_decodeOut (p : Port) (v : Byte) : Spells mi si (outWord p v) (decodeOut mi si p v) := by
  by_cases hp : p ∈ Config.namedPorts
  · simp only [Config.namedPorts, List.mem_cons, List.not_mem_nil, or_false] at hp
    obtain rfl | rfl | rfl | rfl | rfl | rfl | rfl | rfl | rfl | rfl | rfl := hp
    · exact spells_outMasterEven mi si v
    · cases mi <;> exact ⟨rfl, rfl, rfl⟩
    · exact spells_outSlaveEven mi si v
    · cases si <;> exact ⟨rfl, rfl, rfl⟩
    · exact ⟨rfl, rfl, rfl⟩
    · exact ⟨rfl, rfl, rfl⟩
    · exact ⟨rfl, rfl, rfl⟩
    · exact spells_outPitCtrl mi si v
    all_goals exact ⟨rfl, rfl, rfl⟩
  · rw [decodeOut_unnamed hp]
    exact ⟨rfl, unnamedPort_iff.mpr hp, rfl⟩

theorem spells_decodeIn (p : Port) : Spells mi si (inWord p) (decodeIn p) := by
  by_cases hp : p ∈ Config.namedPorts
  · simp only [Config.namedPorts, List.mem_cons, List.not_mem_nil, or_false] at hp
    obtain rfl | rfl | rfl | rfl | rfl | rfl | rfl | rfl | rfl | rfl | rfl := hp
    all_goals exact ⟨rfl, rfl, rfl⟩
  · rw [decodeIn_unnamed hp]
    exact ⟨rfl, unnamedPort_iff.mpr hp, rfl⟩

theorem spells_decodeIrq (line : BitVec 4) : Spells mi si (mkWord 0x03#8 (0#20 ++ line)) (decodeIrq line) := by
  unfold decodeIrq
  split_ifs with hcascade
  · exact ⟨by rw [hcascade]; rfl, rfl, rfl⟩
  · exact ⟨rfl, bne_iff_ne.mpr hcascade, rfl⟩

end Ports

/-! The operand fields of one and two bits. -/

theorem exists_src_code (bit : BitVec 1) : ∃ src : Src, bit = src.code := by
  have hbit : ∀ b : BitVec 1, b = Src.kbd.code ∨ b = Src.aux.code := by decide
  exact (hbit bit).elim (fun h => ⟨.kbd, h⟩) (fun h => ⟨.aux, h⟩)

theorem exists_button_code_or (field : BitVec 2) : (∃ button : Button, field = button.code) ∨ field = 3#2 := by
  have hfield : ∀ f : BitVec 2, f = Button.left.code ∨ f = Button.right.code ∨ f = Button.middle.code ∨ f = 3#2 := by decide
  obtain h | h | h | h := hfield field
  · exact .inl ⟨.left, h⟩
  · exact .inl ⟨.right, h⟩
  · exact .inl ⟨.middle, h⟩
  · exact .inr h

theorem exists_ofBool (bit : BitVec 1) : ∃ b : Bool, bit = BitVec.ofBool b := by
  revert bit
  decide

/-! R111's rows, kind by kind. -/

/-- R111's kinds, each with the operand bits it leaves unassigned. -/
def reservedBits : List (Byte × Word) :=
  [(0x01#8, 0x00000000#32), (0x02#8, 0x000000FF#32), (0x03#8, 0x00FFFFF0#32), (0x04#8, 0x00FFFFFF#32),
   (0x05#8, 0x00FFFE00#32), (0x10#8, 0x00FF0000#32), (0x11#8, 0x00FFFF00#32), (0x12#8, 0x00FF0000#32),
   (0x13#8, 0x00FFFFFF#32), (0x14#8, 0x00FF0000#32), (0x15#8, 0x00FFFFFF#32), (0x16#8, 0x00000000#32),
   (0x20#8, 0x00FFFFFF#32), (0x21#8, 0x00FFFFF8#32)]

/-- A button_update word with button field 3, which spells no transaction (log entry 8). -/
def noButtonWord (w : Word) : Prop := w = 0x21000003#32 ∨ w = 0x21000007#32

/-- How a word `w` of a listed kind with the reserved bits `mask` is read: with a reserved bit set it is invalid, with none
set it is a transaction unless its button field is 3, and the transaction read spells `w`. -/
structure Row (mi si : Init) (mask w : Word) : Prop where
  reserved : w &&& mask ≠ 0#32 → ∃ why, decode mi si w = .invalid why
  accepted : w &&& mask = 0#32 → ¬noButtonWord w → ∃ i, decode mi si w = .instr i
  spelled : ∀ i, decode mi si w = .instr i → Spells mi si w i

section Rows
variable {mi si : Init}

theorem Row.of_instr {w : Word} {i : Instr} (hdec : decode mi si w = .instr i) (hspell : Spells mi si w i) :
    Row mi si 0#32 w where
  reserved hne := absurd BitVec.and_zero hne
  accepted _ _ := ⟨i, hdec⟩
  spelled j hj := by
    cases hdec.symm.trans hj
    exact hspell

/-- The row of a kind whose reserved field is `r`: it answers `d` once that field is 0. -/
theorem Row.of_reservedZero {n : Nat} {r : BitVec n} {mask w : Word} {d : Decoded} (hmask : w &&& mask = 0#32 ↔ r = 0#n)
    (hdec : decode mi si w = reservedZero r d)
    (haccept : r = 0#n → ¬noButtonWord w → ∃ i, d = .instr i)
    (hspell : r = 0#n → ∀ i, d = .instr i → Spells mi si w i) : Row mi si mask w where
  reserved hne := ⟨.reservedBit, hdec.trans (reservedZero_of_ne d (mt hmask.mpr hne))⟩
  accepted hz hw := by
    obtain ⟨i, hi⟩ := haccept (hmask.mp hz) hw
    exact ⟨i, hdec.trans (reservedZero_eq_instr.mpr ⟨hmask.mp hz, hi⟩)⟩
  spelled i hi := by
    obtain ⟨hz, hd⟩ := reservedZero_eq_instr.mp (hdec.symm.trans hi)
    exact hspell hz i hd

theorem Row.of_reservedZero_instr {n : Nat} {r : BitVec n} {mask w : Word} {i : Instr}
    (hmask : w &&& mask = 0#32 ↔ r = 0#n) (hdec : decode mi si w = reservedZero r (.instr i))
    (hspell : r = 0#n → Spells mi si w i) : Row mi si mask w :=
  .of_reservedZero hmask hdec (fun _ _ => ⟨i, rfl⟩) fun hz j hj => by
    cases hj
    exact hspell hz

/-- The row of a kind without operands: all its operand bits are reserved. -/
theorem Row.of_no_operands {k : Byte} {i : Instr} {o : BitVec 24}
    (hdec : decode mi si (mkWord k o) = reservedZero o (.instr i)) (hspell : Spells mi si (mkWord k 0#24) i) :
    Row mi si 0x00FFFFFF#32 (mkWord k o) :=
  .of_reservedZero_instr ((mkWord_and_operands k o (BitVec.allOnes 24)).trans (by rw [BitVec.and_allOnes])) hdec
    fun hz => hz ▸ hspell

theorem row_out (o : BitVec 24) : Row mi si 0x00000000#32 (mkWord 0x01#8 o) := by
  obtain ⟨p, v, rfl⟩ := exists_append (m := 16) (n := 8) o
  exact .of_instr (decode_out mi si p v) (spells_decodeOut mi si p v)

theorem row_in (o : BitVec 24) : Row mi si 0x000000FF#32 (mkWord 0x02#8 o) := by
  obtain ⟨p, r, rfl⟩ := exists_append (m := 16) (n := 8) o
  exact .of_reservedZero_instr ((mkWord_and_operands _ _ _).trans (append_and_low p r)) (decode_in_fields mi si p r)
    fun hz => hz ▸ spells_decodeIn mi si p

theorem row_irq (o : BitVec 24) : Row mi si 0x00FFFFF0#32 (mkWord 0x03#8 o) := by
  obtain ⟨r, line, rfl⟩ := exists_append (m := 20) (n := 4) o
  exact .of_reservedZero_instr ((mkWord_and_operands _ _ _).trans (append_and_high r line))
    (decode_irq_fields mi si r line) fun hz => hz ▸ spells_decodeIrq mi si line

theorem row_kbcPush (o : BitVec 24) : Row mi si 0x00FFFE00#32 (mkWord 0x05#8 o) := by
  obtain ⟨r, bit, byte, rfl⟩ := exists_append₃ (l := 15) (m := 1) (n := 8) o
  obtain ⟨src, rfl⟩ := exists_src_code bit
  exact .of_reservedZero_instr ((mkWord_and_operands _ _ _).trans (append_and_high₃ r src.code byte))
    (decode_kbcPush_fields mi si r src byte) fun hz => hz ▸ ⟨rfl, rfl, rfl⟩

theorem row_remap (o : BitVec 24) : Row mi si 0x00FF0000#32 (mkWord 0x10#8 o) := by
  obtain ⟨r, mo, so, rfl⟩ := exists_append₃ (l := 8) (m := 8) (n := 8) o
  exact .of_reservedZero_instr ((mkWord_and_operands _ _ _).trans (append_and_high₃ r mo so))
    (decode_remap_fields mi si r mo so) fun hz => hz ▸ ⟨rfl, rfl, rfl⟩

theorem row_ack (o : BitVec 24) : Row mi si 0x00FFFF00#32 (mkWord 0x11#8 o) := by
  obtain ⟨r, v, rfl⟩ := exists_append (m := 16) (n := 8) o
  exact .of_reservedZero_instr ((mkWord_and_operands _ _ _).trans (append_and_high r v))
    (decode_ack_fields mi si r v) fun hz => hz ▸ ⟨rfl, rfl, rfl⟩

theorem row_program (o : BitVec 24) : Row mi si 0x00FF0000#32 (mkWord 0x12#8 o) := by
  obtain ⟨r, d, rfl⟩ := exists_append (m := 8) (n := 16) o
  exact .of_reservedZero_instr ((mkWord_and_operands _ _ _).trans (append_and_high r d))
    (decode_program_fields mi si r d) fun hz => hz ▸ ⟨rfl, rfl, rfl⟩

theorem row_accept (o : BitVec 24) : Row mi si 0x00FF0000#32 (mkWord 0x14#8 o) := by
  obtain ⟨r, st, d, rfl⟩ := exists_append₃ (l := 8) (m := 8) (n := 8) o
  exact .of_reservedZero_instr ((mkWord_and_operands _ _ _).trans (append_and_high₃ r st d))
    (decode_accept_fields mi si r st d) fun hz => hz ▸ ⟨rfl, rfl, rfl⟩

theorem row_onEvent (o : BitVec 24) : Row mi si 0x00000000#32 (mkWord 0x16#8 o) := by
  obtain ⟨b, k, c, rfl⟩ := exists_append₃ (l := 2) (m := 2) (n := 20) o
  exact .of_instr (decode_onEvent_fields mi si b k c) ⟨rfl, rfl, rfl⟩

/-- Button field 3 alone names no button (R260). -/
theorem row_buttonUpdate (o : BitVec 24) : Row mi si 0x00FFFFF8#32 (mkWord 0x21#8 o) := by
  obtain ⟨r, bit, field, rfl⟩ := exists_append₃ (l := 21) (m := 1) (n := 2) o
  obtain ⟨raw, rfl⟩ := exists_ofBool bit
  refine .of_reservedZero ((mkWord_and_operands _ _ _).trans (append_and_high₃ r (BitVec.ofBool raw) field))
    (decode_buttonUpdate_fields mi si r raw field) ?accept ?spell
  case accept =>
    rintro rfl hword
    obtain ⟨button, rfl⟩ | rfl := exists_button_code_or field
    · exact ⟨_, decodeButtonUpdate_code button raw⟩
    · cases raw
      · exact absurd (.inl rfl) hword
      · exact absurd (.inr rfl) hword
  case spell =>
    rintro rfl i hi
    obtain ⟨button, rfl⟩ | rfl := exists_button_code_or field
    · cases (decodeButtonUpdate_code button raw).symm.trans hi
      exact ⟨rfl, rfl, rfl⟩
    · exact Decoded.noConfusion hi

/-- Every listed kind is read by its row. -/
theorem row_of_listed {w : Word} {e : Byte × Word} (hlisted : e ∈ reservedBits) (hkind : kindOf w = e.1) :
    Row mi si e.2 w := by
  rw [← mkWord_fields w, hkind]
  simp only [reservedBits, List.mem_cons, List.not_mem_nil, or_false] at hlisted
  obtain rfl | rfl | rfl | rfl | rfl | rfl | rfl | rfl | rfl | rfl | rfl | rfl | rfl | rfl := hlisted
  · exact row_out _
  · exact row_in _
  · exact row_irq _
  · exact .of_no_operands (decode_kind04 mi si _) ⟨rfl, rfl, rfl⟩
  · exact row_kbcPush _
  · exact row_remap _
  · exact row_ack _
  · exact row_program _
  · exact .of_no_operands (decode_kind13 mi si _) ⟨rfl, rfl, rfl⟩
  · exact row_accept _
  · exact .of_no_operands (decode_kind15 mi si _) ⟨rfl, rfl, rfl⟩
  · exact row_onEvent _
  · exact .of_no_operands (decode_kind20 mi si _) ⟨rfl, rfl, rfl⟩
  · exact row_buttonUpdate _

/-- A word of no listed kind is invalid (R117). -/
theorem decode_of_unlisted {w : Word} (hunlisted : ∀ e ∈ reservedBits, kindOf w ≠ e.1) :
    decode mi si w = .invalid .unlistedKind := by
  simp only [reservedBits, List.forall_mem_cons, List.not_mem_nil, false_implies, implies_true, and_true] at hunlisted
  simp only [decode, hunlisted, if_false]

theorem decode_noButtonWord {w : Word} (hw : noButtonWord w) : decode mi si w = .invalid .noSuchButton := by
  obtain rfl | rfl := hw
  · rfl
  · rfl

end Rows

/-- Settles O2: the row of the word's kind says what the transaction read from it spells, and no other kind reads one. -/
theorem encodeOfDecodeIsTheWord : Obligations.EncodeOfDecodeIsTheWord := by
  intro mi si w i hdec
  by_cases hlisted : ∃ e ∈ reservedBits, kindOf w = e.1
  · obtain ⟨e, he, hkind⟩ := hlisted
    obtain ⟨hencode, hwf, hread⟩ := (row_of_listed he hkind).spelled i hdec
    exact ⟨hencode, hwf, hread⟩
  · push Not at hlisted
    exact Decoded.noConfusion ((decode_of_unlisted hlisted).symm.trans hdec)

/-- Settles O3: a word of a listed kind has a reserved bit set, which its row rejects; every other kind is unlisted. -/
theorem reservedWordsAreInvalid : Obligations.ReservedWordsAreInvalid := by
  intro mi si w hreserved
  by_cases hlisted : ∃ e ∈ reservedBits, kindOf w = e.1
  · obtain ⟨e, he, hkind⟩ := hlisted
    exact (row_of_listed he hkind).reserved (hreserved e he hkind)
  · push Not at hlisted
    exact ⟨.unlistedKind, decode_of_unlisted hlisted⟩

/-- Settles O4: the row of the word's kind accepts it, but for the two words with button field 3. -/
theorem listedWordsAreTransactions : Obligations.ListedWordsAreTransactions := by
  rintro mi si w ⟨e, he, hkind, hclear⟩
  rw [← not_or]
  constructor
  · rintro ⟨i, hi⟩ hword
    exact Decoded.noConfusion ((decode_noButtonWord hword).symm.trans hi)
  · exact (row_of_listed he hkind).accepted hclear

/-! What the reading takes from the state (R122). -/

theorem decodeOut_init_irrelevant {p : Port} (hm : p ≠ Config.portMasterOdd) (hs : p ≠ Config.portSlaveOdd)
    (mi si mi' si' : Init) (v : Byte) : decodeOut mi si p v = decodeOut mi' si' p v := by
  simp only [decodeOut, hm, hs, if_false]

/-- Settles O5: kind 0x01 is the only one read under the `init` values, and of its ports only the two odd ones; at the four
controller ports the reading is written out. -/
theorem readingDependsOnInitOnlyAtOddPorts : Obligations.ReadingDependsOnInitOnlyAtOddPorts := by
  refine ⟨?elsewhere, ?controllers⟩
  case elsewhere =>
    intro mi si mi' si' w hword
    by_cases hout : kindOf w = 0x01#8
    · have hport : ¬(portOf w = Config.portMasterOdd ∨ portOf w = Config.portSlaveOdd) := fun h => hword ⟨hout, h⟩
      obtain ⟨hm, hs⟩ := not_or.mp hport
      simp only [decode, hout, if_true, decodeOut_init_irrelevant hm hs mi si mi' si']
    · simp only [decode, hout, if_false]
  case controllers =>
    intro mi si v
    refine ⟨?masterOdd, ?slaveOdd, decode_out mi si _ v, decode_out mi si _ v⟩
    case masterOdd => cases mi <;> exact decode_out _ si _ v
    case slaveOdd => cases si <;> exact decode_out mi _ _ v

end Sys2Proof

namespace Sys2Proof.Machine

/-! The writes that only leave the block (R119, R230). -/

/-- Settles O42: each of the three writes only records itself. -/
theorem writesWithoutBlockEffect : Obligations.WritesWithoutBlockEffect := by
  intro s v
  have hwait : exec (.outIoWait v) s = .next (record (.out 0x80#16 v) s) := rfl
  have hdata : exec (.outKbcData v) s = .next (record (.out 0x60#16 v) s) := rfl
  have hcmd : exec (.outKbcCmd v) s = .next (record (.out 0x64#16 v) s) := rfl
  exact ⟨hwait, hdata, hcmd⟩

end Sys2Proof.Machine
end

section
/-! What a small operation writes of the controller pair, said once (R34 to R36), and what an in-service line holds back
(R140, R157). -/

namespace Sys2Proof.Machine

/-! The registers of the two controllers, one small operation at a time. -/

/-- The small operations that write a register of a controller. -/
def Micro.writesPic : Micro → Bool
  | .icw1 _ | .icw2 _ _ | .icw3 _ | .icw4 _ | .ocw1 _ _ | .eoi _ | .raiseLine _ | .deliverSlave | .deliverMaster
  | .spurious => true
  | _ => false

/-- Every other small operation leaves both controllers as they are. -/
theorem Micro.run_pic {m : Micro} (hm : m.writesPic = false) (s : State) (c : Ctl) : (m.run s).pic c = s.pic c := by
  cases m with
  | serviced d => exact serviced_pic d s c
  | pitCount v =>
    simp only [Micro.run]
    split_ifs
    · cases c <;> rfl
    · rfl
  | storeByte d =>
    simp only [Micro.run]
    split_ifs
    · cases c <;> rfl
    · cases c <;> rfl
    · cases c <;> rfl
    · rfl
  | button b x =>
    simp only [Micro.run]
    rw [updateButton_outside]
    cases c <;> rfl
  | refuse r => cases c <;> rfl
  | note e plain => cases c <;> rfl
  | pitCtrl => cases c <;> rfl
  | advanceClock => cases c <;> rfl
  | countDraw => cases c <;> rfl
  | popQueue => cases c <;> rfl
  | pushQueue src b => cases c <;> rfl
  | land => cases c <;> rfl
  | again => cases c <;> rfl
  | diagnose d => cases c <;> rfl
  | packet b0 b1 b2 => cases c <;> rfl
  | register b k v => cases c <;> rfl
  | _ => nomatch hm

/-- What holds of both controllers holds of them after one is replaced, if it holds of the new one. -/
theorem setPic_keeps (P : Pic → Prop) (s : State) (c : Ctl) {d : Ctl} {p : Pic} (h : P (s.pic d))
    (hp : P (s.pic c) → P p) : P ((s.setPic c p).pic d) := by
  rw [State.pic_setPic]
  split_ifs with hd
  · exact hp (hd ▸ h)
  · exact h

theorem setBit_of_set {v : Byte} {k : Nat} (h : v.getLsbD k = true) (i : Nat) : (setBit v i).getLsbD k = true := by
  simp [setBit, h]

theorem Landed.isr {s t : State} (h : Landed s t) (c : Ctl) : (t.pic c).isr = (s.pic c).isr := by rw [h.pic c]

theorem Landed.base {s t : State} (h : Landed s t) (c : Ctl) : (t.pic c).base = (s.pic c).base := by rw [h.pic c]

theorem Landed.irr {s t : State} (h : Landed s t) {c : Ctl} {k : Nat} (hk : (s.pic c).irr.getLsbD k = true) :
    (t.pic c).irr.getLsbD k = true := by
  cases c with
  | master => exact h.masterIrr k hk
  | slave => exact h.slaveIrr k hk

theorem spurious_isr {s : State} {c : Ctl} {k : Nat} (h : (s.pic c).isr.getLsbD k = true) :
    ((spurious s).pic c).isr.getLsbD k = true := by
  unfold spurious
  split_ifs
  · cases c with
    | master => exact setBit_of_set h 2
    | slave => exact h
  · cases c <;> exact h

theorem spurious_irr (s : State) (c : Ctl) : ((spurious s).pic c).irr = (s.pic c).irr := by
  unfold spurious
  split_ifs <;> cases c <;> rfl

theorem deliverSlave_isr {s : State} {c : Ctl} {k : Nat} (h : (s.pic c).isr.getLsbD k = true) :
    ((deliverSlave s).pic c).isr.getLsbD k = true := by
  cases c with
  | master => exact setBit_of_set h 2
  | slave => exact setBit_of_set h _

theorem deliverMaster_isr {s : State} {c : Ctl} {k : Nat} (h : (s.pic c).isr.getLsbD k = true) (n : Nat) :
    ((deliverMaster n s).pic c).isr.getLsbD k = true := by
  cases c with
  | master => exact setBit_of_set h n
  | slave => exact h

/-- Of the small operations only the end-of-interrupt takes a line out of service (R146). -/
theorem Micro.run_isr {m : Micro} (hm : ∀ d, m ≠ .eoi d) {s : State} {c : Ctl} {k : Nat}
    (h : (s.pic c).isr.getLsbD k = true) : ((m.run s).pic c).isr.getLsbD k = true := by
  cases m with
  | eoi d => exact absurd rfl (hm d)
  | icw1 d => exact setPic_keeps (·.isr.getLsbD k = true) s d h id
  | icw2 d v => exact setPic_keeps (·.isr.getLsbD k = true) s d h id
  | icw3 d => exact setPic_keeps (·.isr.getLsbD k = true) s d h id
  | icw4 d => exact setPic_keeps (·.isr.getLsbD k = true) s d h id
  | ocw1 d v => exact setPic_keeps (·.isr.getLsbD k = true) s d h id
  | raiseLine n => exact (Landed.raiseLine n s).isr c ▸ h
  | deliverSlave =>
    simp only [Micro.run]
    split_ifs
    · exact deliverSlave_isr h
    · exact h
  | deliverMaster =>
    simp only [Micro.run]
    split_ifs
    · exact deliverMaster_isr h _
    · exact h
  | spurious =>
    simp only [Micro.run]
    split_ifs
    · exact spurious_isr h
    · exact h
  | _ => rw [Micro.run_pic rfl]; exact h

/-- Of the small operations only a delivery clears a latched request (R152). -/
theorem Micro.run_irr {m : Micro} (hslave : m ≠ .deliverSlave) (hmaster : m ≠ .deliverMaster) {s : State} {c : Ctl}
    {k : Nat} (h : (s.pic c).irr.getLsbD k = true) : ((m.run s).pic c).irr.getLsbD k = true := by
  cases m with
  | deliverSlave => exact absurd rfl hslave
  | deliverMaster => exact absurd rfl hmaster
  | icw1 d => exact setPic_keeps (·.irr.getLsbD k = true) s d h id
  | icw2 d v => exact setPic_keeps (·.irr.getLsbD k = true) s d h id
  | icw3 d => exact setPic_keeps (·.irr.getLsbD k = true) s d h id
  | icw4 d => exact setPic_keeps (·.irr.getLsbD k = true) s d h id
  | ocw1 d v => exact setPic_keeps (·.irr.getLsbD k = true) s d h id
  | eoi d => exact setPic_keeps (·.irr.getLsbD k = true) s d h id
  | raiseLine n => exact (Landed.raiseLine n s).irr h
  | spurious =>
    simp only [Micro.run]
    split_ifs
    · rw [spurious_irr]; exact h
    · exact h
  | _ => rw [Micro.run_pic rfl]; exact h

/-- Of the small operations only ICW2 writes a vector base (R36). -/
theorem Micro.run_base {m : Micro} (hm : ∀ d v, m ≠ .icw2 d v) (s : State) (c : Ctl) :
    ((m.run s).pic c).base = (s.pic c).base := by
  cases m with
  | icw2 d v => exact absurd rfl (hm d v)
  | icw1 d => exact setPic_keeps (·.base = _) s d rfl id
  | icw3 d => exact setPic_keeps (·.base = _) s d rfl id
  | icw4 d => exact setPic_keeps (·.base = _) s d rfl id
  | ocw1 d v => exact setPic_keeps (·.base = _) s d rfl id
  | eoi d => exact setPic_keeps (·.base = _) s d rfl id
  | raiseLine n => exact (Landed.raiseLine n s).base c
  | deliverSlave =>
    simp only [Micro.run]
    split_ifs
    · cases c <;> rfl
    · rfl
  | deliverMaster =>
    simp only [Micro.run]
    split_ifs
    · cases c <;> rfl
    · rfl
  | spurious =>
    simp only [Micro.run, Machine.spurious]
    split_ifs
    · cases c <;> rfl
    · cases c <;> rfl
    · rfl
  | _ => rw [Micro.run_pic rfl]

/-! The requests an in-service line holds back (R140, R157). -/

theorem reqS_requests (s : State) {j : Nat} (hj : j < 8) :
    (reqS s).getLsbD j = true ↔ s.slave.irr.getLsbD j = true ∧ s.slave.imr.getLsbD j = false := by
  rw [reqS_getLsbD s hj, Bool.and_eq_true, Bool.not_eq_true']

theorem reqM_requests (s : State) {n : Nat} (hn : n < 8) : (reqM s).getLsbD n = true ↔
    (if n = 2 then slaveInt s = true else s.master.irr.getLsbD n = true) ∧ s.master.imr.getLsbD n = false := by
  rw [reqM_getLsbD s hn, Bool.and_eq_true, Bool.not_eq_true']
  split_ifs
  · rfl
  · rfl

theorem intOut_unblocked {s : State} (h : intOut s = true) {k : Nat} (hk : k ≤ lowest (reqM s)) :
    s.master.isr.getLsbD k = false := by
  obtain ⟨-, -, hfree⟩ := (intOut_iff s).mp h
  exact (blocked_eq_false (lowest_lt _)).mp hfree k hk

theorem slaveInt_unblocked {s : State} (h : slaveInt s = true) {k : Nat} (hk : k ≤ lowest (reqS s)) :
    s.slave.isr.getLsbD k = false := by
  obtain ⟨-, -, hfree⟩ := (slaveInt_iff s).mp h
  exact (blocked_eq_false (lowest_lt _)).mp hfree k hk

/-- A delivery through line 2 is of a request that the slave puts out (R39, R152). -/
theorem slaveInt_of_cascade {s : State} (h : intOut s = true) (h2 : lowest (reqM s) = 2) : slaveInt s = true := by
  obtain ⟨-, hsome, -⟩ := (intOut_iff s).mp h
  obtain ⟨hreq, -⟩ := (reqM_requests s (lowest_lt _)).mp (lowest_set hsome)
  rwa [if_pos h2] at hreq

/-- Line `n` of controller `d` is held back by line `k` of controller `c` in service: it is of the same or a lower
priority on that controller, or a line of the slave behind a master line up to the cascade's (R140). -/
def Behind (c : Ctl) (k : Nat) (d : Ctl) (n : Nat) : Prop := (d = c ∧ k ≤ n) ∨ (c = .master ∧ d = .slave ∧ k ≤ 2)

/-- Every line in service in `s` is in service in `t`, and the requests it holds back in `s` are still latched in `t`. -/
def StaysBlocked (s t : State) : Prop :=
  ∀ c k, (s.pic c).isr.getLsbD k = true → (t.pic c).isr.getLsbD k = true ∧
    ∀ d n, Behind c k d n → (s.pic d).irr.getLsbD n = true → (t.pic d).irr.getLsbD n = true

theorem StaysBlocked.refl (s : State) : StaysBlocked s s := fun _ _ hk => ⟨hk, fun _ _ _ hn => hn⟩

theorem StaysBlocked.trans (s t u : State) (h : StaysBlocked s t) (h' : StaysBlocked t u) : StaysBlocked s u := by
  intro c k hk
  obtain ⟨hserv, hlatch⟩ := h c k hk
  obtain ⟨hserv', hlatch'⟩ := h' c k hserv
  exact ⟨hserv', fun d n hb hn => hlatch' d n hb (hlatch d n hb hn)⟩

/-- The slave's delivered request is of higher priority than every slave line in service, and the cascade's line than every
master line in service. -/
theorem deliverSlave_staysBlocked {s : State} (hint : intOut s = true) (h2 : lowest (reqM s) = 2) :
    StaysBlocked s (deliverSlave s) := by
  intro c k hk
  refine ⟨deliverSlave_isr hk, ?_⟩
  intro d n hb hn
  cases d with
  | master => exact hn
  | slave =>
    rcases hb with ⟨rfl, hkn⟩ | ⟨rfl, -, hk2⟩
    · have hlt : lowest (reqS s) < k := by
        by_contra hle
        simp [slaveInt_unblocked (slaveInt_of_cascade hint h2) (Nat.le_of_not_lt hle)] at hk
      show (clearBit s.slave.irr (lowest (reqS s))).getLsbD n = true
      rw [clearBit_getLsbD _ (lowest_lt _), decide_eq_false (by omega : n ≠ lowest (reqS s))]
      simpa using hn
    · simp [intOut_unblocked hint (h2 ▸ hk2)] at hk

/-- The master's delivered request is of higher priority than every master line in service. -/
theorem deliverMaster_staysBlocked {s : State} (hint : intOut s = true) :
    StaysBlocked s (deliverMaster (lowest (reqM s)) s) := by
  intro c k hk
  refine ⟨deliverMaster_isr hk _, ?_⟩
  intro d n hb hn
  cases d with
  | slave => exact hn
  | master =>
    rcases hb with ⟨rfl, hkn⟩ | ⟨-, hd, -⟩
    · have hlt : lowest (reqM s) < k := by
        by_contra hle
        simp [intOut_unblocked hint (Nat.le_of_not_lt hle)] at hk
      show (clearBit s.master.irr (lowest (reqM s))).getLsbD n = true
      rw [clearBit_getLsbD _ (lowest_lt _), decide_eq_false (by omega : n ≠ lowest (reqM s))]
      simpa using hn
    · nomatch hd

theorem Micro.staysBlocked {m : Micro} (hm : ∀ d, m ≠ .eoi d) (s : State) : StaysBlocked s (m.run s) := by
  cases m with
  | deliverSlave =>
    simp only [Micro.run]
    split_ifs with h
    · exact deliverSlave_staysBlocked h.2.1 h.2.2
    · exact .refl s
  | deliverMaster =>
    simp only [Micro.run]
    split_ifs with h
    · exact deliverMaster_staysBlocked h.2.1
    · exact .refl s
  | _ => exact fun c k hk => ⟨Micro.run_isr hm hk, fun d n _ hn => Micro.run_irr (by nofun) (by nofun) hn⟩

/-- Settles O25: a run without an end-of-interrupt is made of small operations that each leave every line in service and the
requests behind it latched. -/
theorem missedEndOfInterruptBlocksForEver : Obligations.MissedEndOfInterruptBlocksForEver := by
  intro is s t hno hrun
  have hstays : StaysBlocked s t := by
    refine run_induction StaysBlocked.refl StaysBlocked.trans is (fun i hi _ _ hexec => ?_) hrun
    obtain ⟨hmaster, hslave, hack⟩ := hno i hi
    refine exec_induction StaysBlocked.refl StaysBlocked.trans (fun m hm s => Micro.staysBlocked ?_ s) hexec
    rintro d rfl
    rcases hm with h | h | ⟨v, h⟩
    · exact hmaster h
    · exact hslave h
    · exact hack v h
  constructor
  · intro k _ hk
    obtain ⟨hserv, hlatch⟩ := hstays .master k hk
    exact ⟨hserv, fun n hkn => hlatch .master n (.inl ⟨rfl, hkn⟩), fun hk2 n => hlatch .slave n (.inr ⟨rfl, rfl, hk2⟩)⟩
  · intro k _ hk
    obtain ⟨hserv, hlatch⟩ := hstays .slave k hk
    exact ⟨hserv, fun n hkn => hlatch .slave n (.inl ⟨rfl, hkn⟩)⟩

end Sys2Proof.Machine
end

section
/-! The statements of 40_pic.md about one controller's transactions: the port writes and reads (R141 to R149), the outputs
(R140), the edges and the acknowledge cycle (R150 to R152, R158). -/

namespace Sys2Proof.Machine

/-! Port writes. -/

/-- ICW1's one admitted word (R141). -/
theorem icw1_admitted (c : Ctl) (s : State) : icw1 c 0x11#8 s =
    record (.out (evenPort c) 0x11#8) (s.setPic c { s.pic c with imr := 0x00#8, init := .icw2 }) := if_neg (by decide)

/-- An ICW1 variant is refused by R141's reason, every other OCW2 and every OCW3 by R147's (R301). -/
theorem evenOther_eq (v : Byte) (s : State) :
    evenOther v s = refuse (if v.getLsbD 4 = true then .unadmittedICW1 else .unadmittedEvenPortWrite) s := by
  unfold evenOther
  split_ifs
  · rfl
  · rfl

theorem icw3_eq (c : Ctl) (v : Byte) (s : State) : icw3 c v s = if v = icw3Admitted c
    then record (.out (oddPort c) (icw3Admitted c)) (s.setPic c { s.pic c with init := .icw4 })
    else refuse .unadmittedICW3 s := by
  by_cases hv : v = icw3Admitted c
  · rw [if_pos hv, hv]
    exact if_neg (not_not.mpr rfl)
  · rw [if_neg hv]
    exact if_pos hv

theorem icw4_eq (c : Ctl) (v : Byte) (s : State) : icw4 c v s = if v = 0x01#8
    then record (.out (oddPort c) 0x01#8) (s.setPic c { s.pic c with init := .ready })
    else refuse .unadmittedICW4 s := by
  by_cases hv : v = 0x01#8
  · rw [if_pos hv, hv]
    exact if_neg (not_not.mpr rfl)
  · rw [if_neg hv]
    exact if_pos hv

/-- The base's five high bits are the data's (R115). -/
theorem baseOf_append (high : BitVec 5) (low : BitVec 3) : baseOf (high ++ low) = high ++ 0#3 := by
  revert high low
  decide

/-- Settles O13: ICW1's word is the admitted one, and a variant has bit 4 set. -/
theorem initialisationWordOne : Obligations.InitialisationWordOne := by
  intro s v
  refine ⟨congrArg Host.Outcome.next (icw1_admitted .master s), congrArg Host.Outcome.next (icw1_admitted .slave s), ?_⟩
  intro hbit _
  have hrefused : evenOther v s = refuse .unadmittedICW1 s := by rw [evenOther_eq, if_pos hbit]
  exact ⟨congrArg Host.Outcome.next hrefused, congrArg Host.Outcome.next hrefused⟩

/-- Settles O14: ICW2 tests nothing, and its base is the data's five high bits. -/
theorem initialisationWordTwo : Obligations.InitialisationWordTwo := by
  intro s high low
  rw [← baseOf_append high low]
  exact ⟨rfl, rfl⟩

/-- Settles O15: both words by their one admitted value on each controller. -/
theorem initialisationWordsThreeAndFour : Obligations.InitialisationWordsThreeAndFour := by
  intro s v
  refine ⟨?_, ?_, ?_, ?_⟩
  · exact (congrArg Host.Outcome.next (icw3_eq .master v s)).trans (apply_ite _ _ _ _)
  · exact (congrArg Host.Outcome.next (icw3_eq .slave v s)).trans (apply_ite _ _ _ _)
  · exact (congrArg Host.Outcome.next (icw4_eq .master v s)).trans (apply_ite _ _ _ _)
  · exact (congrArg Host.Outcome.next (icw4_eq .slave v s)).trans (apply_ite _ _ _ _)

/-- Settles O16: each of the four transactions is one assignment and one record, with no test to pass. -/
theorem maskRegisterWriteAndRead : Obligations.MaskRegisterWriteAndRead := by
  intro s v
  have hwrite : ∀ c, ocw1 c v s = record (.out (oddPort c) v) (s.setPic c { s.pic c with imr := v }) := fun _ => rfl
  have hread : ∀ c, readImr c s = record (.inp (oddPort c) (s.pic c).imr) s := fun _ => rfl
  exact ⟨congrArg Host.Outcome.next (hwrite .master), congrArg Host.Outcome.next (hwrite .slave),
    congrArg Host.Outcome.next (hread .master), congrArg Host.Outcome.next (hread .slave)⟩

/-- Settles O18: such a write only refuses itself, for a reason that bit 4 of the data decides. -/
theorem otherEvenPortWritesAreRefused : Obligations.OtherEvenPortWritesAreRefused := by
  intro s v _ _
  exact ⟨congrArg Host.Outcome.next (evenOther_eq v s), congrArg Host.Outcome.next (evenOther_eq v s)⟩

/-! The end-of-interrupt (R146). -/

/-- What an admitted end-of-interrupt does, but for the running handler (R146). -/
def eoiWritten (c : Ctl) (s : State) : State :=
  record (.out (evenPort c) 0x20#8) (s.setPic c { s.pic c with isr := isrAfterEoi (s.pic c).isr })

theorem eoiWritten_handler (c : Ctl) (s : State) : (eoiWritten c s).handler = s.handler := by simp [eoiWritten]

theorem eoi_of_ready {c : Ctl} {s : State} (h : (s.pic c).init = .ready) : eoi c s = serviced c (eoiWritten c s) :=
  if_neg (not_not.mpr h)

theorem eoi_of_not_ready {c : Ctl} {s : State} (h : (s.pic c).init ≠ .ready) : eoi c s = refuse .eoiDuringInit s :=
  if_pos h

/-- A handler that still owes the slave's end-of-interrupt goes on after the master's (R154, R309). -/
theorem serviced_master_owing {s : State} {v : Byte} {m : Bool} (h : s.handler = some ⟨v, true, m⟩) :
    serviced .master s = { s with handler := some ⟨v, true, false⟩ } := by
  simp only [serviced, h]

/-- A handler that still owes the master's end-of-interrupt goes on after the slave's (R154, R309). -/
theorem serviced_slave_owing {s : State} {v : Byte} {b : Bool} (h : s.handler = some ⟨v, b, true⟩) :
    serviced .slave s = { s with handler := some ⟨v, false, true⟩ } := by
  simp only [serviced, h]

/-- A handler that owes the slave nothing ends with the master's end-of-interrupt (R309). -/
theorem serviced_master_last {s : State} {v : Byte} {m : Bool} (h : s.handler = some ⟨v, false, m⟩) :
    serviced .master s = { s with handler := none, trace := s.trace ++ [.handlerEnd v] } := by
  simp only [serviced, h, endHandler_eq, Option.map_some, Option.toList_some]

/-- A handler that owes the master nothing ends with the slave's end-of-interrupt (R309, R354). -/
theorem serviced_slave_last {s : State} {v : Byte} {b : Bool} (h : s.handler = some ⟨v, b, false⟩) :
    serviced .slave s = { s with handler := none, trace := s.trace ++ [.handlerEnd v] } := by
  simp only [serviced, h, endHandler_eq, Option.map_some, Option.toList_some]

/-- Settles O17: the new ISR is the model's, characterised bit by bit, and the handler's cases are those of what it owes. -/
theorem endOfInterruptClearsTheHighestLine : Obligations.EndOfInterruptClearsTheHighestLine := by
  intro s
  refine ⟨?master, ?slave, ?masterRefused, ?slaveRefused⟩
  case master =>
    intro hready
    have heoi : exec .outPicMEoi s = .next (serviced .master (eoiWritten .master s)) :=
      congrArg Host.Outcome.next (eoi_of_ready hready)
    have hsame := eoiWritten_handler .master s
    refine ⟨isrAfterEoi s.master.isr, ?_, ?_, ?_, fun k _ => isrAfterEoi_getLsbD _ k⟩
    · intro hidle
      rw [heoi, serviced_idle _ _ (hsame.trans hidle)]
      rfl
    · intro v m hrun
      rw [heoi, serviced_master_owing (hsame.trans hrun)]
      rfl
    · intro v m hrun
      rw [heoi, serviced_master_last (hsame.trans hrun)]
      rfl
  case slave =>
    intro hready
    have heoi : exec .outPicSEoi s = .next (serviced .slave (eoiWritten .slave s)) :=
      congrArg Host.Outcome.next (eoi_of_ready hready)
    have hsame := eoiWritten_handler .slave s
    refine ⟨isrAfterEoi s.slave.isr, ?_, ?_, ?_, fun k _ => isrAfterEoi_getLsbD _ k⟩
    · intro hidle
      rw [heoi, serviced_idle _ _ (hsame.trans hidle)]
      rfl
    · intro v b hrun
      rw [heoi, serviced_slave_owing (hsame.trans hrun)]
      rfl
    · intro v b hrun
      rw [heoi, serviced_slave_last (hsame.trans hrun)]
      rfl
  case masterRefused =>
    intro hbusy
    exact congrArg Host.Outcome.next (eoi_of_not_ready (c := .master) hbusy)
  case slaveRefused =>
    intro hbusy
    exact congrArg Host.Outcome.next (eoi_of_not_ready (c := .slave) hbusy)

/-! The outputs and the request register's view (R140, R148). -/

/-- Settles O20: an output is an unblocked bit of the request function, and the request functions are known bit by bit. -/
theorem outputIsAnUnblockedRequest : Obligations.OutputIsAnUnblockedRequest := by
  intro s
  constructor
  · rw [slaveInt_iff, unblocked_iff]
    refine and_congr_right fun _ => exists_congr fun j => and_congr_right fun hj => ?_
    rw [reqS_requests s hj, and_assoc]
  · rw [intOut_iff, unblocked_iff]
    refine and_congr_right fun _ => exists_congr fun n => and_congr_right fun hn => ?_
    rw [reqM_requests s hn, and_assoc]

theorem irrView_master_getLsbD (s : State) {k : Nat} (hk : k < 8) :
    (irrView s .master).getLsbD k = if k = 2 then slaveInt s else s.master.irr.getLsbD k := by
  simp only [irrView, BitVec.getLsbD_or, BitVec.getLsbD_and, BitVec.getLsbD_not, hk, decide_true, Bool.true_and,
    apply_ite (fun v : Byte => v.getLsbD k), four_getLsbD k hk, BitVec.getLsbD_zero]
  by_cases h2 : k = 2
  · cases hint : slaveInt s <;> simp [h2]
  · simp [h2]

/-- Settles O19: the byte read is the request register's view, known bit by bit. -/
theorem requestRegisterRead : Obligations.RequestRegisterRead := by
  intro s
  have hread : ∀ c, readIrr c s = record (.inp (evenPort c) (irrView s c)) s := fun _ => rfl
  exact ⟨congrArg Host.Outcome.next (hread .slave), irrView s .master, congrArg Host.Outcome.next (hread .master),
    fun k hk => irrView_master_getLsbD s hk⟩

/-! Edges (R150, R151). -/

theorem raiseLine_of_ne {n : BitVec 4} (hn : n ≠ 2#4) (s : State) : raiseLine n s = record (.irq n)
    (s.setPic (lineCtl n) { s.pic (lineCtl n) with irr := setBit (s.pic (lineCtl n)).irr (lineIdx n) }) := if_neg hn

theorem lineCtl_of_lt {n : BitVec 4} (h : n.toNat < 8) : lineCtl n = .master ∧ lineIdx n = n.toNat :=
  ⟨if_pos h, Nat.mod_eq_of_lt h⟩

theorem lineCtl_of_ge {n : BitVec 4} (h : 8 ≤ n.toNat) : lineCtl n = .slave ∧ lineIdx n = n.toNat - 8 := by
  have hlt := n.isLt
  exact ⟨if_neg (by omega), by unfold lineIdx; omega⟩

/-- Settles O21: the two controllers' ranges of lines, and the cascade line. -/
theorem deviceEdgeLatchesTheRequest : Obligations.DeviceEdgeLatchesTheRequest := by
  intro s n
  refine ⟨?master, ?slave, ?cascade⟩
  case master =>
    intro hne hlt
    obtain ⟨hctl, hidx⟩ := lineCtl_of_lt hlt
    have hraise := raiseLine_of_ne hne s
    rw [hctl, hidx] at hraise
    exact congrArg Host.Outcome.next hraise
  case slave =>
    intro hge
    obtain ⟨hctl, hidx⟩ := lineCtl_of_ge hge
    have hne : n ≠ 2#4 := by rintro rfl; exact absurd hge (by decide)
    have hraise := raiseLine_of_ne hne s
    rw [hctl, hidx] at hraise
    exact congrArg Host.Outcome.next hraise
  case cascade =>
    have hraise : raiseLine 2#4 s = refuse .cascadeLineRaise s := if_pos rfl
    exact congrArg Host.Outcome.next hraise

/-! The acknowledge cycle (R152, R158). -/

theorem acknowledge_running {s : State} (h : s.handler ≠ none) : acknowledge s = s :=
  if_pos (Option.isSome_iff_ne_none.mpr h)

theorem acknowledge_delivers {s : State} (hidle : s.handler = none) (hint : intOut s = true) :
    acknowledge s = deliver s := by
  simp [acknowledge, hidle, hint]

theorem acknowledge_no_request {s : State} (hidle : s.handler = none) (hint : intOut s = false) :
    acknowledge s = if s.par.spurious then spurious s else s := by
  simp [acknowledge, hidle, hint]

/-- No line below the lowest request of the slave is requested. -/
theorem masked_below_reqS (s : State) {k : Nat} (hk : k < lowest (reqS s)) (hirr : s.slave.irr.getLsbD k = true) :
    s.slave.imr.getLsbD k = true := by
  have hnot := lowest_least _ k hk
  have hlt := lowest_lt (reqS s)
  by_contra hunmasked
  rw [(reqS_requests s (by omega)).mpr ⟨hirr, by simpa using hunmasked⟩] at hnot
  nomatch hnot

/-- No line below the lowest request of the master is requested. -/
theorem masked_below_reqM (s : State) {k : Nat} (hk : k < lowest (reqM s))
    (hreq : if k = 2 then slaveInt s = true else s.master.irr.getLsbD k = true) : s.master.imr.getLsbD k = true := by
  have hnot := lowest_least _ k hk
  have hlt := lowest_lt (reqM s)
  by_contra hunmasked
  rw [(reqM_requests s (by omega)).mpr ⟨hreq, by simpa using hunmasked⟩] at hnot
  nomatch hnot

/-- Settles O22: the delivered lines are the lowest bits of the two request functions. -/
theorem acknowledgeDeliversTheHighestRequest : Obligations.AcknowledgeDeliversTheHighestRequest := by
  refine ⟨fun s hrun => congrArg Host.Outcome.next (acknowledge_running hrun), fun s hidle hint => ?_⟩
  have hack : exec .inta s = .next (deliver s) := congrArg Host.Outcome.next (acknowledge_delivers hidle hint)
  obtain ⟨-, hsome, -⟩ := (intOut_iff s).mp hint
  obtain ⟨hreq, hunmasked⟩ := (reqM_requests s (lowest_lt _)).mp (lowest_set hsome)
  refine ⟨lowest (reqM s), lowest_lt _, hreq, hunmasked, fun k => masked_below_reqM s, ?master, ?slave⟩
  case master =>
    intro hn
    have hdeliver : deliver s = deliverMaster (lowest (reqM s)) s := if_neg hn
    rw [hack, hdeliver]
    rfl
  case slave =>
    intro hn
    obtain ⟨-, hsomeS, -⟩ := (slaveInt_iff s).mp (slaveInt_of_cascade hint hn)
    obtain ⟨hirr, hunmaskedS⟩ := (reqS_requests s (lowest_lt _)).mp (lowest_set hsomeS)
    have hdeliver : deliver s = deliverSlave s := if_pos hn
    refine ⟨lowest (reqS s), lowest_lt _, hirr, hunmaskedS, fun k => masked_below_reqS s, ?_⟩
    rw [hack, hdeliver]
    rfl

/-- The two answers of a spurious acknowledge (R158). -/
theorem spurious_cases (s : State) :
    spurious s = startHandler (s.master.base ||| 7#8) false (countDraw s) ∨
    (s.master.init = .ready ∧ s.master.imr.getLsbD 2 = false ∧
      spurious s = startHandler (s.slave.base ||| 7#8) true
        (countDraw { s with master := { s.master with isr := setBit s.master.isr 2 } })) := by
  unfold spurious
  split_ifs with h
  · simp only [Bool.and_eq_true, beq_iff_eq, Bool.not_eq_true'] at h
    obtain ⟨⟨-, hready⟩, hunmasked⟩ := h
    exact .inr ⟨hready, hunmasked, rfl⟩
  · exact .inl rfl

/-- Settles O23: with no request an acknowledge cycle is nothing or spurious, and a spurious one has two answers. -/
theorem spuriousAcknowledge : Obligations.SpuriousAcknowledge := by
  intro s hidle hint
  have hack := acknowledge_no_request hidle hint
  constructor
  · intro hoff
    rw [hoff] at hack
    exact congrArg Host.Outcome.next hack
  · intro hon
    rw [hon] at hack
    rcases spurious_cases s with hmaster | ⟨hready, hunmasked, hslave⟩
    · exact .inl (congrArg Host.Outcome.next (hack.trans hmaster))
    · exact .inr ⟨hready, hunmasked, congrArg Host.Outcome.next (hack.trans hslave)⟩

end Sys2Proof.Machine
end

section
/-! The vectors that acknowledge cycles return (R112, R155): each is a base with a line number, and only a remap and ICW2
write a base. -/

namespace Sys2Proof.Machine

/-! Runs, taken apart. -/

/-- Every run ends in a next state (R300). -/
theorem runInstrs_next (is : List Instr) (s : State) : ∃ t, runInstrs is s = .next t := by
  induction is generalizing s with
  | nil => exact ⟨s, rfl⟩
  | cons i is ih =>
    obtain ⟨u, hu, -⟩ := exec_micros i s
    obtain ⟨t, ht⟩ := ih u
    exact ⟨t, by simp only [runInstrs, hu, ht]⟩

theorem runInstrs_append_inv {is js : List Instr} {s t : State} (h : runInstrs (is ++ js) s = .next t) :
    ∃ u, runInstrs is s = .next u ∧ runInstrs js u = .next t := by
  obtain ⟨u, hu⟩ := runInstrs_next is s
  exact ⟨u, hu, by rw [← runInstrs_append hu]; exact h⟩

/-! The acknowledge cycles in the trace. -/

theorem inta_of_serviced {c : Ctl} {s : State} {v : Byte} (h : Entry.inta v ∈ (serviced c s).trace) :
    Entry.inta v ∈ s.trace := by
  unfold serviced at h
  split at h
  · exact h
  · exact h
  · rw [endHandler_eq] at h
    simpa using h

theorem inta_of_raiseLine {n : BitVec 4} {s : State} {v : Byte} (h : Entry.inta v ∈ (raiseLine n s).trace) :
    Entry.inta v ∈ s.trace := by
  unfold raiseLine at h
  split at h
  · simpa using h
  · simpa using h

/-- Of the small operations only the deliveries and the spurious acknowledge record an acknowledge cycle. -/
theorem Micro.inta_of_run {m : Micro} (hslave : m ≠ .deliverSlave) (hmaster : m ≠ .deliverMaster) (hspur : m ≠ .spurious)
    {s : State} {v : Byte} (h : Entry.inta v ∈ (m.run s).trace) : Entry.inta v ∈ s.trace := by
  cases m with
  | deliverSlave => exact absurd rfl hslave
  | deliverMaster => exact absurd rfl hmaster
  | spurious => exact absurd rfl hspur
  | serviced c => exact inta_of_serviced h
  | raiseLine n => exact inta_of_raiseLine h
  | refuse r => simpa [Micro.run] using h
  | note e plain =>
    simp only [Micro.run, record_trace, List.mem_append, List.mem_singleton] at h
    rcases h with h | rfl
    · exact h
    · nomatch plain (some none)
  | icw1 c => simpa only [Micro.run, State.setPic_trace] using h
  | icw2 c v => simpa only [Micro.run, State.setPic_trace] using h
  | icw3 c => simpa only [Micro.run, State.setPic_trace] using h
  | icw4 c => simpa only [Micro.run, State.setPic_trace] using h
  | ocw1 c v => simpa only [Micro.run, State.setPic_trace] using h
  | eoi c => simpa only [Micro.run, State.setPic_trace] using h
  | button b x =>
    simp only [Micro.run] at h
    rw [updateButton_outside] at h
    exact h
  | pitCount v =>
    simp only [Micro.run] at h
    split_ifs at h
    · exact h
    · exact h
  | storeByte d =>
    simp only [Micro.run] at h
    split_ifs at h
    · exact h
    · exact h
    · exact h
    · exact h
  | _ => exact h

/-- The vector is a base with a line number (R112). -/
def OfBases (mo so v : Byte) : Prop := ∃ i < 8, v = vectorOf mo i ∨ v = vectorOf so i

theorem inta_of_startHandler {s : State} {v w : Byte} {b : Bool} (h : Entry.inta v ∈ (startHandler w b s).trace) :
    Entry.inta v ∈ s.trace ∨ v = w := by
  simpa [startHandler_eq] using h

/-- An acknowledge cycle that a small operation records returns a base with a line number. -/
theorem Micro.vector_of_run {m : Micro} {s : State} {v : Byte} (h : Entry.inta v ∈ (m.run s).trace) :
    Entry.inta v ∈ s.trace ∨ OfBases s.master.base s.slave.base v := by
  cases m with
  | deliverSlave =>
    simp only [Micro.run] at h
    split_ifs at h
    · exact (inta_of_startHandler h).imp_right fun hv => ⟨_, lowest_lt (reqS s), .inr hv⟩
    · exact .inl h
  | deliverMaster =>
    simp only [Micro.run] at h
    split_ifs at h
    · exact (inta_of_startHandler h).imp_right fun hv => ⟨_, lowest_lt (reqM s), .inl hv⟩
    · exact .inl h
  | spurious =>
    simp only [Micro.run, Machine.spurious] at h
    split_ifs at h
    · exact (inta_of_startHandler h).imp_right fun hv => ⟨7, by omega, .inr hv⟩
    · exact (inta_of_startHandler h).imp_right fun hv => ⟨7, by omega, .inl hv⟩
    · exact .inl h
  | _ => exact .inl (Micro.inta_of_run (by nofun) (by nofun) (by nofun) h)

/-- A run without an acknowledge transaction records no acknowledge cycle. -/
theorem runInstrs_no_inta {is : List Instr} (hno : ∀ i ∈ is, i ≠ .inta) {s t : State} (h : runInstrs is s = .next t)
    {v : Byte} : Entry.inta v ∈ t.trace → Entry.inta v ∈ s.trace := by
  refine run_induction (R := fun s t => Entry.inta v ∈ t.trace → Entry.inta v ∈ s.trace) (fun _ => id)
    (fun _ _ _ hst htu hu => hst (htu hu)) is (fun i hi _ _ hexec => ?_) h
  refine exec_induction (R := fun s t => Entry.inta v ∈ t.trace → Entry.inta v ∈ s.trace) (fun _ => id)
    (fun _ _ _ hst htu hu => hst (htu hu)) (fun m hm s => Micro.inta_of_run ?_ ?_ ?_) hexec
  · rintro rfl; exact hno i hi hm
  · rintro rfl; exact hno i hi hm
  · rintro rfl; exact hno i hi hm

/-! The transactions that write no base (R36, R142, R153). -/

/-- Neither ICW2 nor a remap. -/
def KeepsBases (i : Instr) : Prop := (∀ v, i ≠ .outPicMIcw2 v ∧ i ≠ .outPicSIcw2 v) ∧ ∀ a b, i ≠ .remap a b

theorem KeepsBases.not_icw2 {i : Instr} (hi : KeepsBases i) {m : Micro} (hm : m.mayOccurIn i) (c : Ctl) (v : Byte) :
    m ≠ .icw2 c v := by
  rintro rfl
  obtain ⟨hword, hremap⟩ := hi
  rcases hm with ⟨a, b, h⟩ | h
  · exact hremap a b h
  · cases c with
    | master => obtain ⟨w, h⟩ := h; exact (hword w).1 h
    | slave => obtain ⟨w, h⟩ := h; exact (hword w).2 h

/-- The bases are these, and every acknowledge cycle so far has returned one of them with a line number. -/
structure Vectored (mo so : Byte) (s : State) : Prop where
  masterBase : s.master.base = mo
  slaveBase : s.slave.base = so
  vectors : ∀ v, Entry.inta v ∈ s.trace → OfBases mo so v

theorem Vectored.micro {mo so : Byte} {s : State} (h : Vectored mo so s) {m : Micro} (hm : ∀ c v, m ≠ .icw2 c v) :
    Vectored mo so (m.run s) where
  masterBase := (Micro.run_base hm s .master).trans h.masterBase
  slaveBase := (Micro.run_base hm s .slave).trans h.slaveBase
  vectors v hv := by
    rcases Micro.vector_of_run hv with hold | hnew
    · exact h.vectors v hold
    · rwa [h.masterBase, h.slaveBase] at hnew

theorem Vectored.run {mo so : Byte} {is : List Instr} (hkeep : ∀ i ∈ is, KeepsBases i) {s t : State}
    (h : Vectored mo so s) (hrun : runInstrs is s = .next t) : Vectored mo so t :=
  run_induction (R := fun s t => Vectored mo so s → Vectored mo so t) (fun _ => id) (fun _ _ _ hst htu hs => htu (hst hs))
    is (fun i hi _ _ hexec => exec_keeps (fun _ hm _ hs => hs.micro ((hkeep i hi).not_icw2 hm)) hexec) hrun h

theorem runInstrs_base {is : List Instr} (hkeep : ∀ i ∈ is, KeepsBases i) {s t : State} (hrun : runInstrs is s = .next t)
    (c : Ctl) : (t.pic c).base = (s.pic c).base :=
  run_induction (R := fun s t => (t.pic c).base = (s.pic c).base) (fun _ => rfl) (fun _ _ _ hst htu => htu.trans hst) is
    (fun i hi _ _ hexec => exec_induction (R := fun s t => (t.pic c).base = (s.pic c).base) (fun _ => rfl)
      (fun _ _ _ hst htu => htu.trans hst) (fun _ hm s => Micro.run_base ((hkeep i hi).not_icw2 hm) s c) hexec) hrun

/-- The offsets a remap admits, as its rule gives them (R153). -/
theorem offsetsAdmitted_iff (mo so : Byte) : offsetsAdmitted mo so = true ↔
    mo.toNat % 8 = 0 ∧ so.toNat % 8 = 0 ∧ 32 ≤ mo.toNat ∧ 32 ≤ so.toNat ∧ mo ≠ so := by
  simp [offsetsAdmitted, and_assoc]

/-- A remap leaves its offsets as the bases (R153). -/
theorem remapPair_base {mo so : Byte} (hadm : offsetsAdmitted mo so = true) (s : State) :
    (remapPair mo so s).master.base = mo ∧ (remapPair mo so s).slave.base = so := by
  have hland := remapPair_landed hadm s
  obtain ⟨hm, hs, -⟩ := (offsetsAdmitted_iff mo so).mp hadm
  exact ⟨hland.masterBase.trans (baseOf_multiple mo hm), hland.slaveBase.trans (baseOf_multiple so hs)⟩

/-! The boot sequence (R344). -/

/-- A run that boots makes the sequence's first transaction, with nothing before it but what may fall beside the boot. -/
theorem boots_cons_split {b : Instr} {bs is : List Instr} (h : boots (b :: bs) is = true) :
    ∃ pre post, is = pre ++ b :: post ∧ (∀ i ∈ pre, besideBoot i = true) ∧ boots bs post = true := by
  induction is with
  | nil => nomatch h
  | cons i is ih =>
    rw [boots] at h
    split_ifs at h with hib
    · exact ⟨[], is, by rw [hib]; rfl, nofun, h⟩
    · obtain ⟨hi, hrest⟩ := Bool.and_eq_true_iff.mp h
      obtain ⟨pre, post, rfl, hpre, hpost⟩ := ih hrest
      exact ⟨i :: pre, post, rfl, List.forall_mem_cons.mpr ⟨hi, hpre⟩, hpost⟩

/-- A run that boots makes the sequence's transactions and what may fall beside them, and no other. -/
theorem mem_of_boots {bs is : List Instr} (h : boots bs is = true) : ∀ i ∈ is, besideBoot i = true ∨ i ∈ bs := by
  induction bs generalizing is with
  | nil =>
    intro i hi
    simp only [boots, List.all_eq_true] at h
    exact .inl (h i hi)
  | cons b bs ih =>
    obtain ⟨pre, post, rfl, hpre, hpost⟩ := boots_cons_split h
    intro i hi
    rcases List.mem_append.mp hi with hi | hi
    · exact .inl (hpre i hi)
    · rcases List.mem_cons.mp hi with rfl | hi
      · exact .inr List.mem_cons_self
      · exact (ih hpost i hi).imp_right (List.mem_cons_of_mem b)

theorem besideBoot_keepsBases {i : Instr} (hi : besideBoot i = true) : KeepsBases i := by
  refine ⟨fun v => ⟨?_, ?_⟩, fun a b => ?_⟩
  · rintro rfl; nomatch hi
  · rintro rfl; nomatch hi
  · rintro rfl; nomatch hi

theorem besideBoot_ne_inta {i : Instr} (hi : besideBoot i = true) : i ≠ .inta := by rintro rfl; nomatch hi

theorem handshakeStep_keepsBases {i : Instr} (hi : handshakeStep i = true) : KeepsBases i := by
  refine ⟨fun v => ⟨?_, ?_⟩, fun a b => ?_⟩
  · rintro rfl; nomatch hi
  · rintro rfl; nomatch hi
  · rintro rfl; nomatch hi

/-- Of the boot sequence only the remap writes a base. -/
theorem bootTail_keepsBases {d : BitVec 16} {handshake post : List Instr} (hhand : ∀ i ∈ handshake, handshakeStep i = true)
    (h : boots (.program d :: handshake) post = true) : ∀ i ∈ post, KeepsBases i := by
  intro i hi
  rcases mem_of_boots h i hi with hbeside | hboot
  · exact besideBoot_keepsBases hbeside
  · rcases List.mem_cons.mp hboot with rfl | hboot
    · exact ⟨fun _ => ⟨nofun, nofun⟩, nofun⟩
    · exact handshakeStep_keepsBases (hhand i hboot)

/-- After a boot run from a state without an acknowledge cycle in its trace, and after any transactions but a remap or ICW2,
every vector returned is 32 or 40 with a line number (R155, R342). -/
theorem vectored_after_boot {d : BitVec 16} {handshake booting is : List Instr} {s t : State}
    (hhand : ∀ i ∈ handshake, handshakeStep i = true) (hboots : boots (bootSequence d handshake) booting = true)
    (hkeep : ∀ i ∈ is, KeepsBases i) (hnone : ∀ v, Entry.inta v ∉ s.trace)
    (hrun : runInstrs (booting ++ is) s = .next t) : Vectored 32#8 40#8 t := by
  obtain ⟨pre, post, rfl, hpre, hpost⟩ := boots_cons_split hboots
  obtain ⟨u, hboot, hlater⟩ := runInstrs_append_inv hrun
  obtain ⟨q, hq, hrest⟩ := runInstrs_append_inv hboot
  have hremap : runInstrs post (remapPair 32#8 40#8 q) = .next u := hrest
  have hbase := remapPair_base (by decide : offsetsAdmitted 32#8 40#8 = true) q
  have hsilent : ∀ v, Entry.inta v ∉ (remapPair 32#8 40#8 q).trace := by
    intro v hv
    have hone : runInstrs [.remap 32#8 40#8] q = .next (remapPair 32#8 40#8 q) := rfl
    have hq' := runInstrs_no_inta (by simp) hone hv
    exact hnone v (runInstrs_no_inta (fun i hi => besideBoot_ne_inta (hpre i hi)) hq hq')
  have hstart : Vectored 32#8 40#8 (remapPair 32#8 40#8 q) := ⟨hbase.1, hbase.2, fun v hv => absurd hv (hsilent v)⟩
  exact (hstart.run (bootTail_keepsBases hhand hpost) hremap).run hkeep hlater

/-- The sixteen vectors of the bases 32 and 40 are 32 to 47. -/
theorem OfBases.range {v : Byte} (h : OfBases 32#8 40#8 v) : 32 ≤ v.toNat ∧ v.toNat ≤ 47 := by
  obtain ⟨i, hi, rfl | rfl⟩ := h
  · rw [vectorOf_toNat 32#8 (by decide) i hi, show (32#8).toNat = 32 from rfl]
    omega
  · rw [vectorOf_toNat 40#8 (by decide) i hi, show (40#8).toNat = 40 from rfl]
    omega

theorem getLsbD_or_bit (v : Byte) {n : Nat} (hn : n < 8) : (v ||| (1#8 <<< n)).getLsbD n = true := by
  have hset : (setBit v n).getLsbD n = true := by simp [setBit_getLsbD v hn]
  exact hset

theorem getLsbD_or_cascade (v : Byte) : (v ||| 0x04#8).getLsbD 2 = true := by simp

/-- What a delivery returns when both bases are multiples of 8 (R112, R152): the base of the line's controller plus the
line. -/
theorem delivered_vector {t u : State} {mo so : Byte} (hmo : mo.toNat % 8 = 0) (hso : so.toNat % 8 = 0)
    (hm : t.master.base = mo) (hs : t.slave.base = so) (hidle : t.handler = none) (hint : intOut t = true)
    (hack : exec .inta t = .next u) : ∃ v : Byte, u.trace = t.trace ++ [.inta v] ∧ OfBases mo so v ∧
      ((∃ n < 8, n ≠ 2 ∧ t.master.irr.getLsbD n = true ∧ u.master.isr.getLsbD n = true ∧ v.toNat = mo.toNat + n) ∨
        (∃ j < 8, t.slave.irr.getLsbD j = true ∧ u.slave.isr.getLsbD j = true ∧ u.master.isr.getLsbD 2 = true ∧
          v.toNat = so.toNat + j)) := by
  subst hm hs
  obtain ⟨n, hn, hreq, -, -, hmaster, hslave⟩ := acknowledgeDeliversTheHighestRequest.2 t hidle hint
  by_cases h2 : n = 2
  · obtain ⟨j, hj, hirr, -, -, hexec⟩ := hslave h2
    obtain rfl := Host.Outcome.next.inj (hexec.symm.trans hack)
    exact ⟨_, rfl, ⟨j, hj, .inr rfl⟩,
      .inr ⟨j, hj, hirr, getLsbD_or_bit _ hj, getLsbD_or_cascade _, vectorOf_toNat _ hso j hj⟩⟩
  · obtain rfl := Host.Outcome.next.inj ((hmaster h2).symm.trans hack)
    rw [if_neg h2] at hreq
    exact ⟨_, rfl, ⟨n, hn, .inl rfl⟩, .inl ⟨n, hn, h2, hreq, getLsbD_or_bit _ hn, vectorOf_toNat _ hmo n hn⟩⟩

/-- Settles O24: the bases are the offsets from the remap on, and every vector is a base with a line number. -/
theorem vectorsAfterRemap : Obligations.VectorsAfterRemap := by
  constructor
  · intro p l turns ever d handshake booting is t hhand hboots hkeep hrun v hv
    exact ((vectored_after_boot hhand hboots hkeep (fun _ => by simp [State.resetWith]) hrun).vectors v hv).range
  · intro s r t u mo so is hmo hso hmo32 hso32 hne hremap hkeep hrun hidle hint hack
    have hadm := (offsetsAdmitted_iff mo so).mpr ⟨hmo, hso, hmo32, hso32, hne⟩
    obtain rfl : remapPair mo so s = r := Host.Outcome.next.inj hremap
    have hbase := remapPair_base hadm s
    have hm : t.master.base = mo := (runInstrs_base hkeep hrun .master).trans hbase.1
    have hs : t.slave.base = so := (runInstrs_base hkeep hrun .slave).trans hbase.2
    obtain ⟨v, htrace, hof, hline⟩ := delivered_vector hmo hso hm hs hidle hint hack
    refine ⟨v, htrace, hline, ?_⟩
    rintro rfl rfl
    exact hof.range

end Sys2Proof.Machine
end

section
/-! The macro operations of the controller pair (R121, R153, R154, R156): a macro's port writes are the run of the
transactions that the decoder reads them as, each under what the controllers expect by then (R122). -/

namespace Sys2Proof.Machine

/-! A port write is the transaction that it is read as. -/

theorem exec_decodeOutMasterEven (v : Byte) (s : State) :
    exec (decodeOutMasterEven v) s = .next (evenWrite .master v s) := by
  unfold decodeOutMasterEven evenWrite
  split_ifs with h1
  · rw [h1]; rfl
  · rfl
  · rfl

theorem exec_decodeOutSlaveEven (v : Byte) (s : State) :
    exec (decodeOutSlaveEven v) s = .next (evenWrite .slave v s) := by
  unfold decodeOutSlaveEven evenWrite
  split_ifs with h1
  · rw [h1]; rfl
  · rfl
  · rfl

theorem exec_decodeOutMasterOdd (v : Byte) (s : State) :
    exec (decodeOutMasterOdd s.master.init v) s = .next (oddWrite .master v s) := by
  unfold oddWrite
  rw [State.pic_master]
  cases s.master.init <;> rfl

theorem exec_decodeOutSlaveOdd (v : Byte) (s : State) :
    exec (decodeOutSlaveOdd s.slave.init v) s = .next (oddWrite .slave v s) := by
  unfold oddWrite
  rw [State.pic_slave]
  cases s.slave.init <;> rfl

theorem exec_decodeOutPitCtrl (v : Byte) (s : State) :
    exec (if v = 0x34#8 then .outPitCtrl else .outPitCtrlOther v) s = .next (pitCtrl v s) := by
  split_ifs with h34
  · rw [h34]; rfl
  · rfl

theorem outPort_unnamed {p : Port} (hp : p ∉ Config.namedPorts) (v : Byte) (s : State) : outPort p v s = unmapped s := by
  simp only [Config.namedPorts, List.mem_cons, not_or] at hp
  simp only [outPort, hp, if_false]

/-- A port write is the transaction its word is read as (R71, R122). -/
theorem exec_decodeOut (p : Port) (v : Byte) (s : State) :
    exec (decodeOut s.master.init s.slave.init p v) s = .next (outPort p v s) := by
  by_cases hp : p ∈ Config.namedPorts
  · simp only [Config.namedPorts, List.mem_cons, List.not_mem_nil, or_false] at hp
    rcases hp with rfl | rfl | rfl | rfl | rfl | rfl | rfl | rfl | rfl | rfl | rfl
    · exact exec_decodeOutMasterEven v s
    · exact exec_decodeOutMasterOdd v s
    · exact exec_decodeOutSlaveEven v s
    · exact exec_decodeOutSlaveOdd v s
    · rfl
    · rfl
    · rfl
    · exact exec_decodeOutPitCtrl v s
    · rfl
    · rfl
    · rfl
  · rw [decodeOut_unnamed hp, outPort_unnamed hp]
    rfl

/-! What the controllers expect after a port write. -/

/-- The `init` of controller `c` after a port write, from what it was (R141 to R144). -/
def initAfter (c : Ctl) (p : Port) (v : Byte) (i : Init) : Init :=
  if p = evenPort c then if v = 0x11#8 then .icw2 else i
  else if p = oddPort c then
    match i with
    | .icw2 => .icw3
    | .icw3 => if v = icw3Admitted c then .icw4 else .icw3
    | .icw4 => if v = 0x01#8 then .ready else .icw4
    | .ready => .ready
  else i

theorem eoi_init (c d : Ctl) (s : State) : ((eoi c s).pic d).init = (s.pic d).init := by
  unfold eoi
  split_ifs
  · simp
  · rw [serviced_pic, record_pic]
    exact setPic_keeps (·.init = _) s c rfl id

theorem evenWrite_init (c d : Ctl) (v : Byte) (s : State) :
    ((evenWrite c v s).pic d).init = if d = c then initAfter c (evenPort c) v (s.pic c).init else (s.pic d).init := by
  unfold evenWrite initAfter
  by_cases h11 : v = 0x11#8
  · subst h11
    simp only [if_true, icw1_admitted, record_pic, State.pic_setPic]
    split_ifs
    · rfl
    · rfl
  · have hkeep : ((if v = 0x20#8 then eoi c s else evenOther v s).pic d).init = (s.pic d).init := by
      split_ifs
      · exact eoi_init c d s
      · rw [evenOther_eq, refuse_pic]
    simp only [if_neg h11, if_true, hkeep]
    split_ifs with hd
    · rw [hd]
    · rfl

theorem oddWrite_init (c d : Ctl) (v : Byte) (s : State) :
    ((oddWrite c v s).pic d).init = if d = c then initAfter c (oddPort c) v (s.pic c).init else (s.pic d).init := by
  have hports : oddPort c ≠ evenPort c := by cases c <;> decide
  unfold oddWrite initAfter
  simp only [if_neg hports, if_true]
  cases hi : (s.pic c).init with
  | icw2 =>
    simp only [icw2, record_pic, State.pic_setPic]
    split_ifs <;> rfl
  | icw3 =>
    simp only [icw3_eq]
    split_ifs with hv hd hd
    · simp [hd]
    · simp [hd]
    · simp [hd, hi]
    · simp
  | icw4 =>
    simp only [icw4_eq]
    split_ifs with hv hd hd
    · simp [hd]
    · simp [hd]
    · simp [hd, hi]
    · simp
  | ready =>
    simp only [ocw1, record_pic, State.pic_setPic]
    split_ifs
    · exact hi
    · rfl

theorem outPort_init (p : Port) (v : Byte) (s : State) (c : Ctl) :
    ((outPort p v s).pic c).init = initAfter c p v (s.pic c).init := by
  by_cases hme : p = evenPort .master
  · subst hme
    exact (evenWrite_init .master c v s).trans (by cases c <;> rfl)
  by_cases hmo : p = oddPort .master
  · subst hmo
    exact (oddWrite_init .master c v s).trans (by cases c <;> rfl)
  by_cases hse : p = evenPort .slave
  · subst hse
    exact (evenWrite_init .slave c v s).trans (by cases c <;> rfl)
  by_cases hso : p = oddPort .slave
  · subst hso
    exact (oddWrite_init .slave c v s).trans (by cases c <;> rfl)
  have hno : initAfter c p v (s.pic c).init = (s.pic c).init := by
    cases c with
    | master => exact (if_neg hme).trans (if_neg hmo)
    | slave => exact (if_neg hse).trans (if_neg hso)
  rw [hno]
  simp only [evenPort, oddPort] at hme hmo hse hso
  unfold outPort pitData pitCtrl pitRefused kbcWrite ioWait unmapped
  simp only [if_neg hme, if_neg hmo, if_neg hse, if_neg hso]
  split_ifs
  · split <;> cases c <;> rfl
  all_goals cases c <;> rfl

/-! A macro's port writes as a run. -/

/-- The transactions that port writes are read as, one after another, from two `init` values on (R122). -/
def decodeOuts : Init → Init → List (Port × Byte) → List Instr
  | _, _, [] => []
  | mi, si, (p, v) :: pvs => decodeOut mi si p v :: decodeOuts (initAfter .master p v mi) (initAfter .slave p v si) pvs

theorem decodeOuts_length (pvs : List (Port × Byte)) (mi si : Init) : (decodeOuts mi si pvs).length = pvs.length := by
  induction pvs generalizing mi si with
  | nil => rfl
  | cons pv pvs ih => exact congrArg Nat.succ (ih _ _)

/-- Transaction `i` leads from `s` to `t`, whatever turns of the devices are still listed, and leaves those turns alone. -/
structure LeavesTurns (i : Instr) (s t : State) : Prop where
  exec : ∀ x, exec i (withTurns x s) = .next (withTurns x t)
  inside : t.inside = s.inside
  insideEver : t.insideEver = s.insideEver

theorem LeavesTurns.outPort (p : Port) (v : Byte) (s : State) :
    LeavesTurns (decodeOut s.master.init s.slave.init p v) s (outPort p v s) where
  exec x := (exec_decodeOut p v (withTurns x s)).trans (by rw [outPort_withTurns])
  inside := outPort_inside p v s
  insideEver := outPort_insideEver p v s

/-- One more transaction in front of a macro's run: the devices' turn, then the transaction (R81). -/
theorem run_interleaved_cons {i : Instr} {is : List Instr} {s t u : State} (hi : LeavesTurns i (landDevices s) t)
    (his : runInstrs (interleaved t is) (withoutTurns t is.length) = .next u) :
    runInstrs (interleaved s (i :: is)) (withoutTurns s (is.length + 1)) = .next u := by
  have hinside : t.inside = s.inside.tail := hi.inside.trans (landDevices_inside s)
  have hever : t.insideEver = s.insideEver := hi.insideEver.trans (Landed.landDevices s).insideEver
  have hstart : withoutTurns s (is.length + 1) = withTurns (s.inside.tail.drop is.length) (withTurns s.inside.tail s) := by
    simp only [withoutTurns, withTurns, List.drop_tail]
  have hend : withoutTurns t is.length = withTurns (s.inside.tail.drop is.length) t := by
    simp only [withoutTurns, withTurns, hinside]
  have hturn : runInstrs ((s.inside.headD s.insideEver).map DevStep.instr ++ [i]) (withoutTurns s (is.length + 1)) =
      .next (withoutTurns t is.length) := by
    rw [runInstrs_append (runInstrs_devSteps _ _), hstart, devSteps_withTurns, ← landDevices_eq, hend]
    simp only [runInstrs, hi.exec]
  have hrest : interleaved (withTurns s.inside.tail s) is = interleaved t is := by
    simp only [interleaved, withTurns, hinside, hever]
  rw [interleaved_cons, runInstrs_append hturn, hrest, his]

theorem macroOuts_eq_run_decoded (pvs : List (Port × Byte)) (s : State) :
    runInstrs (interleaved s (decodeOuts s.master.init s.slave.init pvs)) (withoutTurns s pvs.length) =
      .next (macroOuts pvs s) := by
  induction pvs generalizing s with
  | nil => rfl
  | cons pv pvs ih =>
    obtain ⟨p, v⟩ := pv
    have hland := Landed.landDevices s
    have hfirst := LeavesTurns.outPort p v (landDevices s)
    rw [hland.masterInit, hland.slaveInit] at hfirst
    have hm := (outPort_init p v (landDevices s) .master).trans (congrArg _ hland.masterInit)
    have hs := (outPort_init p v (landDevices s) .slave).trans (congrArg _ hland.slaveInit)
    have hrest := ih (outPort p v (landDevices s))
    rw [State.pic_master] at hm
    rw [State.pic_slave] at hs
    rw [hm, hs, ← decodeOuts_length pvs] at hrest
    have hrun := run_interleaved_cons hfirst hrest
    rw [decodeOuts_length] at hrun
    exact hrun

/-! Remap (R153). -/

/-- The port writes of a remap as the transactions they are read as, with the masks `m1` and `m2` to restore (R121). -/
def remapWriteInstrs (mo so m1 m2 : Byte) : List Instr :=
  [.outPicMIcw1, .outIoWait 0#8, .outPicSIcw1, .outIoWait 0#8, .outPicMIcw2 mo, .outIoWait 0#8, .outPicSIcw2 so,
   .outIoWait 0#8, .outPicMIcw3 0x04#8, .outIoWait 0#8, .outPicSIcw3 0x02#8, .outIoWait 0#8, .outPicMIcw4 0x01#8,
   .outIoWait 0#8, .outPicSIcw4 0x01#8, .outIoWait 0#8, .outPicMOcw1 m1, .outPicSOcw1 m2]

/-- The 20 port transactions of a remap: it reads both masks first. -/
def remapInstrs (mo so m1 m2 : Byte) : List Instr := .inPicMImr :: .inPicSImr :: remapWriteInstrs mo so m1 m2

/-- ICW1 restarts both sequences, so the reading is the same whatever the controllers expected before (R141). -/
theorem decodeOuts_remapWrites (mi si : Init) (mo so m1 m2 : Byte) :
    decodeOuts mi si (remapWrites mo so m1 m2) = remapWriteInstrs mo so m1 m2 := rfl

/-- The masks that a remap reads are those from before it: device steps write no mask. -/
theorem remapPair_admitted {mo so : Byte} (hadm : offsetsAdmitted mo so = true) (s : State) :
    remapPair mo so s = macroOuts (remapWrites mo so s.master.imr s.slave.imr)
      (readImr .slave (landDevices (readImr .master (landDevices s)))) := by
  have hmaster := Landed.landDevices s
  have hslave : Landed s (landDevices (readImr .master (landDevices s))) := (hmaster.record _).trans (.landDevices _)
  rw [← hmaster.masterImr, ← hslave.slaveImr]
  exact if_pos hadm

theorem LeavesTurns.readImr {i : Instr} {c : Ctl} (hi : ∀ u, Machine.exec i u = .next (readImr c u)) (s : State) :
    LeavesTurns i s (readImr c s) where
  exec x := (hi _).trans (by cases c <;> rfl)
  inside := rfl
  insideEver := rfl

theorem remapPair_eq_run {mo so : Byte} (hadm : offsetsAdmitted mo so = true) (s : State) :
    runInstrs (interleaved s (remapInstrs mo so s.master.imr s.slave.imr)) (withoutTurns s 20) =
      .next (remapPair mo so s) := by
  have hwrites := macroOuts_eq_run_decoded (remapWrites mo so s.master.imr s.slave.imr)
    (readImr .slave (landDevices (readImr .master (landDevices s))))
  rw [decodeOuts_remapWrites, ← remapPair_admitted hadm] at hwrites
  have hslave := run_interleaved_cons (.readImr (i := .inPicSImr) (fun _ => rfl) _) hwrites
  exact run_interleaved_cons (.readImr (i := .inPicMImr) (fun _ => rfl) _) hslave

/-- With the devices idle nothing falls between a macro's transactions (R81). -/
theorem interleaved_idle {s : State} (h : Idle s) (is : List Instr) : interleaved s is = is := by
  induction is generalizing s with
  | nil => rfl
  | cons i is ih =>
    rw [interleaved_cons, h.listed, h.ever]
    exact congrArg (i :: ·) (ih ⟨rfl, h.ever⟩)

theorem withoutTurns_idle {s : State} (h : Idle s) (n : Nat) : withoutTurns s n = s := by
  have hdrop : s.inside.drop n = s.inside := by rw [h.listed, List.drop_nil]
  rw [withoutTurns, hdrop]

/-- No request is latched or cleared, no byte arrives or is taken, and nothing is refused. -/
def Undisturbed (s t : State) : Prop :=
  t.master.irr = s.master.irr ∧ t.slave.irr = s.slave.irr ∧ t.kbcQ = s.kbcQ ∧ t.refused = s.refused

theorem Undisturbed.refl (s : State) : Undisturbed s s := ⟨rfl, rfl, rfl, rfl⟩

theorem Undisturbed.trans (s t u : State) (h : Undisturbed s t) (h' : Undisturbed t u) : Undisturbed s u := by
  obtain ⟨hm, hs, hq, hr⟩ := h
  obtain ⟨hm', hs', hq', hr'⟩ := h'
  exact ⟨hm'.trans hm, hs'.trans hs, hq'.trans hq, hr'.trans hr⟩

/-- Each transaction of a remap reads or writes masks, bases and `init` values, and is admitted (R121, R153). -/
theorem exec_remapInstrs {mo so m1 m2 : Byte} :
    ∀ i ∈ remapInstrs mo so m1 m2, ∀ s t, exec i s = .next t → Undisturbed s t := by
  intro i hi s t h
  simp only [remapInstrs, remapWriteInstrs, List.mem_cons, List.not_mem_nil, or_false] at hi
  rcases hi with rfl | rfl | rfl | rfl | rfl | rfl | rfl | rfl | rfl | rfl | rfl | rfl | rfl | rfl | rfl | rfl | rfl | rfl |
    rfl | rfl <;> exact Host.Outcome.next.inj h ▸ ⟨rfl, rfl, rfl, rfl⟩

theorem remapPair_idle {mo so : Byte} (hadm : offsetsAdmitted mo so = true) {s : State} (h : Idle s) :
    Undisturbed s (remapPair mo so s) := by
  have hrun := remapPair_eq_run hadm s
  rw [interleaved_idle h, withoutTurns_idle h] at hrun
  exact run_induction Undisturbed.refl Undisturbed.trans _ exec_remapInstrs hrun

/-- Settles O28: the run is `remapPair_eq_run`, its net effect what the device steps landed on the programmed state leave. -/
theorem remapNetEffect : Obligations.RemapNetEffect := by
  intro s mo so
  rw [← offsetsAdmitted_iff]
  constructor
  · intro hadm
    have hland := remapPair_landed hadm s
    obtain ⟨hmb, hsb⟩ := remapPair_base hadm s
    refine ⟨(remapPair_eq_run hadm s).symm, remapPair mo so s, rfl, hmb, hsb, hland.masterInit, hland.slaveInit,
      hland.masterImr, hland.slaveImr, hland.masterIsr, hland.slaveIsr, hland.masterIrr, hland.slaveIrr, remapPair_idle hadm,
      hland.par, hland.pit, hland.clk, hland.asm, hland.btn, hland.cb, hland.pktlog, hland.evlog, hland.diag, hland.input,
      hland.draws, hland.handler, hland.queue⟩
  · intro hadm
    have hrefused : remapPair mo so s = refuse .badRemapOffsets s := if_neg hadm
    exact congrArg Host.Outcome.next hrefused

/-! Acknowledging a vector (R154, R156). -/

theorem inRange_iff (base v : Byte) : inRange base v = true ↔ base.toNat ≤ v.toNat ∧ v.toNat < base.toNat + 8 := by
  simp [inRange]

/-- The port write, if the entry is one. -/
def Entry.portWrite : Entry → Option (Port × Byte)
  | .out p v => some (p, v)
  | _ => none

theorem portWrites_record (e : Entry) (s : State) : portWrites (record e s) = portWrites s ++ e.portWrite.toList := by
  simp only [portWrites, record_trace, List.filterMap_append]
  cases e <;> rfl

/-- Device steps write no port. -/
theorem portWrites_raiseLine (n : BitVec 4) (s : State) : portWrites (raiseLine n s) = portWrites s := by
  unfold raiseLine
  split_ifs
  · exact (portWrites_record _ _).trans (List.append_nil _)
  · rw [portWrites_record, portWrites, State.setPic_trace]
    exact List.append_nil _

theorem portWrites_devStep (s : State) (d : DevStep) : portWrites (devStep s d) = portWrites s := by
  cases d with
  | raise n => exact portWrites_raiseLine n s
  | push src b =>
    refine (portWrites_raiseLine _ _).trans ?_
    exact (portWrites_record _ _).trans (List.append_nil _)

theorem portWrites_landDevices (s : State) : portWrites (landDevices s) = portWrites s := by
  have hsteps : ∀ (ds : List DevStep) (s : State), portWrites (ds.foldl devStep s) = portWrites s := by
    intro ds
    induction ds with
    | nil => exact fun _ => rfl
    | cons d ds ih => exact fun s => (ih _).trans (portWrites_devStep s d)
  exact hsteps _ _

/-- The end of a handler writes no port. -/
theorem portWrites_serviced (c : Ctl) (s : State) : portWrites (serviced c s) = portWrites s := by
  unfold serviced
  split
  · rfl
  · rfl
  · unfold endHandler
    split
    · exact (portWrites_record _ _).trans (List.append_nil _)
    · rfl

/-- A READY controller's end-of-interrupt in a macro is one port write, whatever the devices did before it. -/
theorem portWrites_macroEoi {c : Ctl} {s : State} (h : (s.pic c).init = .ready) :
    portWrites (macroOut s (evenPort c, 0x20#8)) = portWrites s ++ [(evenPort c, 0x20#8)] := by
  have heoi : macroOut s (evenPort c, 0x20#8) = eoi c (landDevices s) := by cases c <;> rfl
  have hready : ((landDevices s).pic c).init = .ready := ((Landed.landDevices s).init c).trans h
  rw [heoi, eoi_of_ready hready, portWrites_serviced, eoiWritten, portWrites_record, ← portWrites_landDevices s]
  simp only [portWrites, State.setPic_trace]
  rfl

/-- Settles O29: `ack`'s writes by the range its vector is in, each an end-of-interrupt. -/
theorem acknowledgeByVector : Obligations.AcknowledgeByVector := by
  intro s v
  have hack : exec (.ack v) s = .next (macroOuts (ackWrites s.master.base s.slave.base v) s) := rfl
  have hmaster : ∀ u, exec .outPicMEoi u = .next (outPort Config.portMasterEven 0x20#8 u) := fun _ => rfl
  have hslave : ∀ u, exec .outPicSEoi u = .next (outPort Config.portSlaveEven 0x20#8 u) := fun _ => rfl
  simp only [← inRange_iff]
  refine ⟨?master, ?slave, ?none⟩
  case master =>
    intro hlo hhi
    have hin := (inRange_iff _ v).mpr ⟨hlo, hhi⟩
    rw [hack, ackWrites, if_pos hin]
    refine ⟨(macroOuts_eq_run [.outPicMEoi] _ (.cons hmaster .nil) s).symm, fun hready => ⟨_, rfl, ?_⟩⟩
    exact portWrites_macroEoi (c := .master) hready
  case slave =>
    intro hout hlo hhi
    have hin := (inRange_iff _ v).mpr ⟨hlo, hhi⟩
    rw [hack, ackWrites, if_neg hout, if_pos hin]
    refine ⟨(macroOuts_eq_run [.outPicSEoi, .outPicMEoi] _ (.cons hslave (.cons hmaster .nil)) s).symm,
      fun hreadyM hreadyS => ⟨_, rfl, ?_⟩⟩
    have hready : (macroOut s (evenPort .slave, 0x20#8)).master.init = .ready := by
      have hkeep := outPort_init (evenPort .slave) 0x20#8 (landDevices s) .master
      exact hkeep.trans (((Landed.landDevices s).init .master).trans hreadyM)
    have htwo := portWrites_macroEoi (c := .master) hready
    rw [portWrites_macroEoi (c := .slave) hreadyS, List.append_assoc] at htwo
    exact htwo
  case none =>
    intro houtM houtS
    rw [hack, ackWrites, if_neg houtM, if_neg houtS]
    rfl

end Sys2Proof.Machine
end

section
/-! The statements of 41_pit_clock.md (R191 to R195, R200, R201): who writes the clock and what a run of advances counts; then
the timer's port writes, the programming of a divisor as their run, and the refused ports. -/

namespace Sys2Proof.Machine

/-! Who writes the clock (R65, R201). -/

theorem spurious_clk (s : State) : (spurious s).clk = s.clk := by
  unfold spurious
  split_ifs
  · rfl
  · rfl

/-- Of the small operations only the advance writes the clock. -/
theorem Micro.run_clk {m : Micro} (hadv : m ≠ .advanceClock) (s : State) : (m.run s).clk = s.clk := by
  cases m with
  | advanceClock => exact absurd rfl hadv
  | icw1 c => exact State.setPic_clk s c _
  | icw2 c v => exact State.setPic_clk s c _
  | icw3 c => exact State.setPic_clk s c _
  | icw4 c => exact State.setPic_clk s c _
  | ocw1 c v => exact State.setPic_clk s c _
  | eoi c => exact State.setPic_clk s c _
  | serviced c => exact serviced_clk c s
  | raiseLine n => exact (Landed.raiseLine n s).clk
  | button b x => exact updateButton_clk b x s.clk s
  | deliverSlave =>
    simp only [Micro.run]
    split_ifs
    · rfl
    · rfl
  | deliverMaster =>
    simp only [Micro.run]
    split_ifs
    · rfl
    · rfl
  | spurious =>
    simp only [Micro.run]
    split_ifs
    · exact spurious_clk s
    · rfl
  | pitCount v =>
    simp only [Micro.run]
    split_ifs
    · rfl
    · rfl
  | storeByte d =>
    simp only [Micro.run]
    split_ifs
    · rfl
    · rfl
    · rfl
    · rfl
  | _ => rfl

/-- Settles O38: an advance occurs in no other transaction, and no other small operation writes the clock. -/
theorem onlyClockAdvanceWritesTheClock : Obligations.OnlyClockAdvanceWritesTheClock := by
  intro i s t hexec hi
  refine exec_induction (R := fun s t => t.clk = s.clk) (fun _ => rfl) (fun _ _ _ hst htu => htu.trans hst)
    (fun m hm s => Micro.run_clk ?_ s) hexec
  rintro rfl
  exact hi hm

/-- No transaction writes the parameters (R10). -/
theorem exec_par {i : Instr} {s t : State} (hexec : exec i s = .next t) : t.par = s.par :=
  (exec_induction Grows.refl (fun _ _ _ => Grows.trans) (fun m _ => Grows.micro m) hexec).par

/-! The clock as a count (R200, R201). -/

theorem exec_clockAdvance (s : State) : exec .clockAdvance s = .next { s with clk := nextTick s.par.tps s.clk } := rfl

theorem nextTick_of_carry {tps : Nat} {c : Timestamp} (h : c.tick + 1 = tps) : nextTick tps c = ⟨c.sec + 1#64, 0⟩ := if_pos h

theorem nextTick_of_no_carry {tps : Nat} {c : Timestamp} (h : c.tick + 1 ≠ tps) : nextTick tps c = ⟨c.sec, c.tick + 1⟩ :=
  if_neg h

/-- Settles O36: the two cases of `nextTick`; the seconds are added as 64-bit words. -/
theorem clockAdvancesOneTick : Obligations.ClockAdvancesOneTick := by
  intro s
  refine ⟨fun hcarry => ⟨s.clk.sec + 1#64, BitVec.toNat_add _ _, ?_⟩, fun hstay => ?_⟩
  · rw [exec_clockAdvance, nextTick_of_carry hcarry]
  · rw [exec_clockAdvance, nextTick_of_no_carry hstay]

/-- Short of the wrap of the seconds one tick of the clock is one more tick since the epoch: a carry trades `P_TPS` ticks for
a second. -/
theorem ticks_nextTick {tps : Nat} {c : Timestamp} (hbound : ticks tps c + 1 < 2 ^ 64 * tps) :
    ticks tps (nextTick tps c) = ticks tps c + 1 := by
  by_cases hcarry : c.tick + 1 = tps
  · have htrade : (c.sec.toNat + 1) * tps = ticks tps c + 1 := by rw [ticks, Nat.succ_mul, Nat.add_assoc, hcarry]
    have hsec : c.sec.toNat + 1 < 2 ^ 64 := Nat.lt_of_mul_lt_mul_right (htrade ▸ hbound)
    have hadd : (c.sec + 1#64).toNat = c.sec.toNat + 1 := BitVec.toNat_add_of_lt hsec
    rw [nextTick_of_carry hcarry, ← htrade, ticks, hadd, Nat.add_zero]
  · rw [nextTick_of_no_carry hcarry]
    rfl

/-- `n` clock ticks lie between `s` and `t`, under the same parameters and with the tick of `t` below `P_TPS` (R43). -/
structure TicksBetween (n : Nat) (s t : State) : Prop where
  tick : t.clk.tick < t.par.tps
  par : t.par = s.par
  ticks : ticks t.par.tps t.clk = ticks s.par.tps s.clk + n

theorem TicksBetween.trans {m n : Nat} {s t u : State} (h : TicksBetween m s t) (k : TicksBetween n t u) :
    TicksBetween (m + n) s u where
  tick := k.tick
  par := k.par.trans h.par
  ticks := by rw [k.ticks, h.ticks, Nat.add_assoc]

theorem exec_ticksBetween {i : Instr} {s t : State} (htick : s.clk.tick < s.par.tps) (hexec : exec i s = .next t)
    (hbound : i = .clockAdvance → ticks s.par.tps s.clk + 1 < 2 ^ 64 * s.par.tps) :
    TicksBetween (if i = .clockAdvance then 1 else 0) s t := by
  by_cases hi : i = .clockAdvance
  · subst hi
    cases hexec
    exact ⟨nextTick_tick_lt htick, rfl, ticks_nextTick (hbound rfl)⟩
  · have hclk : t.clk = s.clk := onlyClockAdvanceWritesTheClock i s t hexec hi
    have hpar : t.par = s.par := exec_par hexec
    rw [if_neg hi]
    exact ⟨by rw [hclk, hpar]; exact htick, hpar, by rw [hclk, hpar]; rfl⟩

theorem runInstrs_ticksBetween {is : List Instr} {s t : State} (htick : s.clk.tick < s.par.tps)
    (hrun : runInstrs is s = .next t) (hbound : ticks s.par.tps s.clk + is.count .clockAdvance < 2 ^ 64 * s.par.tps) :
    TicksBetween (is.count .clockAdvance) s t := by
  induction is generalizing s with
  | nil =>
    cases hrun
    exact ⟨htick, rfl, rfl⟩
  | cons i is ih =>
    obtain ⟨u, hu, -⟩ := exec_micros i s
    have hcount : (i :: is).count .clockAdvance = (if i = .clockAdvance then 1 else 0) + is.count .clockAdvance := by
      rw [List.count_cons, Nat.add_comm]
      simp only [beq_iff_eq]
    simp only [runInstrs, hu] at hrun
    rw [hcount] at hbound ⊢
    have hfirst := exec_ticksBetween htick hu fun hi => by rw [if_pos hi] at hbound; omega
    refine hfirst.trans (ih hfirst.tick hrun ?_)
    rw [hfirst.ticks, hfirst.par, Nat.add_assoc]
    exact hbound

/-- Settles O37: one transaction is `exec_ticksBetween`, and from reset, at the epoch, a run counts all of its advances. -/
theorem clockCountsItsAdvances : Obligations.ClockCountsItsAdvances := by
  constructor
  · intro i s t htick hexec hbound
    obtain ⟨htick', hpar, hticks⟩ := exec_ticksBetween htick hexec fun _ => hbound
    exact ⟨htick', hpar, hticks⟩
  · intro is p l t hrun hbound
    have hreset : ticks (State.resetWith p l).par.tps (State.resetWith p l).clk = 0 := by simp [ticks, State.resetWith]
    obtain ⟨htick, hpar, hticks⟩ := runInstrs_ticksBetween (tps_pos p) hrun (by rw [hreset, Nat.zero_add]; exact hbound)
    obtain rfl : t.par = p := hpar
    rw [hreset, Nat.zero_add] at hticks
    exact ⟨hticks, htick⟩

/-! The timer's port writes (R191 to R193). -/

theorem pitCtrl_admitted (s : State) : pitCtrl 0x34#8 s =
    record (.out Config.portPitCtrl 0x34#8) { s with pit := ⟨2#3, .lohi, .low, s.pit.lo, s.pit.reload, false⟩ } := rfl

theorem pitCtrl_refused {v : Byte} (hv : v ≠ 0x34#8) (s : State) : pitCtrl v s = refuse .unadmittedControlWord s := if_pos hv

/-- Settles O32: the admitted control word is written and recorded, any other refused. -/
theorem timerControlWord : Obligations.TimerControlWord := by
  intro s v
  refine ⟨congrArg Host.Outcome.next (pitCtrl_admitted s), fun hv => ?_⟩
  exact congrArg Host.Outcome.next (pitCtrl_refused hv s)

theorem pitData_unset {s : State} (hrw : s.pit.rw = .unset) (v : Byte) : pitData v s = refuse .dataBeforeControlWord s := by
  simp only [pitData, hrw]

theorem pitData_lohi {s : State} (hrw : s.pit.rw = .lohi) (v : Byte) :
    pitData v s = record (.out Config.portPitData v) { s with pit := pitCount v s.pit } := by
  simp only [pitData, hrw]

theorem pitCount_low {p : Pit} (hflip : p.flip = .low) (v : Byte) : pitCount v p = { p with lo := v, flip := .high } := by
  simp only [pitCount, hflip]

theorem pitCount_high {p : Pit} (hflip : p.flip = .high) (v : Byte) :
    pitCount v p = { p with reload := reloadOf v p.lo, flip := .low, armed := true } := by
  simp only [pitCount, hflip]

theorem pitCount_rw (v : Byte) (p : Pit) : (pitCount v p).rw = p.rw := by
  cases hflip : p.flip with
  | low => rw [pitCount_low hflip]
  | high => rw [pitCount_high hflip]

/-- The high byte counts 256 for each one (R113, R193). -/
theorem reloadOf_toNat (hi lo : Byte) : (reloadOf hi lo).toNat = hi.toNat * 256 + lo.toNat := by
  rw [reloadOf, BitVec.toNat_append, ← Nat.shiftLeft_add_eq_or_of_lt lo.isLt, Nat.shiftLeft_eq]

/-- Settles O33: the access mode decides whether the byte is refused, the flip-flop which byte of the count it is. -/
theorem timerCountByte : Obligations.TimerCountByte := by
  intro s v
  have hexec : exec (.outPitData v) s = .next (pitData v s) := rfl
  rw [hexec]
  refine ⟨fun hrw => ?unset, fun hrw hflip => ?low, fun hrw hflip => ⟨reloadOf v s.pit.lo, reloadOf_toNat v s.pit.lo, ?high⟩⟩
  case unset => rw [pitData_unset hrw]; rfl
  case low => rw [pitData_lohi hrw, pitCount_low hflip]; rfl
  case high => rw [pitData_lohi hrw, pitCount_high hflip]; rfl

/-! Programming a divisor (R195). -/

/-- In a macro the control word is one port write, whatever the devices did before it. -/
theorem portWrites_macroPitCtrl (s : State) :
    portWrites (macroOut s (Config.portPitCtrl, 0x34#8)) = portWrites s ++ [(Config.portPitCtrl, 0x34#8)] := by
  rw [← portWrites_landDevices s]
  exact portWrites_record _ _

/-- After a control word, so is a count byte. -/
theorem portWrites_macroPitData {s : State} (hrw : s.pit.rw = .lohi) (v : Byte) :
    portWrites (macroOut s (Config.portPitData, v)) = portWrites s ++ [(Config.portPitData, v)] := by
  have hland : (landDevices s).pit.rw = .lohi := by rw [(Landed.landDevices s).pit, hrw]
  have hwrite : macroOut s (Config.portPitData, v) = pitData v (landDevices s) := rfl
  rw [hwrite, pitData_lohi hland, portWrites_record, ← portWrites_landDevices s]
  rfl

/-- The three port writes of `program`: after the control word the access mode admits both count bytes. -/
theorem portWrites_programDivisor {d : BitVec 16} (hd : d ≠ 0#16) (s : State) :
    portWrites (programDivisor d s) = portWrites s ++ programWrites d := by
  have hctrl := (Landed.refl s).pitCtrl
  have hlow := hctrl.pitData rfl (divisorLow d)
  have hrw : (macroOut s (Config.portPitCtrl, 0x34#8)).pit.rw = .lohi := by rw [hctrl.pit]
  have hrw' : (macroOut (macroOut s (Config.portPitCtrl, 0x34#8)) (Config.portPitData, divisorLow d)).pit.rw = .lohi := by
    rw [hlow.pit, pitCount_rw]
  rw [programDivisor, if_neg hd]
  simp only [macroOuts, programWrites, List.foldl_cons, List.foldl_nil]
  rw [portWrites_macroPitData hrw', portWrites_macroPitData hrw, portWrites_macroPitCtrl, List.append_assoc,
    List.append_assoc]
  rfl

theorem programDivisor_eq_run {d : BitVec 16} (hd : d ≠ 0#16) (s : State) :
    runInstrs (interleaved s [.outPitCtrl, .outPitData (divisorLow d), .outPitData (divisorHigh d)]) (withoutTurns s 3) =
      .next (programDivisor d s) := by
  rw [programDivisor, if_neg hd]
  exact macroOuts_eq_run _ (programWrites d) (.cons (fun _ => rfl) (.cons (fun _ => rfl) (.cons (fun _ => rfl) .nil))) s

/-- Settles O34: the run is `programDivisor_eq_run`, and what it leaves of the timer no device step touches. -/
theorem programLoadsTheDivisor : Obligations.ProgramLoadsTheDivisor := by
  intro s d
  constructor
  · intro hd
    exact ⟨(programDivisor_eq_run hd s).symm, programDivisor d s, rfl, (programDivisor_landed hd s).pit,
      portWrites_programDivisor hd s⟩
  · intro hd
    have hrefused : programDivisor d s = refuse .divisorOutOfRange s := if_pos hd
    exact congrArg Host.Outcome.next hrefused

/-! The refused ports (R118, R194). -/

/-- Settles O43: all of these transactions are one of two refusals. -/
theorem otherPortAccessesAreRefused : Obligations.OtherPortAccessesAreRefused := by
  intro s p v i
  constructor
  · intro htimer
    have hrefuse : exec i s = .next (pitRefused s) := by
      rcases htimer with rfl | rfl | rfl | rfl | rfl | rfl <;> rfl
    rw [hrefuse, pitRefused, refuse_eq]
  · intro hother
    have hrefuse : exec i s = .next (unmapped s) := by
      rcases hother with rfl | rfl | rfl <;> rfl
    rw [hrefuse, unmapped, refuse_eq]

end Sys2Proof.Machine
end

section
/-! The statements of 42_ps2_assembler.md about one transaction: the 8042's two reads and the arrival of a byte (R221 to
R223), the acceptance of a byte (R224, R225), and the completion of a packet (R226, R227, R233 to R235, R238). -/

namespace Sys2Proof.Machine

/-! The 8042 (R221 to R223). -/

theorem readKbcStatus_eq (s : State) : readKbcStatus s = { s with
    draws := s.draws + 1, trace := s.trace ++ [.inp 0x64#16 (kbcStatus s.par.auxMask s.kbcQ (drawn s))] } := rfl

theorem readKbcData_cons {s : State} {b : Byte} {src : Src} {q : List (Byte × Src)} (hq : s.kbcQ = (b, src) :: q) :
    readKbcData s = { s with kbcQ := q, trace := s.trace ++ [.inp 0x60#16 b] } := by
  simp only [readKbcData, hq, record]

theorem readKbcData_nil {s : State} (hq : s.kbcQ = []) :
    readKbcData s = { s with draws := s.draws + 1, trace := s.trace ++ [.inp 0x60#16 (drawn s)] } := by
  simp only [readKbcData, hq, record, countDraw]

theorem kbcStatus_available (p : Params) (q : List (Byte × Src)) (d : Byte) :
    (kbcStatus p.auxMask q d).getLsbD 0 = true ↔ q ≠ [] := by
  cases q with
  | nil => simp only [kbcStatus_nil, Bool.false_eq_true, ne_eq, not_true_eq_false]
  | cons e q =>
    obtain ⟨b, src⟩ := e
    simp only [kbcStatus_cons, ne_eq, reduceCtorEq, not_false_eq_true]

theorem auxOf_eq_true_iff (m st : Byte) : auxOf m st = true ↔ st &&& m ≠ 0#8 := bne_iff_ne

theorem auxOf_eq_false_iff (m st : Byte) : auxOf m st = false ↔ st &&& m = 0#8 := bne_eq_false_iff_eq

/-- Settles O39: what the read records is `kbcStatus`, whose bit 0 and aux bit the queue fixes. -/
theorem keyboardControllerStatus : Obligations.KeyboardControllerStatus := by
  intro s
  refine ⟨kbcStatus s.par.auxMask s.kbcQ (drawn s), rfl, kbcStatus_available s.par s.kbcQ (drawn s), ?_⟩
  intro b src q hq
  rw [hq, ← auxOf_eq_true_iff, kbcStatus_aux, beq_iff_eq]

/-- Settles O40, by whether the queue is empty. -/
theorem keyboardControllerData : Obligations.KeyboardControllerData := by
  intro s
  constructor
  · exact fun b src q hq => congrArg Host.Outcome.next (readKbcData_cons hq)
  · exact fun hq => ⟨drawn s, congrArg Host.Outcome.next (readKbcData_nil hq)⟩

/-- IRQ 12, the mouse's, is line 4 of the slave (R34). -/
theorem raiseLine_mouse (s : State) : raiseLine (srcLine .aux) s = { s with
    slave := { s.slave with irr := s.slave.irr ||| 0x10#8 }, trace := s.trace ++ [.irq 12#4] } := rfl

/-- IRQ 1, the keyboard's, is line 1 of the master (R34). -/
theorem raiseLine_keyboard (s : State) : raiseLine (srcLine .kbd) s = { s with
    master := { s.master with irr := s.master.irr ||| 0x02#8 }, trace := s.trace ++ [.irq 1#4] } := rfl

/-- Settles O41: the arrival queues and records the byte and then raises its source's line. -/
theorem byteArrivalRaisesItsLine : Obligations.ByteArrivalRaisesItsLine := by
  intro s b
  have hpush : ∀ src, exec (.kbcPush src b) s =
      .next (raiseLine (srcLine src) (record (.push src b) { s with kbcQ := s.kbcQ ++ [(b, src)] })) := fun _ => rfl
  constructor
  · rw [hpush, raiseLine_mouse, record_trace, List.append_assoc]
    rfl
  · rw [hpush, raiseLine_keyboard, record_trace, List.append_assoc]
    rfl

/-! The acceptance of a byte (R224, R225). -/

theorem acceptByte_keyboard (d : Byte) (s : State) : acceptByte false d s = s := rfl

section AcceptMouse
variable {s : State} (d : Byte)
theorem acceptByte_first (hpos : s.asm.pos = 0#2) :
    acceptByte true d s = { s with asm := ⟨d, s.asm.buf1, s.asm.buf2, 1#2⟩ } := by
  simp only [acceptByte, acceptAux, hpos, if_true]
theorem acceptByte_second (hpos : s.asm.pos = 1#2) :
    acceptByte true d s = { s with asm := ⟨s.asm.buf0, d, s.asm.buf2, 2#2⟩ } := by
  simp [acceptByte, acceptAux, hpos]
theorem acceptByte_third (hpos : s.asm.pos = 2#2) :
    acceptByte true d s = completePacket { s with asm := ⟨s.asm.buf0, s.asm.buf1, d, 0#2⟩ } := by
  simp [acceptByte, acceptAux, hpos]
theorem acceptByte_badPosition (hpos : s.asm.pos = 3#2) :
    acceptByte true d s = { s with diag := s.diag ++ [.badCyclePosition 3#2 d] } := by
  simp [acceptByte, acceptAux, hpos, raiseDiag]
end AcceptMouse

theorem exec_accept {s : State} {st d : Byte} {aux : Bool} (haux : auxOf s.par.auxMask st = aux) :
    exec (.accept st d) s = .next (acceptByte aux d s) := by
  rw [← haux]
  rfl

/-- Settles O44, by the source that the status byte shows and then by the position. -/
theorem acceptFillsTheCycleBuffer : Obligations.AcceptFillsTheCycleBuffer := by
  intro s st d
  refine ⟨fun hkbd => by rw [exec_accept ((auxOf_eq_false_iff _ _).mpr hkbd), acceptByte_keyboard], fun hmouse => ?_⟩
  rw [exec_accept ((auxOf_eq_true_iff _ _).mpr hmouse)]
  refine ⟨fun hpos => ?_, fun hpos => ?_, fun hpos => ?_, fun hpos => ?_⟩
  · rw [acceptByte_first d hpos]
  · rw [acceptByte_second d hpos]
  · rw [acceptByte_third d hpos]
    rfl
  · rw [acceptByte_badPosition d hpos]

/-! The completion of a packet (R226, R227, R234, R238). -/

/-- A byte masked to one bit is nonzero exactly when it has that bit. -/
theorem and_bit_ne_zero (v : Byte) {i : Nat} (hi : i < 8) : (v &&& bit i != 0#8) = v.getLsbD i := by
  rw [Bool.eq_iff_iff, bne_iff_ne, byte_ne_zero_iff]
  simp only [BitVec.getLsbD_and, Bool.and_eq_true]
  constructor
  · rintro ⟨k, hk, hv, hbit⟩
    obtain rfl : k = i := by simpa only [bit_getLsbD i hi k hk, decide_eq_true_eq] using hbit
    exact hv
  · exact fun hv => ⟨i, hi, hv, by rw [bit_getLsbD i hi i hi, decide_eq_true_eq]⟩

theorem buttonBit_left (v : Byte) : buttonBit v .left = v.getLsbD 0 := and_bit_ne_zero v (i := 0) (by decide)
theorem buttonBit_right (v : Byte) : buttonBit v .right = v.getLsbD 1 := and_bit_ne_zero v (i := 1) (by decide)
theorem buttonBit_middle (v : Byte) : buttonBit v .middle = v.getLsbD 2 := and_bit_ne_zero v (i := 2) (by decide)

theorem overflowed_eq_true_iff_ne (v : Byte) : overflowed v = true ↔ v &&& 0xC0#8 ≠ 0#8 := bne_iff_ne

theorem overflowMask_getLsbD : ∀ k < 8, (0xC0#8).getLsbD k = decide (k = 6 ∨ k = 7) := by decide

/-- The overflow bits are bits 6 and 7 (R109). -/
theorem overflowed_eq (v : Byte) : overflowed v = (v.getLsbD 6 || v.getLsbD 7) := by
  rw [Bool.eq_iff_iff, overflowed_eq_true_iff_ne, byte_ne_zero_iff, Bool.or_eq_true]
  simp only [BitVec.getLsbD_and, Bool.and_eq_true]
  constructor
  · rintro ⟨k, hk, hv, hmask⟩
    rw [overflowMask_getLsbD k hk, decide_eq_true_eq] at hmask
    rcases hmask with rfl | rfl
    · exact .inl hv
    · exact .inr hv
  · rintro (hv | hv)
    · exact ⟨6, by decide, hv, by decide⟩
    · exact ⟨7, by decide, hv, by decide⟩

theorem completePacket_overflowed {s : State} (hover : overflowed s.asm.buf0 = true) : completePacket s =
    { s with diag := s.diag ++ [.packetOverflowDropped s.asm.buf0 s.asm.buf1 s.asm.buf2] } := if_pos hover

theorem completePacket_whole {s : State} (hwhole : overflowed s.asm.buf0 = false) : completePacket s =
    handOver (decodePacket s.asm.buf0 s.asm.buf1 s.asm.buf2 s.clk) s := by
  simp only [completePacket, hwhole, Bool.false_eq_true, if_false]

theorem int8_eq (b : Byte) : int8 b = if b.toNat < 128 then (b.toNat : Int) else b.toNat - 256 := by
  have hhalf : 2 * b.toNat < 2 ^ 8 ↔ b.toNat < 128 := by omega
  simp only [int8, BitVec.toInt_eq_toNat_cond, hhalf]
  rfl

/-- The dispatch of a packet that has the clock's time is the three buttons' own transactions, in order (R262). -/
theorem runInstrs_buttonUpdates {p : Packet} {s : State} (htime : p.t = s.clk) :
    runInstrs [.buttonUpdate .left p.left, .buttonUpdate .right p.right, .buttonUpdate .middle p.middle] s =
      .next (dispatch p s) := by
  have hexec : ∀ b x u, exec (.buttonUpdate b x) u = .next (updateButton b x u.clk u) := fun _ _ _ => rfl
  simp only [runInstrs, hexec, updateButton_clk, dispatch, htime]

/-- Settles O45: an overflowed packet is only logged, and a whole one is handed over as `decodePacket` reads it. -/
theorem packetCompletion : Obligations.PacketCompletion := by
  intro s
  constructor
  · intro hbits
    have hover : overflowed s.asm.buf0 = true := by rw [overflowed_eq, Bool.or_eq_true]; exact hbits
    exact congrArg Host.Outcome.next (completePacket_overflowed hover)
  · intro h6 h7
    have hwhole : overflowed s.asm.buf0 = false := by rw [overflowed_eq, h6, h7]; rfl
    refine ⟨int8 s.asm.buf1, int8 s.asm.buf2, int8_eq _, int8_eq _, ?_⟩
    rw [← buttonBit_left, ← buttonBit_right, ← buttonBit_middle]
    calc exec .packetComplete s = .next (completePacket s) := rfl
      _ = .next (handOver (decodePacket s.asm.buf0 s.asm.buf1 s.asm.buf2 s.clk) s) := by rw [completePacket_whole hwhole]
      _ = _ := (runInstrs_buttonUpdates rfl).symm

/-- Settles O46: the third byte completes the packet, and the first one's overflow bits drop it. -/
theorem overflowedPacketIsDropped : Obligations.OverflowedPacketIsDropped := by
  intro s st d hmouse hpos hover
  rw [exec_accept ((auxOf_eq_true_iff _ _).mpr hmouse), acceptByte_third d hpos]
  exact congrArg Host.Outcome.next (completePacket_overflowed ((overflowed_eq_true_iff_ne _).mpr hover))

/-! What the buttons' steps do not read (R235, R260). -/

/-- The state with the cycle buffer, the 8042's queue, and what its reads count and record replaced. -/
def withIntake (a : Asm) (q : List (Byte × Src)) (n : Nat) (es : List Entry) (s : State) : State :=
  { s with asm := a, kbcQ := q, draws := n, trace := es }

section WithIntake
variable (a : Asm) (q : List (Byte × Src)) (n : Nat) (es : List Entry)
theorem updateButton_withIntake (b : Button) (x : Bool) (t : Timestamp) (s : State) :
    updateButton b x t (withIntake a q n es s) = withIntake a q n es (updateButton b x t s) := by
  unfold updateButton
  simp only [apply_ite (withIntake a q n es)]
  rfl
theorem handOver_withIntake (p : Packet) (s : State) :
    handOver p (withIntake a q n es s) = withIntake a q n es (handOver p s) := by
  have hlog : { withIntake a q n es s with pktlog := (withIntake a q n es s).pktlog ++ [p] } =
      withIntake a q n es { s with pktlog := s.pktlog ++ [p] } := rfl
  simp only [handOver, dispatch, hlog, updateButton_withIntake]
end WithIntake

/-- Two bytes that agree on the bits of a mask agree on the bits of every part of it. -/
theorem and_eq_and_of_part {v w m part : Byte} (hmask : v &&& m = w &&& m) (hpart : m &&& part = part) :
    v &&& part = w &&& part := by
  rw [← hpart, ← BitVec.and_assoc, hmask, BitVec.and_assoc]

/-- A packet's deltas and time do not read byte 0, and its buttons read only bits 0 to 2 of it (R227). -/
theorem decodePacket_congr {b0 b0' : Byte} (hbits : b0 &&& 0xC7#8 = b0' &&& 0xC7#8) (b1 b2 : Byte) (t : Timestamp) :
    decodePacket b0 b1 b2 t = decodePacket b0' b1 b2 t := by
  have hbutton : ∀ b, buttonBit b0 b = buttonBit b0' b := fun b => by
    have hpart : 0xC7#8 &&& buttonMask b = buttonMask b := by cases b <;> decide
    simp only [buttonBit, and_eq_and_of_part hbits hpart]
  simp only [decodePacket, hbutton]

/-- Settles O47: both bytes give one packet, and handing it over does not read the cycle buffer. -/
theorem packetIgnoresBitsThreeToFive : Obligations.PacketIgnoresBitsThreeToFive := by
  intro s t u b0 hbits hclear ht hu
  have hwhole : overflowed b0 = false := bne_eq_false_iff_eq.mpr hclear
  have hwhole' : overflowed s.asm.buf0 = false :=
    bne_eq_false_iff_eq.mpr ((and_eq_and_of_part hbits (by decide)).trans hclear)
  obtain rfl : handOver (decodePacket s.asm.buf0 s.asm.buf1 s.asm.buf2 s.clk) s = t :=
    Host.Outcome.next.inj ((congrArg Host.Outcome.next (completePacket_whole hwhole').symm).trans ht)
  obtain rfl : handOver (decodePacket b0 s.asm.buf1 s.asm.buf2 s.clk)
      (withIntake { s.asm with buf0 := b0 } s.kbcQ s.draws s.trace s) = u :=
    Host.Outcome.next.inj ((congrArg Host.Outcome.next (completePacket_whole hwhole).symm).trans hu)
  rw [handOver_withIntake, decodePacket_congr hbits]
  exact ⟨rfl, rfl, rfl, rfl⟩

end Sys2Proof.Machine
end

section
/-! The statements of 42_ps2_assembler.md about the drain (R228 to R232): what one pass of its loop is as a run of
transactions, how it ends or hangs, and how many mouse bytes it accepts. -/

namespace Sys2Proof.Machine

/-! One pass as a run of transactions (R81, R228). -/

theorem exec_drain (s : State) : exec .drain s = .next (drainQueue s) := rfl

theorem encode_drain : encode .drain = 0x13000000#32 := by decide

theorem drainAgain_eq (s : State) : drainAgain s = { s with input := .word 0x13000000#32 :: s.input } := by
  rw [drainAgain, encode_drain]

/-- The devices' next turn, as the run of their transactions with that turn taken out (R81). -/
theorem runInstrs_turn (s : State) :
    runInstrs ((s.inside.headD s.insideEver).map DevStep.instr) (withoutTurns s 1) = .next (landDevices s) := by
  rw [runInstrs_devSteps, withoutTurns, List.drop_one]
  rfl

theorem exec_accept_head {s u : State} {d : Byte} {src : Src} {q : List (Byte × Src)} (hq : s.kbcQ = (d, src) :: q)
    (hpar : u.par = s.par) (free : Byte) :
    exec (.accept (kbcStatus s.par.auxMask s.kbcQ free) d) u = .next (acceptByte (src == .aux) d u) :=
  exec_accept (by rw [hpar, hq, kbcStatus_aux])

/-- The byte that the status read finds at the head is still there at the data read (R228). -/
theorem queue_at_dataRead {s : State} {e : Byte × Src} {q : List (Byte × Src)} (hq : (landDevices s).kbcQ = e :: q) :
    ∃ more, (landDevices (readKbcStatus (landDevices s))).kbcQ = e :: (q ++ more) := by
  obtain ⟨more, hmore⟩ := (Landed.landDevices (readKbcStatus (landDevices s))).queue
  exact ⟨more, hmore.trans (congrArg (· ++ more) hq)⟩

/-- A pass that finds a byte available, from its status read on, is a run of its transactions. -/
theorem drainPass_run {s : State} {d : Byte} {src : Src} {q : List (Byte × Src)}
    (hq : (landDevices s).kbcQ = (d, src) :: q) :
    runInstrs ([.inKbcStatus] ++ ((landDevices s).inside.headD (landDevices s).insideEver).map DevStep.instr ++
        [.inKbcData, .accept (kbcStatus (landDevices s).par.auxMask (landDevices s).kbcQ (drawn (landDevices s))) d])
      (withoutTurns (landDevices s) 1) = .next (drainPass s).1 := by
  have hstatus : runInstrs [.inKbcStatus] (withoutTurns (landDevices s) 1) =
      .next (withoutTurns (readKbcStatus (landDevices s)) 1) := rfl
  have hturn := runInstrs_turn (readKbcStatus (landDevices s))
  have hpar : (readKbcData (landDevices (readKbcStatus (landDevices s)))).par = (landDevices s).par := by
    rw [readKbcData_par, (Landed.landDevices _).par]
    rfl
  have hdata : ∀ u, exec .inKbcData u = .next (readKbcData u) := fun _ => rfl
  rw [List.append_assoc, runInstrs_append hstatus]
  refine (runInstrs_append hturn _).trans ?_
  simp only [runInstrs, hdata, exec_accept_head hq hpar, drainPass_cons hq]

/-- Settles O48: the devices' first turn is `landDevices`, the rest of the pass `drainPass_run`, and what comes after it
`drainQueue_pass`. -/
theorem drainIsItsLoop : Obligations.DrainIsItsLoop := by
  intro s s1 hturn
  obtain rfl : landDevices s = s1 := Host.Outcome.next.inj ((runInstrs_turn s).symm.trans hturn)
  refine ⟨fun hempty => congrArg Host.Outcome.next (drainQueue_nil hempty), fun d src q hq => ?_⟩
  refine ⟨_, (drainPass s).1, congrArg Host.Outcome.next (readKbcStatus_eq _), drainPass_run hq, ?_⟩
  have hgoesOn : drainPass s = ((drainPass s).1, true) := by rw [drainPass_cons hq]
  rcases drainQueue_pass hgoesOn with hrest | ⟨hpush, hagain⟩
  · exact .inl (congrArg Host.Outcome.next hrest)
  · exact .inr ⟨hpush, congrArg Host.Outcome.next (hagain.trans (drainAgain_eq _))⟩

/-! How a drain ends, and how it hangs (R229). -/

/-- A drain ends at a status read that finds the queue empty, or, only where the devices push for ever, is one pass and
stays the next transaction to come. -/
theorem drainQueue_cases (s : State) :
    (∃ u, u.kbcQ = [] ∧ u.input = s.input ∧ drainQueue s = readKbcStatus u) ∨
      (s.insideEver.any isPush = true ∧ drainQueue s = drainAgain (drainPass s).1) := by
  cases hloop : drainLoop (bytesToDrain s + 1) s with
  | some t =>
    obtain ⟨u, hempty, rfl, hinput⟩ := drainLoop_some hloop
    exact .inl ⟨u, hempty, hinput, congrArg (Option.getD · _) hloop⟩
  | none =>
    refine .inr ⟨?_, congrArg (Option.getD · _) hloop⟩
    by_contra hfair
    obtain ⟨t, ht⟩ := drainLoop_ends (Bool.eq_false_of_not_eq_true hfair) (Nat.lt_succ_self (bytesToDrain s))
    exact Option.some_ne_none t (ht.symm.trans hloop)

theorem Landed.trace_length {s t : State} (h : Landed s t) : s.trace.length ≤ t.trace.length := by
  obtain ⟨more, hmore⟩ := h.trace
  rw [hmore, List.length_append]
  exact Nat.le_add_right _ _

theorem readKbcStatus_trace_length (s : State) : (readKbcStatus s).trace.length = s.trace.length + 1 := List.length_append

/-- A pass records at least its status read. -/
theorem drainPass_trace_length (s : State) : s.trace.length < (drainPass s).1.trace.length := by
  have hbefore := (Landed.landDevices s).trace_length
  have hstatus := readKbcStatus_trace_length (landDevices s)
  cases hq : (landDevices s).kbcQ with
  | nil =>
    rw [drainPass_nil hq, hstatus]
    exact Nat.lt_succ_of_le hbefore
  | cons e q =>
    obtain ⟨d, src⟩ := e
    have hbetween := (Landed.landDevices (readKbcStatus (landDevices s))).trace_length
    obtain ⟨more, hhead⟩ := queue_at_dataRead hq
    rw [drainPass_cons hq, acceptByte_trace, readKbcData_cons hhead]
    simp only [List.length_append]
    omega

/-- One step of a drain in a hang: a pass, after which the drain is still the next transaction to come. -/
theorem step_endlessDrain {s : State} {rest : List Input} (hturns : s.inside = []) (hpush : s.insideEver.any isPush = true)
    (hinput : s.input = .word 0x13000000#32 :: rest) :
    ∃ t, step s = .next t ∧ t.inside = [] ∧ t.insideEver = s.insideEver ∧ t.input = s.input ∧
      s.trace.length < t.trace.length := by
  have hdecode : decode s.master.init s.slave.init 0x13000000#32 = .instr .drain := by
    rw [← encode_drain]
    exact decodeOfEncodeIsTheInstruction .drain _ _ rfl rfl
  obtain ⟨t, hpass, hinside, hever, hin⟩ := drainPass_endless (s := { s with input := rest }) hturns hpush
  have hdrain := drainQueue_endless (s := { s with input := rest }) hturns hpush
  have htrace := drainPass_trace_length { s with input := rest }
  rw [hpass] at htrace hdrain
  refine ⟨drainAgain t, ?_, hinside, hever, ?_, htrace⟩
  · rw [stepRunsTheDecodedTransaction s _ rest _ hinput hdecode, exec_drain, hdrain]
  · rw [drainAgain_eq, hin, hinput]

/-- Settles O49: `drainQueue_cases` for one drain, and `step_endlessDrain` by induction on the steps for the hang. -/
theorem drainEndsWithTheQueueEmpty : Obligations.DrainEndsWithTheQueueEmpty := by
  constructor
  · intro s
    refine ⟨drainQueue s, rfl, ?_⟩
    rcases drainQueue_cases s with ⟨u, hempty, hinput, hdrain⟩ | ⟨hpush, hdrain⟩
    · rw [hdrain]
      refine .inl ⟨hinput, hempty, _, List.getLast?_concat, ?_⟩
      rw [hempty, kbcStatus_nil]
    · rw [hdrain, drainAgain_eq]
      exact .inr ⟨hpush, congrArg _ (drainPass_outside s).1⟩
  · intro s rest n
    induction n generalizing s with
    | zero => exact fun _ _ _ => ⟨s, rfl, rfl, Nat.le_refl _⟩
    | succ n ih =>
      intro hturns hpush hinput
      obtain ⟨t, hstep, hinside, hever, hin, htrace⟩ := step_endlessDrain hturns hpush hinput
      obtain ⟨u, hrun, huin, hutrace⟩ := ih t hinside (by rw [hever]; exact hpush) (hin.trans hinput)
      refine ⟨u, by simp only [runSteps, hstep, hrun], huin.trans hin, by omega⟩

/-! The mouse bytes that a drain accepts (R224, R232). -/

/-- The record of a mouse byte's arrival. -/
def isAuxPush : Entry → Bool
  | .push .aux _ => true
  | _ => false

/-- The mouse bytes in the 8042's queue. -/
def auxQueued (s : State) : Nat := s.kbcQ.countP (·.2 == .aux)

/-- The mouse bytes whose arrival is recorded. -/
def auxPushed (s : State) : Nat := s.trace.countP isAuxPush

/-- The mouse bytes accepted so far: those in the cycle buffer, and three for each packet handed over or dropped. -/
def auxTaken (s : State) : Nat := s.asm.pos.toNat + 3 * (s.pktlog.length + s.diag.length)

theorem countP_aux_cons (d : Byte) (src : Src) (q : List (Byte × Src)) :
    ((d, src) :: q).countP (·.2 == .aux) = q.countP (·.2 == .aux) + (src == .aux).toNat := by
  rw [List.countP_cons]
  cases src <;> rfl

theorem dispatch_pktlog (p : Packet) (s : State) : (dispatch p s).pktlog = s.pktlog := by rw [dispatch_outside]
theorem dispatch_diag (p : Packet) (s : State) : (dispatch p s).diag = s.diag := by rw [dispatch_outside]

/-- A completed packet is one more entry of the packet output or of the diagnostic one. -/
theorem completePacket_counts (s : State) : (completePacket s).asm = s.asm ∧
    (completePacket s).pktlog.length + (completePacket s).diag.length = s.pktlog.length + s.diag.length + 1 := by
  refine ⟨by rw [completePacket_outside], ?_⟩
  cases hover : overflowed s.asm.buf0 with
  | true =>
    rw [completePacket_overflowed hover]
    simp only [List.length_append, List.length_singleton]
    omega
  | false =>
    rw [completePacket_whole hover, handOver, dispatch_pktlog, dispatch_diag]
    simp only [List.length_append, List.length_singleton]
    omega

/-- An accepted mouse byte is counted once, and the position stays one that R45 admits. -/
theorem acceptByte_counts {s : State} (hpos : s.asm.pos ≠ 3#2) (aux : Bool) (d : Byte) :
    (acceptByte aux d s).asm.pos ≠ 3#2 ∧ auxTaken (acceptByte aux d s) = auxTaken s + aux.toNat := by
  cases aux with
  | false => exact ⟨hpos, rfl⟩
  | true =>
    have hcases : s.asm.pos = 0#2 ∨ s.asm.pos = 1#2 ∨ s.asm.pos = 2#2 := by bv_omega
    rcases hcases with h | h | h
    · rw [acceptByte_first d h, auxTaken, auxTaken, h]
      exact ⟨(by decide : 1#2 ≠ 3#2), by simp; omega⟩
    · rw [acceptByte_second d h, auxTaken, auxTaken, h]
      exact ⟨(by decide : 2#2 ≠ 3#2), by simp; omega⟩
    · obtain ⟨hasm, hlogs⟩ := completePacket_counts { s with asm := ⟨s.asm.buf0, s.asm.buf1, d, 0#2⟩ }
      rw [acceptByte_third d h, auxTaken, auxTaken, hasm, hlogs, h]
      exact ⟨(by decide : 0#2 ≠ 3#2), by simp; omega⟩

/-- From `s` to `t` only arrivals bring mouse bytes, and none of them is lost: each is queued or accepted. -/
structure AuxBalance (s t : State) : Prop where
  trace : s.trace <+: t.trace
  pos : s.asm.pos ≠ 3#2 → t.asm.pos ≠ 3#2
  taken : s.asm.pos ≠ 3#2 → auxTaken s ≤ auxTaken t
  balance : s.asm.pos ≠ 3#2 → auxTaken t + auxQueued t + auxPushed s = auxTaken s + auxQueued s + auxPushed t

namespace AuxBalance
variable {s t u : State}

theorem refl (s : State) : AuxBalance s s := ⟨List.prefix_rfl, id, fun _ => Nat.le_refl _, fun _ => rfl⟩

theorem trans (h : AuxBalance s t) (k : AuxBalance t u) : AuxBalance s u where
  trace := h.trace.trans k.trace
  pos hs := k.pos (h.pos hs)
  taken hs := (h.taken hs).trans (k.taken (h.pos hs))
  balance hs := by
    have hst := h.balance hs
    have htu := k.balance (h.pos hs)
    omega

/-- A step that records no mouse byte's arrival and leaves the queue, the cycle buffer and the two outputs alone. -/
theorem of_record {e : Entry} (hplain : isAuxPush e = false) (htrace : t.trace = s.trace ++ [e]) (hqueue : t.kbcQ = s.kbcQ)
    (hasm : t.asm = s.asm) (hpktlog : t.pktlog = s.pktlog) (hdiag : t.diag = s.diag) : AuxBalance s t where
  trace := ⟨[e], htrace.symm⟩
  pos hs := by rwa [hasm]
  taken _ := by rw [auxTaken, auxTaken, hasm, hpktlog, hdiag]
  balance _ := by
    rw [auxTaken, auxTaken, auxQueued, auxQueued, auxPushed, auxPushed, hasm, hpktlog, hdiag, hqueue, htrace,
      List.countP_append, List.countP_singleton, hplain]
    rfl

theorem raiseLine (n : BitVec 4) (s : State) : AuxBalance s (raiseLine n s) := by
  by_cases hn : n = 2#4
  · have hrefused : Machine.raiseLine n s = refuse .cascadeLineRaise s := if_pos hn
    rw [hrefused]
    exact .of_record (e := .refused .cascadeLineRaise) rfl rfl rfl rfl rfl rfl
  · rw [raiseLine_of_ne hn]
    exact .of_record (e := .irq n) rfl (by simp) (by simp) (by simp) (by simp) (by simp)

/-- An arrival is recorded and queued. -/
theorem arrival (src : Src) (b : Byte) (s : State) :
    AuxBalance s (record (.push src b) { s with kbcQ := s.kbcQ ++ [(b, src)] }) where
  trace := ⟨_, rfl⟩
  pos := id
  taken _ := Nat.le_refl _
  balance _ := by
    have hsame : isAuxPush (.push src b) = (src == .aux) := by cases src <;> rfl
    simp only [auxQueued, auxPushed, record_kbcQ, record_trace, List.countP_append, List.countP_singleton, hsame]
    simp only [auxTaken, record]
    omega

theorem devStep (s : State) (d : DevStep) : AuxBalance s (devStep s d) := by
  cases d with
  | raise n => exact .raiseLine n s
  | push src b => exact (arrival src b s).trans (.raiseLine _ _)

theorem devSteps (ds : List DevStep) (s : State) : AuxBalance s (ds.foldl Machine.devStep s) := by
  induction ds generalizing s with
  | nil => exact .refl s
  | cons d ds ih => exact (AuxBalance.devStep s d).trans (ih _)

theorem landDevices (s : State) : AuxBalance s (landDevices s) :=
  have hturn : AuxBalance s (withTurns s.inside.tail s) := { refl s with }
  hturn.trans (devSteps _ _)

theorem readKbcStatus (s : State) : AuxBalance s (readKbcStatus s) := of_record rfl rfl rfl rfl rfl rfl

/-- The head byte is taken off the queue and accepted. -/
theorem acceptHead {d : Byte} {src : Src} {q : List (Byte × Src)} (hq : s.kbcQ = (d, src) :: q) :
    AuxBalance s (acceptByte (src == .aux) d (readKbcData s)) := by
  obtain ⟨u, hread, hu⟩ : ∃ u, readKbcData s = u ∧ u = { s with kbcQ := q, trace := s.trace ++ [.inp 0x60#16 d] } :=
    ⟨_, readKbcData_cons hq, rfl⟩
  have hpos : s.asm.pos ≠ 3#2 → u.asm.pos ≠ 3#2 := by rw [hu]; exact id
  have htaken : auxTaken u = auxTaken s := by rw [hu]; rfl
  have hqueued : auxQueued s = auxQueued (acceptByte (src == .aux) d u) + (src == .aux).toNat := by
    rw [auxQueued, auxQueued, acceptByte_kbcQ, hq, hu, countP_aux_cons]
  have htrace : (acceptByte (src == .aux) d u).trace = s.trace ++ [.inp 0x60#16 d] := by rw [acceptByte_trace, hu]
  have hpushed : auxPushed (acceptByte (src == .aux) d u) = auxPushed s := by
    rw [auxPushed, htrace, List.countP_append]
    rfl
  rw [hread]
  refine ⟨⟨_, htrace.symm⟩, fun hs => ?_, fun hs => ?_, fun hs => ?_⟩ <;>
    obtain ⟨hend, hcount⟩ := acceptByte_counts (hpos hs) (src == .aux) d
  · exact hend
  · omega
  · omega

theorem drainPass (s : State) : AuxBalance s (drainPass s).1 := by
  have hbefore := landDevices s
  cases hq : (Machine.landDevices s).kbcQ with
  | nil =>
    rw [drainPass_nil hq]
    exact hbefore.trans (readKbcStatus _)
  | cons e q =>
    obtain ⟨d, src⟩ := e
    obtain ⟨more, hhead⟩ := queue_at_dataRead hq
    rw [drainPass_cons hq]
    exact hbefore.trans ((readKbcStatus _).trans ((landDevices _).trans (acceptHead hhead)))

theorem drainLoop {fuel : Nat} (hloop : drainLoop fuel s = some t) : AuxBalance s t := by
  induction fuel generalizing s with
  | zero => nomatch hloop
  | succ n ih =>
    unfold Machine.drainLoop at hloop
    have hpass := drainPass s
    split at hloop
    · next u hu =>
      rw [hu] at hpass
      exact hpass.trans (ih hloop)
    · next u hu =>
      rw [hu] at hpass
      exact Option.some.inj hloop ▸ hpass

theorem drainQueue (s : State) : AuxBalance s (drainQueue s) := by
  unfold Machine.drainQueue
  cases hloop : Machine.drainLoop (s.kbcQ.length + pushesToCome s + 1) s with
  | some t => exact drainLoop hloop
  | none => exact { drainPass s with }

end AuxBalance

/-! A drain while the devices are idle: the queue's bytes accepted in order, the keyboard's without effect (R231). -/

/-- Accepts the bytes of `q`, head first. -/
def acceptAll (q : List (Byte × Src)) (s : State) : State := q.foldl (fun s e => acceptByte (e.2 == .aux) e.1 s) s

theorem acceptAll_cons (d : Byte) (src : Src) (q : List (Byte × Src)) (s : State) :
    acceptAll ((d, src) :: q) s = acceptAll q (acceptByte (src == .aux) d s) := rfl

/-- The state with the 8042's queue, and what its reads count and record, replaced. -/
def withReads (q : List (Byte × Src)) (n : Nat) (es : List Entry) (s : State) : State := withIntake s.asm q n es s

section WithReads
variable (q : List (Byte × Src)) (n : Nat) (es : List Entry)
theorem handOver_withReads (p : Packet) (s : State) :
    handOver p (withReads q n es s) = withReads q n es (handOver p s) := by
  have hasm : (handOver p s).asm = s.asm := by rw [handOver, dispatch_outside]
  rw [withReads, withReads, handOver_withIntake, hasm]
theorem completePacket_withReads (s : State) :
    completePacket (withReads q n es s) = withReads q n es (completePacket s) := by
  cases hover : overflowed s.asm.buf0 with
  | true =>
    rw [completePacket_overflowed hover, completePacket_overflowed (s := withReads q n es s) hover]
    rfl
  | false =>
    rw [completePacket_whole hover, completePacket_whole (s := withReads q n es s) hover, handOver_withReads]
    rfl
theorem acceptByte_withReads (aux : Bool) (d : Byte) (s : State) :
    acceptByte aux d (withReads q n es s) = withReads q n es (acceptByte aux d s) := by
  cases aux with
  | false => rfl
  | true =>
    have hcases : s.asm.pos = 0#2 ∨ s.asm.pos = 1#2 ∨ s.asm.pos = 2#2 ∨ s.asm.pos = 3#2 := by bv_omega
    rcases hcases with h | h | h | h
    · rw [acceptByte_first d h, acceptByte_first (s := withReads q n es s) d h]
      rfl
    · rw [acceptByte_second d h, acceptByte_second (s := withReads q n es s) d h]
      rfl
    · rw [acceptByte_third d h, acceptByte_third (s := withReads q n es s) d h]
      exact completePacket_withReads q n es { s with asm := ⟨s.asm.buf0, s.asm.buf1, d, 0#2⟩ }
    · rw [acceptByte_badPosition d h, acceptByte_badPosition (s := withReads q n es s) d h]
      rfl
theorem acceptAll_withReads (r : List (Byte × Src)) (s : State) :
    acceptAll r (withReads q n es s) = withReads q n es (acceptAll r s) := by
  induction r generalizing s with
  | nil => rfl
  | cons e r ih =>
    obtain ⟨d, src⟩ := e
    rw [acceptAll_cons, acceptAll_cons, acceptByte_withReads, ih]
end WithReads

/-- While the devices are idle a drain accepts the bytes of the queue and leaves none there. -/
theorem drainQueue_idle {s : State} (hidle : Idle s) :
    ∃ n es, drainQueue s = withReads [] n es (acceptAll s.kbcQ s) := by
  generalize hq : s.kbcQ = q
  induction q generalizing s with
  | nil =>
    have hstatus : readKbcStatus s = withReads s.kbcQ (s.draws + 1) (readKbcStatus s).trace s := rfl
    refine ⟨s.draws + 1, (readKbcStatus s).trace, ?_⟩
    rw [drainQueue_idle_nil hidle hq, hstatus, hq]
    rfl
  | cons e q ih =>
    obtain ⟨d, src⟩ := e
    have hread : readKbcData (readKbcStatus s) = withReads q (s.draws + 1) _ s :=
      readKbcData_cons (s := readKbcStatus s) hq
    have hidle' : ∀ es, Idle (withReads q (s.draws + 1) es (acceptByte (src == .aux) d s)) := fun _ =>
      ⟨(acceptByte_inside _ _ _).trans hidle.listed, (acceptByte_insideEver _ _ _).trans hidle.ever⟩
    obtain ⟨n, es, hrest⟩ := ih (hidle' _) rfl
    refine ⟨n, es, ?_⟩
    rw [drainQueue_idle_cons hidle hq, hread, acceptByte_withReads, hrest, acceptAll_withReads]
    rfl

theorem acceptAll_outside (q : List (Byte × Src)) (s : State) :
    (acceptAll q s).master = s.master ∧ (acceptAll q s).slave = s.slave := by
  induction q generalizing s with
  | nil => exact ⟨rfl, rfl⟩
  | cons e q ih =>
    obtain ⟨d, src⟩ := e
    obtain ⟨hm, hs⟩ := ih (acceptByte (src == .aux) d s)
    rw [acceptAll_cons, hm, hs, acceptByte_outside]
    exact ⟨rfl, rfl⟩

theorem acceptAll_filter_aux (q : List (Byte × Src)) (s : State) :
    acceptAll (q.filter (·.2 == .aux)) s = acceptAll q s := by
  induction q generalizing s with
  | nil => rfl
  | cons e q ih =>
    obtain ⟨d, src⟩ := e
    cases src with
    | aux => exact ih _
    | kbd => exact ih _

theorem acceptAll_counts (q : List (Byte × Src)) {s : State} (hpos : s.asm.pos ≠ 3#2) :
    (acceptAll q s).asm.pos ≠ 3#2 ∧ auxTaken (acceptAll q s) = auxTaken s + q.countP (·.2 == .aux) := by
  induction q generalizing s with
  | nil => exact ⟨hpos, rfl⟩
  | cons e q ih =>
    obtain ⟨d, src⟩ := e
    obtain ⟨hpos', htaken⟩ := acceptByte_counts hpos (src == .aux) d
    obtain ⟨hend, hrest⟩ := ih hpos'
    refine ⟨hend, ?_⟩
    rw [acceptAll_cons, hrest, htaken, countP_aux_cons]
    omega

/-- Settles O51: both drains accept the mouse bytes of the queue. -/
theorem keyboardBytesAreLostInADrain : Obligations.KeyboardBytesAreLostInADrain := by
  intro s t u hidle ht hu
  obtain rfl := Host.Outcome.next.inj ht
  obtain rfl := Host.Outcome.next.inj hu
  obtain ⟨n, es, hdrain⟩ := drainQueue_idle hidle
  obtain ⟨n', es', hdrain'⟩ :=
    drainQueue_idle (s := { s with kbcQ := s.kbcQ.filter (·.2 == .aux) }) ⟨hidle.listed, hidle.ever⟩
  have hsame : acceptAll (s.kbcQ.filter (·.2 == .aux)) { s with kbcQ := s.kbcQ.filter (·.2 == .aux) } =
      withReads (s.kbcQ.filter (·.2 == .aux)) s.draws s.trace (acceptAll s.kbcQ s) :=
    (acceptAll_filter_aux _ _).trans (acceptAll_withReads _ _ _ _ s)
  obtain ⟨hmaster, hslave⟩ := acceptAll_outside s.kbcQ s
  rw [hdrain, hdrain', hsame]
  exact ⟨rfl, hmaster, hslave, rfl, rfl, rfl, rfl, rfl⟩

/-- The position and the packets after `k` more mouse bytes (R232): they are counted in threes. -/
theorem position_and_packets {s t : State} {k : Nat} (hs : s.asm.pos ≠ 3#2) (ht : t.asm.pos ≠ 3#2)
    (htaken : auxTaken t = auxTaken s + k) :
    t.asm.pos.toNat = (s.asm.pos.toNat + k) % 3 ∧
      t.pktlog.length + t.diag.length = s.pktlog.length + s.diag.length + (s.asm.pos.toNat + k) / 3 := by
  unfold auxTaken at htaken
  have hs3 : s.asm.pos.toNat < 3 := by bv_omega
  have ht3 : t.asm.pos.toNat < 3 := by bv_omega
  omega

/-- Settles O50: `k` is what `auxTaken` counts more, which the balance ties to the queue and the recorded arrivals. -/
theorem partialPacketsResume : Obligations.PartialPacketsResume := by
  constructor
  · intro s t hs ht
    obtain rfl := Host.Outcome.next.inj ht
    have h := AuxBalance.drainQueue s
    obtain ⟨es, hes⟩ := h.trace
    have htaken := h.taken hs
    have hbalance := h.balance hs
    have hpushed : auxPushed (drainQueue s) = auxPushed s + es.countP isAuxPush := by
      rw [auxPushed, ← hes, List.countP_append]
      rfl
    have hk : auxTaken (drainQueue s) - auxTaken s + auxQueued (drainQueue s) =
        auxQueued s + es.countP isAuxPush := by omega
    exact ⟨es, _, hes.symm, hk, position_and_packets hs (h.pos hs) (by omega)⟩
  · intro s t hidle hs ht
    obtain rfl := Host.Outcome.next.inj ht
    obtain ⟨n, es, hdrain⟩ := drainQueue_idle hidle
    obtain ⟨hpos, htaken⟩ := acceptAll_counts s.kbcQ hs
    rw [hdrain]
    exact position_and_packets hs hpos htaken

end Sys2Proof.Machine
end

section
/-! The statements of 43_gesture_fsm.md about one button's step and its repetition (R260, R261, R265 to R268), and about a
registration (R264). -/

namespace Sys2Proof.Machine

/-! One button's step as one equation (R260). -/

/-- The kind of the event that a sample `x` at time `t` gives a button with last fresh click `fresh` (R260). -/
def gestureKind (tps : Nat) (x : Bool) (t fresh : Timestamp) : Kind :=
  if x then if withinWindow tps t fresh then .doubleClick else .click else .release

/-- The last fresh click that this sample leaves (R260). -/
def freshAfter (tps : Nat) (x : Bool) (t fresh : Timestamp) : Timestamp :=
  if x then if withinWindow tps t fresh then .epoch else t else fresh

/-- Of a button's record its step reads the last fresh click alone (R270). -/
theorem updateButton_eq (b : Button) (x : Bool) (t : Timestamp) (s : State) : updateButton b x t s =
    emit b (gestureKind s.par.tps x t (s.btn.get b).lastFresh) t { s with
      btn := s.btn.set b
        ⟨if x then .clicked else .released, t, freshAfter s.par.tps x t (s.btn.get b).lastFresh⟩ } := by
  cases x with
  | false => rfl
  | true =>
    cases h : withinWindow s.par.tps t (s.btn.get b).lastFresh with
    | false => simp [updateButton, gestureKind, freshAfter, sampled, h]
    | true => simp [updateButton, gestureKind, freshAfter, sampled, h]

section Sample
variable {tps : Nat} {t fresh : Timestamp}
theorem gestureKind_within (h : withinWindow tps t fresh = true) : gestureKind tps true t fresh = .doubleClick := if_pos h
theorem freshAfter_within (h : withinWindow tps t fresh = true) : freshAfter tps true t fresh = .epoch := if_pos h
theorem gestureKind_beyond (h : withinWindow tps t fresh = false) : gestureKind tps true t fresh = .click := by
  simp [gestureKind, h]
theorem freshAfter_beyond (h : withinWindow tps t fresh = false) : freshAfter tps true t fresh = t := by
  simp [freshAfter, h]
end Sample

theorem ticks_epoch (tps : Nat) : ticks tps .epoch = 0 := Nat.zero_mul tps

/-- The window of a button whose last fresh click is the epoch (R267). -/
theorem withinWindow_epoch (tps : Nat) (t : Timestamp) : withinWindow tps t .epoch = decide (2 * ticks tps t ≤ tps) := by
  rw [withinWindow, ticks_epoch, decide_eq_decide]
  omega

theorem exec_buttonUpdate (b : Button) (x : Bool) (s : State) :
    exec (.buttonUpdate b x) s = .next (updateButton b x s.clk s) := rfl

/-- Settles O52: the three cases of `gestureKind` and `freshAfter`. -/
theorem buttonStep : Obligations.ButtonStep := by
  intro s b x r elapsed
  rw [exec_buttonUpdate, updateButton_eq]
  refine ⟨fun hx h => ?_, fun hx h => ?_, fun hx => ?_⟩ <;> subst hx
  · have hwithin : withinWindow s.par.tps s.clk r.lastFresh = true := decide_eq_true h
    rw [gestureKind_within hwithin, freshAfter_within hwithin]
    rfl
  · have hbeyond : withinWindow s.par.tps s.clk r.lastFresh = false := decide_eq_false h
    rw [gestureKind_beyond hbeyond, freshAfter_beyond hbeyond]
    rfl
  · rfl

/-- Settles O54: half a second since the epoch is half a second since a last fresh click that is the epoch. -/
theorem bootWindowDoubleClick : Obligations.BootWindowDoubleClick := by
  intro s b hboot hfresh
  have hwithin : withinWindow s.par.tps s.clk (s.btn.get b).lastFresh = true := by
    rw [hfresh]
    exact (withinWindow_epoch _ _).trans (decide_eq_true hboot)
  refine ⟨_, exec_buttonUpdate b true s, ?_⟩
  rw [updateButton_eq, gestureKind_within hwithin]
  rfl

/-! A held button (R268). -/

/-- The next step of a button held down, at the time that the clock then shows. -/
def heldStep (b : Button) (r : Result) (time : Timestamp) : Result :=
  match r with
  | .next u => exec (.buttonUpdate b true) { u with clk := time }
  | stop => stop

/-- The event of the `e.2`-th step of a held button: a Click at even steps and a DoubleClick at odd ones (R268). -/
def heldEvent (b : Button) (lists : PerKind (List CallbackId)) (e : Timestamp × Nat) : Event :=
  if e.2 % 2 = 0 then ⟨b, .click, e.1, lists.click⟩ else ⟨b, .doubleClick, e.1, lists.doubleClick⟩

/-- A step at an odd place of the alternation falls in the window of the button's last fresh click, and one at an even place
does not. -/
def InPhase (tps n : Nat) (t fresh : Timestamp) : Prop := withinWindow tps t fresh = decide (n % 2 = 1)

section InPhase
variable {tps n : Nat} {t fresh : Timestamp}
theorem InPhase.beyond (h : InPhase tps n t fresh) (hn : n % 2 = 0) : withinWindow tps t fresh = false :=
  Eq.trans h (decide_eq_false (by omega))
theorem InPhase.within (h : InPhase tps n t fresh) (hn : n % 2 = 1) : withinWindow tps t fresh = true :=
  Eq.trans h (decide_eq_true hn)

/-- A step in phase emits the alternation's event. -/
theorem InPhase.event (h : InPhase tps n t fresh) (b : Button)
    (lists : PerKind (List CallbackId)) :
    (⟨b, gestureKind tps true t fresh, t, lists.get (gestureKind tps true t fresh)⟩ : Event) = heldEvent b lists (t, n) := by
  rcases Nat.mod_two_eq_zero_or_one n with hn | hn
  · rw [gestureKind_beyond (h.beyond hn), heldEvent, if_pos hn]
    rfl
  · rw [gestureKind_within (h.within hn), heldEvent, if_neg (by omega)]
    rfl

/-- A step in phase leaves the button in phase for a next one within half a second of it and not of the epoch. -/
theorem InPhase.next {u : Timestamp} (h : InPhase tps n t fresh) (hnear : withinWindow tps u t = true)
    (hlate : withinWindow tps u .epoch = false) : InPhase tps (n + 1) u (freshAfter tps true t fresh) := by
  rcases Nat.mod_two_eq_zero_or_one n with hn | hn
  · rw [freshAfter_beyond (h.beyond hn), InPhase, hnear, decide_eq_true (by omega)]
  · rw [freshAfter_within (h.within hn), InPhase, hlate, decide_eq_false (by omega)]
end InPhase

/-- From a button that is in phase for the first time, the held steps alternate from there on. -/
theorem heldSteps_alternate {b : Button} {times : List Timestamp} {s : State} {n : Nat}
    (hlate : ∀ t ∈ times, withinWindow s.par.tps t .epoch = false)
    (hfirst : ∀ t ∈ times.head?, InPhase s.par.tps n t (s.btn.get b).lastFresh)
    (hnear : times.IsChain fun t u => withinWindow s.par.tps u t = true) :
    ∃ t, times.foldl (heldStep b) (.next s) = .next t ∧
      t.evlog = s.evlog ++ (times.zipIdx n).map (heldEvent b (s.cb.get b)) := by
  induction times generalizing s n with
  | nil => exact ⟨s, rfl, by simp⟩
  | cons time times ih =>
    have hphase := hfirst time rfl
    obtain ⟨hhead, htail⟩ := List.isChain_cons.mp hnear
    obtain ⟨t, hrun, hevents⟩ := ih (s := updateButton b true time { s with clk := time }) (n := n + 1)
      (by rw [updateButton_eq]; exact fun t ht => hlate t (List.mem_cons_of_mem _ ht))
      (by
        rw [updateButton_eq]
        intro u hu
        simp only [emit_btn, PerButton.get_set, if_true]
        exact hphase.next (hhead u hu) (hlate u (List.mem_cons_of_mem _ (List.mem_of_mem_head? hu))))
      (by rw [updateButton_eq]; exact htail)
    refine ⟨t, hrun, ?_⟩
    rw [hevents, updateButton_eq, emit_evlog, hphase.event, List.zipIdx_cons, List.map_cons, List.append_assoc]
    rfl

/-- Settles O55: the first step is beyond the window, so the alternation starts with a Click. -/
theorem heldButtonAlternates : Obligations.HeldButtonAlternates := by
  intro b times s at_ hlate hfirst hnear
  refine heldSteps_alternate (fun t ht => ?_) (fun t ht => ?_) (hnear.imp fun _ _ h => decide_eq_true h)
  · rw [withinWindow_epoch]
    have hsince : (s.par.tps : Int) < 2 * ((ticks s.par.tps t : Nat) : Int) := hlate t ht
    exact decide_eq_false (by omega)
  · exact decide_eq_false (not_le.mpr (hfirst t ht))

/-! Registration (R264). -/

theorem registerCallback_code (b : Button) (k : Kind) (c : CallbackId) (s : State) : registerCallback b.code k.code c s =
    { s with cb := s.cb.set b ((s.cb.get b).set k (((s.cb.get b).get k) ++ [c])) } := by
  have hb : buttonOfField b.code = some b := by cases b <;> rfl
  have hk : kindOfField k.code = some k := by cases k <;> rfl
  simp only [registerCallback, hb, hk]

theorem registerCallback_field_three {f g : BitVec 2} (h : f = 3#2 ∨ g = 3#2) (c : CallbackId) (s : State) :
    registerCallback f g c s = refuse .badOnField s := by
  rcases h with rfl | rfl
  · rfl
  · unfold registerCallback
    split
    · next hk => nomatch hk
    · rfl

/-- Settles O57: the registration of a named list is one `set` of it, and the field 3 names no button and no kind. -/
theorem registrationAppends : Obligations.RegistrationAppends := by
  intro s c
  refine ⟨fun b k => ?_, fun f g h => congrArg Host.Outcome.next (registerCallback_field_three h c s)⟩
  refine ⟨_, congrArg Host.Outcome.next (registerCallback_code b k c s), ?_, fun b' k' hother => ?_, rfl⟩
  · simp only [PerButton.get_set, PerKind.get_set, if_true]
  · simp only [PerButton.get_set]
    split_ifs with hb
    · subst hb
      have hk : k' ≠ k := fun hk => hother (by rw [hk])
      rw [PerKind.get_set, if_neg hk]
    · rfl

end Sys2Proof.Machine
end

section
/-! What the gesture state machine is joined to the rest of the block by (R269, R270): every transaction but a bare button
step works on the rest, without a look at the button records, the events and the packets, and hands packets over; so a
relation that both of these keep is kept by every such transaction. -/

namespace Sys2Proof.Machine

/-! The part of the state that packets are handed over to. -/

/-- The button records, the events and the packets. -/
structure Gestures where
  btn : PerButton Btn
  evlog : List Event
  pktlog : List Packet

/-- The state with that part replaced. -/
def withGestures (g : Gestures) (s : State) : State := { s with btn := g.btn, evlog := g.evlog, pktlog := g.pktlog }

/-- `f` neither reads nor writes the gestures. -/
def IgnoresGestures (f : State → State) : Prop := ∀ g s, f (withGestures g s) = withGestures g (f s)

/-- It leaves them as they are: replace them by themselves. -/
theorem IgnoresGestures.keeps {f : State → State} (hf : IgnoresGestures f) (s : State) :
    (f s).btn = s.btn ∧ (f s).evlog = s.evlog ∧ (f s).pktlog = s.pktlog := by
  have hself : f s = withGestures ⟨s.btn, s.evlog, s.pktlog⟩ (f s) :=
    hf ⟨s.btn, s.evlog, s.pktlog⟩ s
  exact ⟨(congrArg State.btn hself :), (congrArg State.evlog hself :), (congrArg State.pktlog hself :)⟩

theorem IgnoresGestures.comp {f h : State → State} (hh : IgnoresGestures h) (hf : IgnoresGestures f) :
    IgnoresGestures fun s => h (f s) := fun g s => (congrArg h (hf g s)).trans (hh g (f s))

/-- A choice by what is not of the gestures. -/
theorem IgnoresGestures.ite {c : State → Prop} [DecidablePred c] {f h : State → State} (hf : IgnoresGestures f)
    (hh : IgnoresGestures h) (hc : ∀ g s, c (withGestures g s) ↔ c s := by exact fun _ _ => Iff.rfl) :
    IgnoresGestures fun s => if c s then f s else h s := by
  intro g s
  simp only [hc, apply_ite (withGestures g), hf g s, hh g s]

theorem ignores_refuse (r : Reason) : IgnoresGestures (refuse r) := fun _ _ => rfl
theorem ignores_record (e : Entry) : IgnoresGestures (record e) := fun _ _ => rfl

/-! Port writes (R71). -/

section Ports
variable (c : Ctl) (v : Byte)

theorem ignores_setPic (f : Pic → Pic) : IgnoresGestures fun s => s.setPic c (f (s.pic c)) := by
  cases c
  · exact fun _ _ => rfl
  · exact fun _ _ => rfl

theorem ignores_icw1 : IgnoresGestures (icw1 c v) :=
  (ignores_refuse _).ite ((ignores_record _).comp (ignores_setPic c fun p => { p with imr := 0x00#8, init := .icw2 }))
theorem ignores_icw2 : IgnoresGestures (icw2 c v) :=
  (ignores_record _).comp (ignores_setPic c fun p => { p with base := baseOf v, init := .icw3 })
theorem ignores_icw3 : IgnoresGestures (icw3 c v) :=
  (ignores_refuse _).ite ((ignores_record _).comp (ignores_setPic c fun p => { p with init := .icw4 }))
theorem ignores_icw4 : IgnoresGestures (icw4 c v) :=
  (ignores_refuse _).ite ((ignores_record _).comp (ignores_setPic c fun p => { p with init := .ready }))
theorem ignores_ocw1 : IgnoresGestures (ocw1 c v) :=
  (ignores_record _).comp (ignores_setPic c fun p => { p with imr := v })

theorem withGestures_pic (g : Gestures) (s : State) : (withGestures g s).pic c = s.pic c := by cases c <;> rfl

theorem ignores_serviced : IgnoresGestures (serviced c) := by
  intro g s
  rcases s with ⟨_, _, _, _, _, _, _, _, _, _, _, _, _, handler, _, _, _, _, _⟩
  rcases handler with _ | ⟨vector, _ | _, _ | _⟩ <;> cases c <;> rfl

theorem ignores_eoi : IgnoresGestures (eoi c) :=
  (ignores_refuse _).ite ((ignores_serviced c).comp ((ignores_record _).comp
    (ignores_setPic c fun p => { p with isr := isrAfterEoi p.isr }))) fun g s => by rw [withGestures_pic]

theorem ignores_evenOther : IgnoresGestures (evenOther v) := (ignores_refuse _).ite (ignores_refuse _)

theorem ignores_evenWrite : IgnoresGestures (evenWrite c v) :=
  (ignores_icw1 c v).ite ((ignores_eoi c).ite (ignores_evenOther v))

theorem ignores_oddWrite : IgnoresGestures (oddWrite c v) := by
  intro g s
  unfold oddWrite
  rw [withGestures_pic]
  split
  · exact ignores_icw2 c v g s
  · exact ignores_icw3 c v g s
  · exact ignores_icw4 c v g s
  · exact ignores_ocw1 c v g s

theorem ignores_pitCtrl : IgnoresGestures (pitCtrl v) := (ignores_refuse _).ite fun _ _ => rfl

theorem ignores_pitData : IgnoresGestures (pitData v) := by
  intro g s
  have hpit : (withGestures g s).pit = s.pit := rfl
  unfold pitData
  rw [hpit]
  split
  · rfl
  · rfl

theorem ignores_outPort (p : Port) : IgnoresGestures (outPort p v) :=
  have refused : IgnoresGestures pitRefused := ignores_refuse _
  (ignores_evenWrite _ v).ite <| (ignores_oddWrite _ v).ite <| (ignores_evenWrite _ v).ite <| (ignores_oddWrite _ v).ite <|
    (ignores_pitData v).ite <| refused.ite <| refused.ite <| (ignores_pitCtrl v).ite <|
    (ignores_record _).ite <| (ignores_record _).ite <| (ignores_record _).ite <| ignores_refuse _

end Ports

/-! The devices, the reads and the acknowledge cycle (R81, R150 to R152, R221 to R223). -/

theorem ignores_raiseLine (n : BitVec 4) : IgnoresGestures (raiseLine n) :=
  (ignores_refuse _).ite ((ignores_record _).comp
    (ignores_setPic (lineCtl n) fun p => { p with irr := setBit p.irr (lineIdx n) }))

theorem ignores_kbcPush (src : Src) (b : Byte) : IgnoresGestures (kbcPush src b) :=
  (ignores_raiseLine _).comp (f := fun s => record (.push src b) { s with kbcQ := s.kbcQ ++ [(b, src)] }) fun _ _ => rfl

theorem ignores_devSteps (ds : List DevStep) : IgnoresGestures (ds.foldl devStep) := by
  induction ds with
  | nil => exact fun _ _ => rfl
  | cons d ds ih =>
    refine ih.comp (f := fun s => devStep s d) ?_
    cases d with
    | raise n => exact ignores_raiseLine n
    | push src b => exact ignores_kbcPush src b

theorem ignores_landDevices : IgnoresGestures landDevices := fun g s =>
  ignores_devSteps (s.inside.headD s.insideEver) g { s with inside := s.inside.tail }

theorem ignores_readKbcStatus : IgnoresGestures readKbcStatus := fun _ _ => rfl

theorem ignores_readKbcData : IgnoresGestures readKbcData := by
  intro g s
  cases hq : s.kbcQ with
  | nil =>
    rw [readKbcData_nil hq, readKbcData_nil (s := withGestures g s) hq]
    rfl
  | cons e q =>
    rw [readKbcData_cons hq, readKbcData_cons (s := withGestures g s) hq]
    rfl

theorem ignores_acknowledge : IgnoresGestures acknowledge := by
  have stays : IgnoresGestures fun s => s := fun _ _ => rfl
  have slave : IgnoresGestures deliverSlave := fun _ _ => rfl
  have master : IgnoresGestures fun s => deliverMaster (lowest (reqM s)) s := fun _ _ => rfl
  have spur : IgnoresGestures spurious := IgnoresGestures.ite (fun _ _ => rfl) (fun _ _ => rfl)
  exact stays.ite ((slave.ite master).ite (spur.ite stays))

theorem ignores_registerCallback (b k : BitVec 2) (c : CallbackId) : IgnoresGestures (registerCallback b k c) := by
  intro g s
  unfold registerCallback
  split
  · rfl
  · rfl

/-! The operations made of several port transactions: remap, ack, program (R121). -/

theorem ignores_macroOuts (pvs : List (Port × Byte)) : IgnoresGestures (macroOuts pvs) := by
  induction pvs with
  | nil => exact fun _ _ => rfl
  | cons pv pvs ih => exact ih.comp ((ignores_outPort pv.2 pv.1).comp ignores_landDevices)

theorem ignores_remapPair (mo so : Byte) : IgnoresGestures (remapPair mo so) := by
  refine IgnoresGestures.ite (fun g s => ?_) (ignores_refuse _)
  have first : landDevices (withGestures g s) = withGestures g (landDevices s) := ignores_landDevices g s
  have second : landDevices (readImr .master (withGestures g (landDevices s))) =
      withGestures g (landDevices (readImr .master (landDevices s))) :=
    ignores_landDevices g (readImr .master (landDevices s))
  simp only [first, second]
  exact ignores_macroOuts _ g (readImr .slave (landDevices (readImr .master (landDevices s))))

theorem ignores_programDivisor (d : BitVec 16) : IgnoresGestures (programDivisor d) :=
  (ignores_refuse _).ite (ignores_macroOuts _)

/-- Every transaction ignores the gestures but a drain, an accepted byte, a packet's completion and a bare button step. -/
theorem exec_ignores (i : Instr) :
    (∃ f, IgnoresGestures f ∧ ∀ s, exec i s = .next (f s)) ∨
    i = .drain ∨ (∃ st d, i = .accept st d) ∨ i = .packetComplete ∨ ∃ b x, i = .buttonUpdate b x := by
  cases i with
  | drain => exact .inr (.inl rfl)
  | accept st d => exact .inr (.inr (.inl ⟨st, d, rfl⟩))
  | packetComplete => exact .inr (.inr (.inr (.inl rfl)))
  | buttonUpdate b x => exact .inr (.inr (.inr (.inr ⟨b, x, rfl⟩)))
  | outPicMIcw1 => exact .inl ⟨_, ignores_icw1 _ _, fun _ => rfl⟩
  | outPicSIcw1 => exact .inl ⟨_, ignores_icw1 _ _, fun _ => rfl⟩
  | outPicMIcw2 v => exact .inl ⟨_, ignores_icw2 _ _, fun _ => rfl⟩
  | outPicSIcw2 v => exact .inl ⟨_, ignores_icw2 _ _, fun _ => rfl⟩
  | outPicMIcw3 v => exact .inl ⟨_, ignores_icw3 _ _, fun _ => rfl⟩
  | outPicSIcw3 v => exact .inl ⟨_, ignores_icw3 _ _, fun _ => rfl⟩
  | outPicMIcw4 v => exact .inl ⟨_, ignores_icw4 _ _, fun _ => rfl⟩
  | outPicSIcw4 v => exact .inl ⟨_, ignores_icw4 _ _, fun _ => rfl⟩
  | outPicMOcw1 v => exact .inl ⟨_, ignores_ocw1 _ _, fun _ => rfl⟩
  | outPicSOcw1 v => exact .inl ⟨_, ignores_ocw1 _ _, fun _ => rfl⟩
  | outPicMEoi => exact .inl ⟨_, ignores_eoi _, fun _ => rfl⟩
  | outPicSEoi => exact .inl ⟨_, ignores_eoi _, fun _ => rfl⟩
  | outPicMEvenOther v => exact .inl ⟨_, ignores_evenOther v, fun _ => rfl⟩
  | outPicSEvenOther v => exact .inl ⟨_, ignores_evenOther v, fun _ => rfl⟩
  | outPitCtrl => exact .inl ⟨_, ignores_pitCtrl _, fun _ => rfl⟩
  | outPitCtrlOther v => exact .inl ⟨_, ignores_pitCtrl v, fun _ => rfl⟩
  | outPitData v => exact .inl ⟨_, ignores_pitData v, fun _ => rfl⟩
  | inKbcData => exact .inl ⟨_, ignores_readKbcData, fun _ => rfl⟩
  | irq2 => exact .inl ⟨_, ignores_raiseLine _, fun _ => rfl⟩
  | irq n => exact .inl ⟨_, ignores_raiseLine n, fun _ => rfl⟩
  | inta => exact .inl ⟨_, ignores_acknowledge, fun _ => rfl⟩
  | kbcPush src b => exact .inl ⟨_, ignores_kbcPush src b, fun _ => rfl⟩
  | remap mo so => exact .inl ⟨_, ignores_remapPair mo so, fun _ => rfl⟩
  | ack v => exact .inl ⟨ackVector v, fun g s => ignores_macroOuts _ g s, fun _ => rfl⟩
  | program d => exact .inl ⟨_, ignores_programDivisor d, fun _ => rfl⟩
  | onEvent b k c => exact .inl ⟨_, ignores_registerCallback b k c, fun _ => rfl⟩
  | inKbcStatus => exact .inl ⟨_, ignores_readKbcStatus, fun _ => rfl⟩
  | clockAdvance => exact .inl ⟨advanceClock, fun _ _ => rfl, fun _ => rfl⟩
  | inPicMIrr => exact .inl ⟨readIrr .master, fun _ _ => rfl, fun _ => rfl⟩
  | inPicSIrr => exact .inl ⟨readIrr .slave, fun _ _ => rfl, fun _ => rfl⟩
  | inPicMImr => exact .inl ⟨readImr .master, fun _ _ => rfl, fun _ => rfl⟩
  | inPicSImr => exact .inl ⟨readImr .slave, fun _ _ => rfl, fun _ => rfl⟩
  | outKbcData v => exact .inl ⟨_, ignores_record _, fun _ => rfl⟩
  | outKbcCmd v => exact .inl ⟨_, ignores_record _, fun _ => rfl⟩
  | outIoWait v => exact .inl ⟨_, ignores_record _, fun _ => rfl⟩
  | _ => exact .inl ⟨_, ignores_refuse _, fun _ => rfl⟩

/-! The transactions that hand packets over (R224 to R228). -/

/-- A relation of two states that differ at most in their gestures, kept by whatever ignores these and by the hand-over of a
packet. -/
structure KeptByPackets (R : State → State → Prop) : Prop where
  outside : ∀ {s u}, R s u → ∃ g, u = withGestures g s
  ignoring : ∀ {s u f}, IgnoresGestures f → R s u → R (f s) (f u)
  packet : ∀ {s u} p, R s u → R (handOver p s) (handOver p u)

theorem rel_getD {R : State → State → Prop} {o p : Option State} {s u : State} (hop : Option.Rel R o p) (hsu : R s u) :
    R (o.getD s) (p.getD u) := by
  cases hop with
  | some h => exact h
  | none => exact hsu

namespace KeptByPackets
variable {R : State → State → Prop} (hR : KeptByPackets R) {s u : State} (h : R s u)
include hR h

theorem completePacket : R (completePacket s) (completePacket u) := by
  obtain ⟨g, rfl⟩ := hR.outside h
  cases hover : overflowed s.asm.buf0 with
  | true =>
    rw [completePacket_overflowed hover, completePacket_overflowed (s := withGestures g s) hover]
    exact hR.ignoring (f := raiseDiag (.packetOverflowDropped s.asm.buf0 s.asm.buf1 s.asm.buf2)) (fun _ _ => rfl) h
  | false =>
    rw [completePacket_whole hover, completePacket_whole (s := withGestures g s) hover]
    exact hR.packet _ h

theorem acceptByte (aux : Bool) (d : Byte) : R (acceptByte aux d s) (acceptByte aux d u) := by
  obtain ⟨g, rfl⟩ := hR.outside h
  have hstore : ∀ a, R { s with asm := a } { withGestures g s with asm := a } := fun a =>
    hR.ignoring (f := fun s => { s with asm := a }) (fun _ _ => rfl) h
  cases aux with
  | false => exact h
  | true =>
    have hcases : s.asm.pos = 0#2 ∨ s.asm.pos = 1#2 ∨ s.asm.pos = 2#2 ∨ s.asm.pos = 3#2 := by bv_omega
    rcases hcases with hpos | hpos | hpos | hpos
    · rw [acceptByte_first d hpos, acceptByte_first (s := withGestures g s) d hpos]
      exact hstore _
    · rw [acceptByte_second d hpos, acceptByte_second (s := withGestures g s) d hpos]
      exact hstore _
    · rw [acceptByte_third d hpos, acceptByte_third (s := withGestures g s) d hpos]
      exact hR.completePacket (hstore _)
    · rw [acceptByte_badPosition d hpos, acceptByte_badPosition (s := withGestures g s) d hpos]
      exact hR.ignoring (f := raiseDiag (.badCyclePosition 3#2 d)) (fun _ _ => rfl) h

theorem kbcQ : u.kbcQ = s.kbcQ := by
  obtain ⟨g, rfl⟩ := hR.outside h
  rfl

/-- The two passes agree on whether the loop goes on. -/
theorem drainPass : R (drainPass s).1 (drainPass u).1 ∧ (drainPass u).2 = (drainPass s).2 := by
  have hland := hR.ignoring ignores_landDevices h
  have hstatus := hR.ignoring ignores_readKbcStatus hland
  cases hq : (landDevices s).kbcQ with
  | nil =>
    rw [drainPass_nil hq, drainPass_nil ((hR.kbcQ hland).trans hq)]
    exact ⟨hstatus, rfl⟩
  | cons e q =>
    obtain ⟨d, src⟩ := e
    rw [drainPass_cons hq, drainPass_cons ((hR.kbcQ hland).trans hq)]
    exact ⟨hR.acceptByte (hR.ignoring ignores_readKbcData (hR.ignoring ignores_landDevices hstatus)) _ _, rfl⟩

/-- The two loops end alike, or both outlast the fuel. -/
theorem drainLoop (fuel : Nat) : Option.Rel R (drainLoop fuel s) (drainLoop fuel u) := by
  induction fuel generalizing s u with
  | zero => exact .none
  | succ n ih =>
    obtain ⟨hpass, hgoes⟩ := hR.drainPass h
    unfold Machine.drainLoop
    rcases hs : Machine.drainPass s with ⟨s', more⟩
    rcases hu : Machine.drainPass u with ⟨u', more'⟩
    rw [hs, hu] at hpass hgoes
    obtain rfl : more' = more := hgoes
    cases more' with
    | true => exact ih hpass
    | false => exact .some hpass

theorem drainQueue : R (drainQueue s) (drainQueue u) := by
  obtain ⟨g, rfl⟩ := hR.outside h
  have hagain := hR.ignoring (f := drainAgain) (fun _ _ => rfl) (hR.drainPass h).1
  exact rel_getD (hR.drainLoop h (s.kbcQ.length + pushesToCome s + 1)) hagain

/-- Every transaction but a bare button step keeps the relation, run in both states. -/
theorem exec {i : Instr} (hi : ∀ b x, i ≠ .buttonUpdate b x) {s' u' : State} (hs : exec i s = .next s')
    (hu : exec i u = .next u') : R s' u' := by
  rcases exec_ignores i with ⟨f, hf, hexec⟩ | rfl | ⟨st, d, rfl⟩ | rfl | ⟨b, x, rfl⟩
  · rw [hexec] at hs hu
    cases hs
    cases hu
    exact hR.ignoring hf h
  · cases hs
    cases hu
    exact hR.drainQueue h
  · obtain ⟨g, rfl⟩ := hR.outside h
    cases hs
    cases hu
    exact hR.acceptByte h _ d
  · cases hs
    cases hu
    exact hR.completePacket h
  · exact absurd rfl (hi b x)

end KeptByPackets

end Sys2Proof.Machine
end

section
/-! The statements of 43_gesture_fsm.md about all transactions: what a button's step reads of its record (R270), and three
events for each packet (R262, R269). -/

namespace Sys2Proof.Machine

/-! A button's state and last update (R270). -/

/-- The two states differ at most in the buttons' states and last updates. -/
def Alike (s u : State) : Prop := ∃ bs, u = { s with btn := bs } ∧ ∀ b, (s.btn.get b).lastFresh = (bs.get b).lastFresh

theorem Alike.updateButton (b : Button) (x : Bool) (t : Timestamp) {s u : State} (h : Alike s u) :
    Alike (updateButton b x t s) (updateButton b x t u) := by
  obtain ⟨bs, rfl, hfresh⟩ := h
  rw [updateButton_eq, updateButton_eq, ← hfresh b]
  refine ⟨_, rfl, fun c => ?_⟩
  by_cases hc : c = b
  · simp only [emit_btn, PerButton.get_set, if_pos hc]
  · simpa only [emit_btn, PerButton.get_set, if_neg hc] using hfresh c

theorem Alike.keptByPackets : KeptByPackets Alike where
  outside := by
    rintro s _ ⟨bs, rfl, -⟩
    exact ⟨⟨bs, s.evlog, s.pktlog⟩, rfl⟩
  ignoring := by
    rintro s _ f hf ⟨bs, rfl, hfresh⟩
    obtain ⟨hbtn, hev, hpkt⟩ := hf.keeps s
    refine ⟨bs, ?_, by rwa [hbtn]⟩
    calc f { s with btn := bs } = withGestures ⟨bs, s.evlog, s.pktlog⟩ (f s) := hf ⟨bs, s.evlog, s.pktlog⟩ s
      _ = withGestures ⟨bs, (f s).evlog, (f s).pktlog⟩ (f s) := by rw [hev, hpkt]
  packet := by
    rintro s _ p ⟨bs, rfl, hfresh⟩
    exact .updateButton _ _ _ (.updateButton _ _ _ (.updateButton _ _ _ ⟨bs, rfl, hfresh⟩))

theorem Alike.exec {i : Instr} {s u s' u' : State} (h : Alike s u) (hs : exec i s = .next s')
    (hu : exec i u = .next u') : Alike s' u' := by
  by_cases hi : ∃ b x, i = .buttonUpdate b x
  · obtain ⟨b, x, rfl⟩ := hi
    have hclk : u.clk = s.clk := by
      obtain ⟨bs, rfl, -⟩ := h
      rfl
    rw [exec_buttonUpdate] at hs hu
    rw [hclk] at hu
    cases hs
    cases hu
    exact h.updateButton b x s.clk
  · exact Alike.keptByPackets.exec h (fun b x hb => hi ⟨b, x, hb⟩) hs hu

theorem Alike.runInstrs {is : List Instr} {s u s' u' : State} (h : Alike s u) (hs : runInstrs is s = .next s')
    (hu : runInstrs is u = .next u') : Alike s' u' := by
  induction is generalizing s u with
  | nil =>
    cases hs
    cases hu
    exact h
  | cons i is ih =>
    obtain ⟨s1, hs1, -⟩ := exec_micros i s
    obtain ⟨u1, hu1, -⟩ := exec_micros i u
    simp only [Machine.runInstrs, hs1] at hs
    simp only [Machine.runInstrs, hu1] at hu
    exact ih (h.exec hs1 hu1) hs hu

/-- Settles O56: of a button's record its step reads the last fresh click alone, and nothing else reads a record. -/
theorem buttonHistoryHasNoInfluence : Obligations.ButtonHistoryHasNoInfluence := by
  intro is s u s' u' hrest hfresh hs hu
  obtain ⟨bs, rfl, hfresh'⟩ := Alike.runInstrs ⟨u.btn, hrest.symm, hfresh⟩ hs hu
  exact ⟨rfl, hfresh'⟩

/-! Three events for each packet (R262, R269). -/

theorem gestureKind_eq_release_iff (tps : Nat) (x : Bool) (t fresh : Timestamp) :
    gestureKind tps x t fresh = .release ↔ x = false := by
  cases x with
  | false => exact iff_of_true rfl rfl
  | true => cases h : withinWindow tps t fresh <;> simp [gestureKind, h]

/-- One button's event: a Release exactly where the sample is clear. -/
structure EventOf (b : Button) (x : Bool) (t : Timestamp) (e : Event) : Prop where
  button : e.button = b
  time : e.t = t
  release : e.kind = .release ↔ x = false

theorem updateButton_event (b : Button) (x : Bool) (t : Timestamp) (s : State) :
    ∃ e, (updateButton b x t s).evlog = s.evlog ++ [e] ∧ EventOf b x t e := by
  rw [updateButton_eq]
  exact ⟨_, rfl, rfl, rfl, gestureKind_eq_release_iff _ _ _ _⟩

/-- A packet's three events, in the order Left, Right, Middle (R262). -/
theorem dispatch_events (p : Packet) (s : State) : ∃ l r m, (dispatch p s).evlog = s.evlog ++ [l, r, m] ∧
    EventOf .left p.left p.t l ∧ EventOf .right p.right p.t r ∧ EventOf .middle p.middle p.t m := by
  obtain ⟨l, hl, hleft⟩ := updateButton_event .left p.left p.t s
  obtain ⟨r, hr, hright⟩ := updateButton_event .right p.right p.t (updateButton .left p.left p.t s)
  obtain ⟨m, hm, hmiddle⟩ :=
    updateButton_event .middle p.middle p.t (updateButton .right p.right p.t (updateButton .left p.left p.t s))
  refine ⟨l, r, m, ?_, hleft, hright, hmiddle⟩
  rw [dispatch, hm, hr, hl, List.append_assoc, List.append_assoc]
  rfl

theorem handOver_events (p : Packet) (s : State) : ∃ l r m, (handOver p s).evlog = s.evlog ++ [l, r, m] ∧
    EventOf .left p.left p.t l ∧ EventOf .right p.right p.t r ∧ EventOf .middle p.middle p.t m :=
  dispatch_events p { s with pktlog := s.pktlog ++ [p] }

/-- From `s` to `t`, which is `u` too, three events were added for each packet. -/
def ThreeEach (s t u : State) : Prop :=
  u = t ∧ t.evlog.length + 3 * s.pktlog.length = s.evlog.length + 3 * t.pktlog.length

theorem ThreeEach.keptByPackets (s : State) : KeptByPackets (ThreeEach s) where
  outside := by
    rintro _ t ⟨rfl, -⟩
    exact ⟨⟨t.btn, t.evlog, t.pktlog⟩, rfl⟩
  ignoring := by
    rintro _ t f hf ⟨rfl, hcount⟩
    obtain ⟨-, hev, hpkt⟩ := hf.keeps t
    exact ⟨rfl, by rw [hev, hpkt]; exact hcount⟩
  packet := by
    rintro _ t p ⟨rfl, hcount⟩
    obtain ⟨l, r, m, hev, -⟩ := handOver_events p t
    have hpkt : (handOver p t).pktlog = t.pktlog ++ [p] := dispatch_pktlog _ _
    refine ⟨rfl, ?_⟩
    rw [hev, hpkt]
    simp only [List.length_append, List.length_cons, List.length_nil]
    omega

/-- Settles O53: only the hand-over of a packet writes events and packets, and each of its button steps emits one event. -/
theorem threeEventsPerPacket : Obligations.ThreeEventsPerPacket := by
  refine ⟨fun i s t hexec hi => ((ThreeEach.keptByPackets s).exec ⟨rfl, rfl⟩ hi hexec hexec).2, fun s hclear => ?_⟩
  have hwhole : overflowed s.asm.buf0 = false := bne_eq_false_iff_eq.mpr hclear
  obtain ⟨l, r, m, hev, hl, hr, hm⟩ := handOver_events (decodePacket s.asm.buf0 s.asm.buf1 s.asm.buf2 s.clk) s
  refine ⟨_, l, r, m, congrArg Host.Outcome.next (completePacket_whole hwhole), hev, hl.button, hr.button, hm.button,
    hl.time, hr.time, hm.time, ?_⟩
  rw [← buttonBit_left, ← buttonBit_right, ← buttonBit_middle]
  exact ⟨hl.release, hr.release, hm.release⟩

end Sys2Proof.Machine
end

section
/-! The statements of 60_exceptions.md: the block never stops (R300), only a delivery clears a latched request (R306), and
the three handlers serve their interrupts (R311 to R314, R353). A handler is its acknowledge cycle, its work and its `ack`;
what the `ack` does is said once for a vector of the master and once for a vector of the slave. -/

namespace Sys2Proof.Machine

/-! Every step has a next state (R300). -/

theorem exec_next (i : Instr) (s : State) : ∃ t, exec i s = .next t := by
  obtain ⟨t, ht, -⟩ := exec_micros i s
  exact ⟨t, ht⟩

theorem runWord_next (w : Word) (s : State) : ∃ t, runWord w s = .next t := by
  cases hdec : decode s.master.init s.slave.init w with
  | instr i =>
    rw [runWord_of_decode_instr hdec]
    exact exec_next i s
  | invalid why => exact ⟨_, runWord_of_decode_invalid hdec⟩

/-- Settles O9, by the entry that the step takes. -/
theorem everyStepHasANextState : Obligations.EveryStepHasANextState := by
  intro s
  cases hin : s.input with
  | nil => exact ⟨s, step_nil hin⟩
  | cons e rest =>
    cases e with
    | word w =>
      rw [step_word hin]
      exact runWord_next w _
    | wide p => exact ⟨_, step_wide hin⟩
    | handlerReturn => exact ⟨_, step_handlerReturn hin⟩

/-! Who clears a latched request (R306). -/

/-- A bit is still set in `v` after clearing bit `i`, or it is the bit that is set in `w` in its place. -/
theorem clearBit_or_setBit {v : Byte} {k i : Nat} (hk : v.getLsbD k = true) (hi : i < 8) (w : Byte) :
    (clearBit v i).getLsbD k = true ∨ (setBit w i).getLsbD k = true := by
  by_cases hki : k = i
  · exact .inr (by simp [setBit_getLsbD w hi, hki])
  · exact .inl (by simp [clearBit_getLsbD v hi, hk, hki])

/-- The request that a delivery clears is the line that it puts in service (R152). -/
theorem deliver_irr {s : State} {c : Ctl} {k : Nat} (hk : (s.pic c).irr.getLsbD k = true) :
    ((deliver s).pic c).irr.getLsbD k = true ∨ ((deliver s).pic c).isr.getLsbD k = true := by
  unfold deliver
  split_ifs
  · cases c with
    | master => exact .inl hk
    | slave => exact clearBit_or_setBit hk (lowest_lt (reqS s)) s.slave.isr
  · cases c with
    | master => exact clearBit_or_setBit hk (lowest_lt (reqM s)) s.master.isr
    | slave => exact .inl hk

theorem acknowledge_irr {s : State} {c : Ctl} {k : Nat} (hk : (s.pic c).irr.getLsbD k = true) :
    ((acknowledge s).pic c).irr.getLsbD k = true ∨ ((acknowledge s).pic c).isr.getLsbD k = true := by
  by_cases hidle : s.handler = none
  · cases hint : intOut s with
    | true =>
      rw [acknowledge_delivers hidle hint]
      exact deliver_irr hk
    | false =>
      rw [acknowledge_no_request hidle hint]
      split_ifs
      · exact .inl (by rw [spurious_irr]; exact hk)
      · exact .inl hk
  · rw [acknowledge_running hidle]
    exact .inl hk

/-- No transaction but the acknowledge cycle clears a request: it makes no delivery. -/
theorem exec_irr_of_ne_inta {i : Instr} (hi : i ≠ .inta) {s t : State} (h : exec i s = .next t) {c : Ctl} {k : Nat} :
    (s.pic c).irr.getLsbD k = true → (t.pic c).irr.getLsbD k = true :=
  exec_keeps (P := fun s => (s.pic c).irr.getLsbD k = true)
    (fun _ hm _ hk => Micro.run_irr (by rintro rfl; exact hi hm) (by rintro rfl; exact hi hm) hk) h

theorem exec_irr {i : Instr} {s t : State} (h : exec i s = .next t) (c : Ctl) {k : Nat}
    (hk : (s.pic c).irr.getLsbD k = true) :
    (t.pic c).irr.getLsbD k = true ∨ (i = .inta ∧ (t.pic c).isr.getLsbD k = true) := by
  by_cases hi : i = .inta
  · subst hi
    obtain rfl : acknowledge s = t := Host.Outcome.next.inj h
    exact (acknowledge_irr hk).imp_right fun hserv => ⟨rfl, hserv⟩
  · exact .inl (exec_irr_of_ne_inta hi h hk)

/-- Settles O26: `exec_irr` for each controller. -/
theorem onlyDeliveryClearsARequest : Obligations.OnlyDeliveryClearsARequest := by
  intro i s t k h
  exact ⟨exec_irr h .master, exec_irr h .slave⟩

/-! The `ack` that ends a handler (R154, R309, R314), with the devices idle. -/

theorem isrAfterEoi_one_line : ∀ k < 8, isrAfterEoi (1#8 <<< k) = 0#8 := by decide

theorem exec_ack_master_idle {s : State} {v : Byte} (hdev : Idle s) (hin : inRange s.master.base v = true) :
    exec (.ack v) s = runInstrs [.outPicMEoi] s := by
  obtain ⟨hlo, hhi⟩ := (inRange_iff _ v).mp hin
  obtain ⟨hrun, -⟩ := (acknowledgeByVector s v).1 hlo hhi
  rwa [interleaved_idle hdev, withoutTurns_idle hdev] at hrun

theorem exec_ack_slave_idle {s : State} {v : Byte} (hdev : Idle s) (hout : ¬inRange s.master.base v = true)
    (hin : inRange s.slave.base v = true) : exec (.ack v) s = runInstrs [.outPicSEoi, .outPicMEoi] s := by
  obtain ⟨hlo, hhi⟩ := (inRange_iff _ v).mp hin
  rw [inRange_iff] at hout
  obtain ⟨hrun, -⟩ := (acknowledgeByVector s v).2.1 hout hlo hhi
  rwa [interleaved_idle hdev, withoutTurns_idle hdev] at hrun

/-- A handler that owes only the master's end-of-interrupt ends with it (R309). -/
theorem eoi_master_last {s : State} {v : Byte} {m : Bool} (hready : s.master.init = .ready)
    (hrun : s.handler = some ⟨v, false, m⟩) : eoi .master s =
      { eoiWritten .master s with handler := none, trace := (eoiWritten .master s).trace ++ [.handlerEnd v] } :=
  (eoi_of_ready (c := .master) hready).trans (serviced_master_last hrun)

/-- The handler of a master vector ends with its `ack`. -/
theorem exec_ack_ends_master {s : State} {v : Byte} (hdev : Idle s) (hin : inRange s.master.base v = true)
    (hready : s.master.init = .ready) (hrun : s.handler = some ⟨v, false, true⟩) :
    exec (.ack v) s = .next { s with
      master := { s.master with isr := isrAfterEoi s.master.isr }
      handler := none
      trace := s.trace ++ [.out 0x20#16 0x20#8, .handlerEnd v] } := by
  calc exec (.ack v) s = .next (eoi .master s) := exec_ack_master_idle hdev hin
    _ = _ := by
      rw [eoi_master_last hready hrun]
      simp [eoiWritten, evenPort]

/-- What both end-of-interrupts write, the slave's first, but for the running handler (R154). -/
def eoisWritten (s : State) : State := { s with
  master := { s.master with isr := isrAfterEoi s.master.isr }
  slave := { s.slave with isr := isrAfterEoi s.slave.isr }
  trace := s.trace ++ [.out 0xA0#16 0x20#8, .out 0x20#16 0x20#8] }

theorem eoiWritten_master_slave (s : State) : eoiWritten .master (eoiWritten .slave s) = eoisWritten s := by
  simp only [eoiWritten, eoisWritten, record, State.pic_master, State.pic_slave, State.setPic_master, State.setPic_slave,
    List.append_assoc]
  rfl

theorem eois_no_handler {s : State} (hm : s.master.init = .ready) (hs : s.slave.init = .ready) (hrun : s.handler = none) :
    runInstrs [.outPicSEoi, .outPicMEoi] s = .next (eoisWritten s) := by
  have hslave : eoi .slave s = eoiWritten .slave s :=
    (eoi_of_ready (c := .slave) hs).trans (serviced_idle _ _ hrun)
  have hmaster : eoi .master (eoiWritten .slave s) = eoiWritten .master (eoiWritten .slave s) :=
    (eoi_of_ready (c := .master) (s := eoiWritten .slave s) hm).trans (serviced_idle _ _ hrun)
  calc runInstrs [.outPicSEoi, .outPicMEoi] s = .next (eoi .master (eoi .slave s)) := rfl
    _ = .next (eoisWritten s) := by rw [hslave, hmaster, eoiWritten_master_slave]

/-- The handler of a slave vector goes on after the slave's end-of-interrupt and ends with the master's. -/
theorem eois_end_slave {s : State} {v : Byte} (hm : s.master.init = .ready) (hs : s.slave.init = .ready)
    (hrun : s.handler = some ⟨v, true, true⟩) : runInstrs [.outPicSEoi, .outPicMEoi] s =
      .next { eoisWritten s with handler := none, trace := (eoisWritten s).trace ++ [.handlerEnd v] } := by
  have hslave : eoi .slave s = { eoiWritten .slave s with handler := some ⟨v, false, true⟩ } :=
    (eoi_of_ready (c := .slave) hs).trans (serviced_slave_owing hrun)
  have hmaster := eoi_master_last (s := { eoiWritten .slave s with handler := some ⟨v, false, true⟩ }) hm rfl
  rw [← eoiWritten_master_slave]
  calc runInstrs [.outPicSEoi, .outPicMEoi] s = .next (eoi .master (eoi .slave s)) := rfl
    _ = _ := by
      rw [hslave]
      exact congrArg Host.Outcome.next hmaster

/-- A vector of a base that is a multiple of 8 is one of the eight from the base on (R112, R154). -/
theorem inRange_vectorOf {base : Byte} (hbase : base.toNat % 8 = 0) {i : Nat} (hi : i < 8) :
    inRange base (vectorOf base i) = true := by
  rw [inRange_iff, vectorOf_toNat base hbase i hi]
  omega

/-- Settles O30: the vector is the slave's, and each end-of-interrupt takes its controller's one line out of service. -/
theorem acknowledgeReopensBothControllers : Obligations.AcknowledgeReopensBothControllers := by
  intro s j hj hdev hm hs hbase hout hmisr hsisr v t
  have hv : v.toNat = s.slave.base.toNat + j := by
    have hlt := s.slave.base.isLt
    simp only [v, BitVec.toNat_add, BitVec.toNat_ofNat]
    omega
  have hack : exec (.ack v) s = runInstrs [.outPicSEoi, .outPicMEoi] s := by
    refine exec_ack_slave_idle hdev ?_ ?_
    · rw [inRange_iff, hv]
      exact hout
    · rw [inRange_iff, hv]
      omega
  have hwritten : eoisWritten s = t := by
    have hcascade : isrAfterEoi 0x04#8 = 0#8 := isrAfterEoi_one_line 2 (by decide)
    simp only [eoisWritten, hmisr, hsisr, hcascade, isrAfterEoi_one_line j hj, t]
  constructor
  · intro hrun
    rw [hack, eois_no_handler hm hs hrun, hwritten]
  · intro hrun
    rw [hack, eois_end_slave hm hs hrun, hwritten]

/-! The acknowledge cycle that starts a handler (R152, R305). -/

/-- Neither a running handler nor a line in service on the master holds a request of the master back (R140, R308). -/
structure MasterFree (s : State) : Prop where
  noHandler : s.handler = none
  ready : s.master.init = .ready
  noneInService : s.master.isr = 0#8

theorem blocked_of_none_in_service (k : Nat) : blocked 0#8 k = false := by simp [blocked]

/-- The master's highest-priority request is delivered. -/
theorem exec_inta_delivers {s : State} {n : Nat} (hfree : MasterFree s) (hreq : (reqM s).getLsbD n = true)
    (hleast : ∀ k < n, (reqM s).getLsbD k = false) :
    exec .inta s = .next (if n = 2 then deliverSlave s else deliverMaster n s) := by
  have hint : intOut s = true := (intOut_iff s).mpr
    ⟨hfree.ready, byte_ne_zero_of_bit hreq, by rw [hfree.noneInService, blocked_of_none_in_service]⟩
  calc exec .inta s = .next (acknowledge s) := rfl
    _ = .next (deliver s) := by rw [acknowledge_delivers hfree.noHandler hint]
    _ = _ := by rw [deliver, lowest_eq hreq hleast]

/-! The handlers of the master's lines (R311, R313). -/

/-- What a handler's transactions between its acknowledge cycle and its `ack` leave of the state `s`: they record `es`, and
touch neither the master nor the running handler. -/
structure HandlerWork (es : List Entry) (s u : State) : Prop where
  master : u.master = s.master
  handler : u.handler = s.handler
  trace : u.trace = s.trace ++ es
  idle : Idle u

/-- A handler of master line `n` whose work is one transaction `i`: whatever `i` does to the other units, the line is out of
service at the end and its request is cleared. -/
theorem runInstrs_masterHandler {s u : State} {n : Nat} {v : Byte} {i : Instr} {es : List Entry} (hn : n < 8)
    (hfree : MasterFree s) (hbase : s.master.base.toNat % 8 = 0) (hv : vectorOf s.master.base n = v)
    (hinta : exec .inta s = .next (deliverMaster n s)) (hi : exec i (deliverMaster n s) = .next u)
    (hwork : HandlerWork es (deliverMaster n s) u) : runInstrs [.inta, i, .ack v] s = .next { u with
      master := { s.master with irr := clearBit s.master.irr n }
      handler := s.handler
      trace := s.trace ++ (.inta v :: (es ++ [.out 0x20#16 0x20#8, .handlerEnd v])) } := by
  subst hv
  have hmaster : u.master = { s.master with isr := setBit s.master.isr n, irr := clearBit s.master.irr n } := hwork.master
  have hin : inRange u.master.base (vectorOf s.master.base n) = true := by
    rw [hmaster]
    exact inRange_vectorOf hbase hn
  have hended := exec_ack_ends_master hwork.idle hin (by rw [hmaster]; exact hfree.ready) hwork.handler
  have hnone : isrAfterEoi (setBit 0#8 n) = 0#8 := by
    rw [setBit, BitVec.zero_or]
    exact isrAfterEoi_one_line n hn
  have hstart : (deliverMaster n s).trace = s.trace ++ [.inta (vectorOf s.master.base n)] := rfl
  simp only [runInstrs, hinta, hi, hended]
  simp only [hmaster, hfree.noneInService, hnone, hfree.noHandler, hwork.trace, hstart, List.append_assoc, List.cons_append,
    List.nil_append]

/-- Settles O59: the timer's line 0 and the keyboard's line 1 are each the lowest request, and the byte read is by whether
the queue is empty. -/
theorem timerAndKeyboardHandlersServe : Obligations.TimerAndKeyboardHandlersServe := by
  intro s hdev hidle hready hbase _ hisr
  have hfree : MasterFree s := ⟨hidle, hready, hisr⟩
  have hmul : s.master.base.toNat % 8 = 0 := by rw [hbase]; rfl
  constructor
  case left =>
    rintro ⟨hirr, himr⟩
    have hreq := (reqM_requests s (n := 0) (by decide)).mpr ⟨hirr, himr⟩
    have hinta : exec .inta s = .next (deliverMaster 0 s) := exec_inta_delivers hfree hreq nofun
    have hv : vectorOf s.master.base 0 = 32#8 := by rw [hbase]; rfl
    exact runInstrs_masterHandler (by decide) hfree hmul hv hinta (exec_clockAdvance _)
      ⟨rfl, rfl, (List.append_nil _).symm, hdev.listed, hdev.ever⟩
  case right =>
    intro hnoTimer hirr himr
    have hreq := (reqM_requests s (n := 1) (by decide)).mpr ⟨hirr, himr⟩
    have htimer : (reqM s).getLsbD 0 = false := by
      rw [reqM_getLsbD s (by decide)]
      rcases hnoTimer with h | h
      · rw [if_neg (by decide), h, Bool.false_and]
      · rw [h, Bool.not_true, Bool.and_false]
    have hinta : exec .inta s = .next (deliverMaster 1 s) :=
      exec_inta_delivers hfree hreq fun k hk => by rwa [Nat.lt_one_iff.mp hk]
    have hv : vectorOf s.master.base 1 = 33#8 := by rw [hbase]; rfl
    have hserved {u : State} {es : List Entry} (hread : readKbcData (deliverMaster 1 s) = u)
        (hwork : HandlerWork es (deliverMaster 1 s) u) :=
      runInstrs_masterHandler (i := .inKbcData) (by decide) hfree hmul hv hinta (congrArg Host.Outcome.next hread) hwork
    exact ⟨fun b src q hq => hserved (readKbcData_cons hq) ⟨rfl, rfl, rfl, hdev.listed, hdev.ever⟩,
      fun hq => ⟨_, hserved (readKbcData_nil hq) ⟨rfl, rfl, rfl, hdev.listed, hdev.ever⟩⟩⟩

/-! The mouse handler (R312). -/

theorem acceptAll_handler_turns (q : List (Byte × Src)) (s : State) : (acceptAll q s).handler = s.handler ∧
    (acceptAll q s).inside = s.inside ∧ (acceptAll q s).insideEver = s.insideEver := by
  induction q generalizing s with
  | nil => exact ⟨rfl, rfl, rfl⟩
  | cons e q ih =>
    obtain ⟨d, src⟩ := e
    obtain ⟨hhandler, hinside, hever⟩ := ih (acceptByte (src == .aux) d s)
    rw [acceptAll_cons, hhandler, hinside, hever]
    exact ⟨acceptByte_handler _ _ s, acceptByte_inside _ _ s, acceptByte_insideEver _ _ s⟩

/-- A drain while the devices are idle empties the queue, and leaves both controllers, the running handler and the devices'
turns as they are. -/
theorem drainQueue_idle_outside {s : State} (hdev : Idle s) : (drainQueue s).kbcQ = [] ∧ (drainQueue s).master = s.master ∧
    (drainQueue s).slave = s.slave ∧ (drainQueue s).handler = s.handler ∧ Idle (drainQueue s) := by
  obtain ⟨n, es, hdrain⟩ := drainQueue_idle hdev
  obtain ⟨hmaster, hslave⟩ := acceptAll_outside s.kbcQ s
  obtain ⟨hhandler, hinside, hever⟩ := acceptAll_handler_turns s.kbcQ s
  rw [hdrain]
  exact ⟨rfl, hmaster, hslave, hhandler, hinside.trans hdev.listed, hever.trans hdev.ever⟩

/-- With no request of the slave above the mouse's, its line 4, that is the slave's lowest. -/
theorem reqS_mouse {s : State} (hreq : reqS s &&& 0x1F#8 = 0x10#8) :
    (reqS s).getLsbD 4 = true ∧ lowest (reqS s) = 4 := by
  have hbits : ∀ k < 5, (reqS s).getLsbD k = decide (k = 4) := by
    intro k hk
    have hbit := congrArg (·.getLsbD k) hreq
    interval_cases k <;> simpa using hbit
  have hmouse := hbits 4 (by decide)
  exact ⟨hmouse, lowest_eq hmouse fun k hk => by rw [hbits k (by omega), decide_eq_false (by omega)]⟩

/-- The mouse's request is delivered through the cascade when no request of the master is above line 2. -/
theorem exec_inta_mouse {s : State} (hfree : MasterFree s) (hs : s.slave.init = .ready) (hsisr : s.slave.isr = 0#8)
    (hnone : s.master.irr &&& ~~~s.master.imr &&& 0x03#8 = 0#8) (hcascade : s.master.imr.getLsbD 2 = false)
    (hreq : reqS s &&& 0x1F#8 = 0x10#8) : exec .inta s = .next (deliverSlave s) := by
  obtain ⟨hmouse, -⟩ := reqS_mouse hreq
  have hint : slaveInt s = true := (slaveInt_iff s).mpr
    ⟨hs, byte_ne_zero_of_bit hmouse, by rw [hsisr, blocked_of_none_in_service]⟩
  have habove : ∀ k < 2, (reqM s).getLsbD k = false := by
    intro k hk
    have hbit := congrArg (·.getLsbD k) hnone
    rw [reqM_getLsbD s (by omega), if_neg (by omega)]
    interval_cases k <;> simpa using hbit
  exact exec_inta_delivers hfree ((reqM_requests s (n := 2) (by decide)).mpr ⟨hint, hcascade⟩) habove

/-- The delivery of the mouse's request returns vector 44 (R152, R305). -/
theorem deliverSlave_mouse {s : State} (hmisr : s.master.isr = 0#8) (hsisr : s.slave.isr = 0#8)
    (hbase : s.slave.base = 40#8) (hmouse : lowest (reqS s) = 4) : deliverSlave s = { s with
      master := { s.master with isr := 0x04#8 }
      slave := { s.slave with isr := 0x10#8, irr := s.slave.irr &&& 0xEF#8 }
      handler := some ⟨44#8, true, true⟩
      trace := s.trace ++ [.inta 44#8] } := by
  rw [deliverSlave, hmouse, hbase, hmisr, hsisr]
  rfl

/-- Settles O60: the slave's line 4 is delivered through the cascade, the drain leaves both controllers alone, and the `ack`
is of a slave vector. -/
theorem mouseHandlerServes : Obligations.MouseHandlerServes := by
  intro s hdev hidle hm hs hmbase hsbase hmisr hsisr hnone hcascade hreq
  obtain ⟨-, hmouse⟩ := reqS_mouse hreq
  have hinta := exec_inta_mouse ⟨hidle, hm, hmisr⟩ hs hsisr hnone hcascade hreq
  have hstart := deliverSlave_mouse hmisr hsisr hsbase hmouse
  obtain ⟨hqueue, hmaster, hslave, hrun, hturns⟩ := drainQueue_idle_outside (s := deliverSlave s) ⟨hdev.listed, hdev.ever⟩
  have hdrain : exec .drain (deliverSlave s) = .next (drainQueue (deliverSlave s)) := exec_drain _
  refine ⟨_, _, hinta, by rw [hstart], hdrain, hqueue, ?_⟩
  generalize drainQueue (deliverSlave s) = u at hmaster hslave hrun hturns hdrain
  rw [hstart] at hmaster hslave hrun
  have hack : exec (.ack 44#8) u = runInstrs [.outPicSEoi, .outPicMEoi] u :=
    exec_ack_slave_idle hturns (by rw [hmaster, hmbase]; decide) (by rw [hslave, hsbase]; decide)
  have hended := hack.trans (eois_end_slave (by rw [hmaster]; exact hm) (by rw [hslave]; exact hs) hrun)
  have hcascadeEnd : isrAfterEoi 0x04#8 = 0#8 := isrAfterEoi_one_line 2 (by decide)
  have hmouseEnd : isrAfterEoi 0x10#8 = 0#8 := isrAfterEoi_one_line 4 (by decide)
  simp only [mouseHandler, runInstrs, hinta, hdrain, hended]
  simp only [eoisWritten, hmaster, hslave, hcascadeEnd, hmouseEnd, List.append_assoc, List.cons_append, List.nil_append]

end Sys2Proof.Machine
end

section
/-! The statements of 70_reset_and_hazards.md: the values after block reset (R340), the order of the two end-of-interrupts
(R354), and a control word between the two count bytes (R355). -/

namespace Sys2Proof.Machine

/-! Block reset (R340). -/

theorem resetWith_cb_get (p : Params) (l : Launch) (b : Button) (k : Kind) :
    ((State.resetWith p l).cb.get b).get k = [] := by
  have hlists : (State.resetWith p l).cb.get b = noCallbacks := by cases b <;> rfl
  rw [hlists]
  cases k <;> rfl

/-- Settles O10: the values are those that `State.resetWith` writes, the same for every button and every event kind. -/
theorem resetGivesTheSpecifiedValues : Obligations.ResetGivesTheSpecifiedValues := by
  intro p l
  exact ⟨rfl, rfl, rfl, rfl, rfl, rfl, resetWith_btn_get p l, resetWith_cb_get p l, rfl, rfl, rfl, rfl, rfl⟩

/-! The two end-of-interrupts (R354). An end-of-interrupt is followed on the state without its trace. -/

/-- What controller `c`'s end-of-interrupt leaves of a running handler: it runs on while it owes the other controller's. -/
def Handler.afterEoi : Ctl → Handler → Option Handler
  | .master, ⟨v, true, _⟩ => some ⟨v, true, false⟩
  | .slave, ⟨v, _, true⟩ => some ⟨v, false, true⟩
  | _, _ => none

theorem serviced_handler (c : Ctl) (s : State) : (serviced c s).handler = s.handler.bind (Handler.afterEoi c) := by
  cases hrun : s.handler with
  | none => rw [serviced_idle _ _ hrun, hrun, Option.bind_none]
  | some h =>
    obtain ⟨v, owesSlave, owesMaster⟩ := h
    cases c with
    | master =>
      cases owesSlave with
      | true => rw [serviced_master_owing hrun]; rfl
      | false => rw [serviced_master_last hrun]; rfl
    | slave =>
      cases owesMaster with
      | true => rw [serviced_slave_owing hrun]; rfl
      | false => rw [serviced_slave_last hrun]; rfl

/-- Whatever a handler owes, both end-of-interrupts end it. -/
theorem Handler.afterEoi_both (h : Handler) :
    (h.afterEoi .slave).bind (Handler.afterEoi .master) = none ∧
    (h.afterEoi .master).bind (Handler.afterEoi .slave) = none := by
  obtain ⟨v, owesSlave, owesMaster⟩ := h
  cases owesSlave <;> cases owesMaster <;> exact ⟨rfl, rfl⟩

theorem handlerAfterEoi_comm (h : Option Handler) :
    (h.bind (Handler.afterEoi .slave)).bind (Handler.afterEoi .master) =
    (h.bind (Handler.afterEoi .master)).bind (Handler.afterEoi .slave) := by
  cases h with
  | none => rfl
  | some h =>
    obtain ⟨hslaveFirst, hmasterFirst⟩ := h.afterEoi_both
    exact hslaveFirst.trans hmasterFirst.symm

/-- The state but for what was recorded. -/
def untraced (s : State) : State := { s with trace := [] }

/-- All that an end-of-interrupt does, admitted or refused, but for what it records (R146). -/
def eoiEffect (c : Ctl) (s : State) : State :=
  if (s.pic c).init = .ready then
    { s.setPic c { s.pic c with isr := isrAfterEoi (s.pic c).isr } with handler := s.handler.bind (Handler.afterEoi c) }
  else { s with refused := true }

theorem untraced_eoi (c : Ctl) (s : State) : untraced (eoi c s) = eoiEffect c (untraced s) := by
  have hpic : (untraced s).pic c = s.pic c := by cases c <;> rfl
  by_cases hready : (s.pic c).init = .ready
  · rw [eoiEffect, hpic, if_pos hready, eoi_of_ready hready, serviced_eq, serviced_handler, eoiWritten_handler]
    cases c <;> rfl
  · rw [eoiEffect, hpic, if_neg hready, eoi_of_not_ready hready]
    rfl

/-- Neither controller's end-of-interrupt reads what the other's writes, but for the handler, which both end. -/
theorem eoiEffect_comm (s : State) :
    eoiEffect .master (eoiEffect .slave s) = eoiEffect .slave (eoiEffect .master s) := by
  by_cases hm : s.master.init = .ready <;> by_cases hs : s.slave.init = .ready <;>
    simp [eoiEffect, hm, hs, handlerAfterEoi_comm]

/-- In a slave vector's handler the first end-of-interrupt, admitted or refused, leaves the handler running. -/
theorem eoi_slaveHandler_runs {s : State} {v : Byte} (hrun : s.handler = some ⟨v, true, true⟩) (c : Ctl) :
    (eoi c s).handler ≠ none := by
  by_cases hready : (s.pic c).init = .ready
  · have hleft : (eoi c s).handler = (Handler.mk v true true).afterEoi c := by
      rw [eoi_of_ready hready, serviced_handler, eoiWritten_handler, hrun, Option.bind_some]
    rw [hleft]
    cases c <;> exact Option.some_ne_none _
  · rw [eoi_of_not_ready hready, refuse_handler, hrun]
    exact Option.some_ne_none _

/-- Settles O31: an acknowledge cycle is dropped while the handler runs, and `eoiEffect_comm` is the two orders. -/
theorem orderOfTheTwoEndOfInterrupts : Obligations.OrderOfTheTwoEndOfInterrupts := by
  constructor
  · intro s t v hrun hfirst
    have hruns : t.handler ≠ none := by
      rcases hfirst with hslave | hmaster
      · cases hslave
        exact eoi_slaveHandler_runs hrun .slave
      · cases hmaster
        exact eoi_slaveHandler_runs hrun .master
    exact congrArg Host.Outcome.next (acknowledge_running hruns)
  · intro s
    refine ⟨eoi .master (eoi .slave s), eoi .slave (eoi .master s), rfl, rfl, ?_⟩
    calc untraced (eoi .master (eoi .slave s))
      _ = eoiEffect .master (eoiEffect .slave (untraced s)) := by rw [untraced_eoi, untraced_eoi]
      _ = eoiEffect .slave (eoiEffect .master (untraced s)) := eoiEffect_comm _
      _ = untraced (eoi .slave (eoi .master s)) := by rw [untraced_eoi, untraced_eoi]

/-! A control word between the two count bytes (R355). -/

section CountBytes
variable {s : State} {mode : BitVec 3} {lo : Byte} {reload : BitVec 16} {armed : Bool}

theorem pitData_low (hpit : s.pit = ⟨mode, .lohi, .low, lo, reload, armed⟩) (v : Byte) :
    (pitData v s).pit = ⟨mode, .lohi, .high, v, reload, armed⟩ := by
  rw [pitData_lohi (by rw [hpit]), record_pit, hpit, pitCount_low rfl]

theorem pitData_high (hpit : s.pit = ⟨mode, .lohi, .high, lo, reload, armed⟩) (v : Byte) :
    (pitData v s).pit = ⟨mode, .lohi, .low, lo, reloadOf v lo, true⟩ := by
  rw [pitData_lohi (by rw [hpit]), record_pit, hpit, pitCount_high rfl]

end CountBytes

theorem pitCtrl_pit (s : State) : (pitCtrl 0x34#8 s).pit = ⟨2#3, .lohi, .low, s.pit.lo, s.pit.reload, false⟩ := by
  rw [pitCtrl_admitted, record_pit]

/-- Settles O35: the second control word expects a low byte again, and only a high byte writes the reload. -/
theorem controlWordRestartsTheCount : Obligations.ControlWordRestartsTheCount := by
  intro s a lo hi next
  let begun := pitData a (pitCtrl 0x34#8 s)
  let restarted := pitData lo (pitCtrl 0x34#8 begun)
  have hbegun : begun.pit = ⟨2#3, .lohi, .high, a, s.pit.reload, false⟩ := pitData_low (pitCtrl_pit s) a
  have hrestarted : restarted.pit = ⟨2#3, .lohi, .high, lo, s.pit.reload, false⟩ := by
    refine pitData_low (lo := a) ?_ lo
    rw [pitCtrl_pit, hbegun]
  have hcompleted := pitData_high hrestarted hi
  exact ⟨restarted, pitData next (pitData hi restarted), reloadOf hi lo, rfl, hrestarted, rfl, pitData_low hcompleted next,
    reloadOf_toNat hi lo⟩

end Sys2Proof.Machine
end

section
/-! Words written out in the spec (95_test_vectors.md). -/

namespace Sys2Proof.Machine

/-- The word that spells a transaction is read as it, where the transaction's row is the one its word is read under (O1). -/
theorem decode_of_encode_eq {mi si : Init} {w : Word} {i : Instr} (hword : encode i = w) (hwf : i.wf = true)
    (hread : i.readUnder mi si = true) : decode mi si w = .instr i :=
  hword ▸ decodeOfEncodeIsTheInstruction i mi si hwf hread

/-- Settles O6: each of the words spells its transaction, a well-formed one whose row is read with both controllers READY. -/
theorem specWordsDecode : Obligations.SpecWordsDecode := by
  intro e he
  obtain ⟨hword, hwf, hread⟩ :
      encode e.2 = e.1 ∧ e.2.wf = true ∧ e.2.readUnder .ready .ready = true := by
    revert e
    decide
  exact decode_of_encode_eq hword hwf hread

end Sys2Proof.Machine
end
